-- ==== Sys2Proof/Word.lean ====
section
/-! DEFINITION. The words of the machine: the byte and the 32-bit word of the stream, the cache slot
index, and the pixel (00_scope.md rules R7 and R8). -/

namespace Sys2Proof

/-- A byte, `u8` of rule R7. -/
abbrev Byte := BitVec 8

/-- A 32-bit unsigned integer, `u32` of rule R7. -/
abbrev Word := BitVec 32

/-- A slot index of the pixel cache, 0..63 (20_memory.md rule R66). -/
abbrev Slot := BitVec 6

/-- A pixel: four bytes in the channel order R, G, B, A (rules R8 and R68). -/
structure Pixel where
  r : Byte
  g : Byte
  b : Byte
  a : Byte
deriving DecidableEq, Repr, Inhabited

end Sys2Proof
end

