-- ==== Sys2Proof/Config.lean ====
section
/-! DEFINITION. What is fixed for the machine: the constants of 00_scope.md rule R5, the parameters rule R6
leaves open, the records of the configuration and header registers (10_state.md rules R22 and R23),
and the free values: opaque constants for what the spec leaves unspecified. -/

namespace Sys2Proof

/-! ## Constants of the format (rule R5) -/

/-- `MAGIC`, ASCII "qoif" read as a big-endian word (rules R5 and R67). -/
def magicWord : Word := 0x716F6966#32

/-- `TRAILER`, the eight bytes 00 00 00 00 00 00 00 01, first byte most significant (rules R5 and R92). -/
def trailerWord : BitVec 64 := 1#64

/-- `RUN_MAX`, the longest run one RUN token carries (rule R5). -/
def runMax : BitVec 6 := 62#6

/-- `PREV_INIT`, the previous pixel at the start of a call (rule R5). -/
def prevInit : Pixel := ⟨0#8, 0#8, 0#8, 255#8⟩

/-- The value of every cache slot at the start of a call (10_state.md rule R32). -/
def zeroPixel : Pixel := ⟨0#8, 0#8, 0#8, 0#8⟩

/-- `DIFF_BIAS`, the bias of each small-delta field (rule R5). -/
def diffBias : Byte := 2#8

/-- `LUMA_G_BIAS`, the bias of the green field (rule R5). -/
def lumaGreenBias : Byte := 32#8

/-- `LUMA_RB_BIAS`, the bias of the red-relative and blue-relative fields (rule R5). -/
def lumaRelBias : Byte := 8#8

/-! ## Parameters left to the implementation (rule R6) -/

/-- `ALPHA3`: what a decoder does with alpha in a 3-channel stream (rule R6, 44_decoder.md rule R270). -/
inductive Alpha3 where
  /-- Every resolved pixel of a 3-channel stream gets alpha 255. -/
  | force
  /-- Alpha is kept as read. -/
  | keep
deriving DecidableEq, Repr, Inhabited

/-- The parameters of rule R6 that the spec leaves to the implementation. No step changes them. They stand in
State so that every statement holds for every value of them (assumption log 1). -/
structure Params where
  /-- `CHUNK - 1`: how far RD may read ahead (40_byte_stream.md rule R135). Kept as one less than `CHUNK`, so that
  `CHUNK >= 1` holds of every value. -/
  readAhead : Nat
  /-- `PIXBUF_MAX`: the largest pixel-buffer length in bytes that is not an overflow. -/
  pixbufMax : Nat
  /-- `ALPHA3`. -/
  alpha3 : Alpha3
deriving DecidableEq, Repr, Inhabited

/-- `CHUNK`, the size of an adapter buffer, an integer >= 1 (rule R6). -/
def Params.chunk (p : Params) : Nat := p.readAhead + 1

/-! ## Configuration and header registers -/

/-- `CFG.*`, the encoder configuration the host writes (10_state.md rule R22). -/
structure Cfg where
  /-- `CFG.WIDTH`, register 0. -/
  width : Word
  /-- `CFG.HEIGHT`, register 1. -/
  height : Word
  /-- `CFG.CH`, register 2. -/
  ch : Byte
  /-- `CFG.CS`, register 3. -/
  cs : Byte
  /-- `CFG.LEN`, register 4; "32 or more" bits, so a natural number here (assumption log 6). -/
  len : Nat
deriving DecidableEq, Repr, Inhabited

/-- `HDR.*`, the header registers DEC writes (10_state.md rule R23). -/
structure Hdr where
  /-- `HDR.WIDTH`, register 1. -/
  width : Word
  /-- `HDR.HEIGHT`, register 2. -/
  height : Word
  /-- `HDR.CH`, register 3. -/
  ch : Byte
  /-- `HDR.CS`, register 4. -/
  cs : Byte
deriving DecidableEq, Repr, Inhabited

/-! ## Free values

What the spec calls unspecified (10_state.md rule R38; 93_implementation_defined.md U10 and U14) is one of these
constants applied to the counter `fresh` of State, a new one at each use (assumption log 3). They have no body:
nothing can be proved of their values. -/

/-- A free byte: `OCH` before the header phase ends, `REQ` after a hardware reset. -/
opaque freeByte (fresh : Nat) : Byte

/-- A free 6-bit value: `ENC.RUN` after a hardware reset or an abort. -/
opaque freeRun (fresh : Nat) : BitVec 6

/-- A free number; `which` keeps apart the several numbers freed at one time. -/
opaque freeNat (fresh which : Nat) : Nat

/-- A free flag; `which` keeps apart the several flags freed at one time. -/
opaque freeFlag (fresh which : Nat) : Bool

/-- Free buffer contents: the adapter buffers after a hardware reset or an abort. -/
opaque freeBytes (fresh : Nat) : List Byte

/-- A free pixel: `PREV` after a hardware reset or an abort. -/
opaque freePixel (fresh : Nat) : Pixel

/-- Free cache contents after a hardware reset or an abort. -/
opaque freeCache (fresh : Nat) : Vector Pixel 64

/-- Free header registers: `HDR.*` before the header phase ends. -/
opaque freeHdr (fresh : Nat) : Hdr

/-- Free configuration registers: `CFG.*` after a hardware reset. -/
opaque freeCfg (fresh : Nat) : Cfg

end Sys2Proof
end

