-- ==== Sys2Proof/Syntax.lean ====
section
/-! DEFINITION. The instructions: the six tokens of the opcode stream and the two records that stand around it
(30_encoding.md rules R90 to R99, spec/opcode_table.json). -/

namespace Sys2Proof

/-- The units a stream is made of (rule R90): which of the three the decoder reads next is a matter of its phase
and never of the bytes (44_decoder.md rule R273). -/
inductive Record where
  /-- The 14-byte header record (rule R91). -/
  | header
  /-- One token of the opcode stream (rule R93). -/
  | token
  /-- The 8-byte trailer record (rule R92). -/
  | trailer
deriving DecidableEq, Repr, Inhabited

/-- One constructor per row of spec/opcode_table.json. Operands are the fields as they stand in the stream, still
biased (rule R103). -/
inductive Instr where
  /-- `RGB`: raw red, green, blue (rule R94). -/
  | rgb (r g b : Byte)
  /-- `RGBA`: raw red, green, blue, alpha (rule R95). -/
  | rgba (r g b a : Byte)
  /-- `INDEX`: a cache slot (rule R96). -/
  | index (idx : Slot)
  /-- `DIFF`: the fields `dr2`, `dg2`, `db2`, each a delta + 2 (rule R97). -/
  | diff (dr2 dg2 db2 : BitVec 2)
  /-- `LUMA`: `dg32`, a green delta + 32; `drg8`, `dbg8`, red and blue deltas less the green one, + 8 (rule R98). -/
  | luma (dg32 : BitVec 6) (drg8 dbg8 : BitVec 4)
  /-- `RUN`: `n1`, a run length - 1 (rule R99). -/
  | run (n1 : BitVec 6)
  /-- `HEADER`: magic, width, height, channels, colour space (rule R91). The magic is an operand, because a wrong one
  is a format error of the record's meaning (41_header_trailer.md rule R162) and not a decode miss. -/
  | header (magic width height : Word) (channels colorspace : Byte)
  /-- `TRAILER`: the eight bytes, first byte most significant (rule R92). They are an operand, because a mismatch is a
  corruption error and not a decode miss (41_header_trailer.md rule R166, spec/opcode_table.json). -/
  | trailer (bytes : BitVec 64)
deriving DecidableEq, Repr, Inhabited

/-- Which unit of the stream an instruction is. -/
def Instr.record : Instr → Record
  | .rgb _ _ _ => .token
  | .rgba _ _ _ _ => .token
  | .index _ => .token
  | .diff _ _ _ => .token
  | .luma _ _ _ => .token
  | .run _ => .token
  | .header _ _ _ _ _ => .header
  | .trailer _ => .trailer

/-- The mnemonic of an instruction (rules R11 and R118). -/
def Instr.mnemonic : Instr → String
  | .rgb _ _ _ => "RGB"
  | .rgba _ _ _ _ => "RGBA"
  | .index _ => "INDEX"
  | .diff _ _ _ => "DIFF"
  | .luma _ _ _ => "LUMA"
  | .run _ => "RUN"
  | .header _ _ _ _ _ => "HEADER"
  | .trailer _ => "TRAILER"

end Sys2Proof
end

