-- ==== Sys2Proof/WellFormed.lean ====
section
/-! DEFINITION. Which instructions have an encoding of their own (30_encoding.md rules R99, R91, R92 and R118):
"An operand outside its range has no encoding and an assembler refuses it". -/

namespace Sys2Proof

/-- The checks of rule R118. RGB, RGBA, INDEX, DIFF and LUMA take every value of their fields (rule R104). A RUN field
is 0..61: 62 and 63 make 0xFE and 0xFF, which are RGB and RGBA (rule R99). A HEADER has the magic and a TRAILER the
sentinel; the other header fields take every value (rule R118), the illegal ones being for the decoder to report. -/
def Instr.wellFormed : Instr → Bool
  | .rgb _ _ _ => true
  | .rgba _ _ _ _ => true
  | .index _ => true
  | .diff _ _ _ => true
  | .luma _ _ _ => true
  | .run n1 => decide (n1.toNat ≤ 61)
  | .header magic _ _ _ _ => decide (magic = magicWord)
  | .trailer bytes => decide (bytes = trailerWord)

end Sys2Proof
end

