-- ==== Sys2Proof/Decode.lean ====
section
/-! DEFINITION. The decoder (30_encoding.md rules R90 to R103), total on any bytes and rejecting by name, and after it
the encoder, written from the same tables. -/

namespace Sys2Proof

/-! ## Byte order (20_memory.md rule R67) -/

/-- Four stream bytes as a big-endian word: the first is the most significant (rules R67 and R134). -/
def wordOfBytes (b0 b1 b2 b3 : Byte) : Word := b0 ++ b1 ++ b2 ++ b3

/-- A word as four stream bytes, most significant first (rules R67 and R139). -/
def bytesOfWord (w : Word) : List Byte :=
  [w.extractLsb' 24 8, w.extractLsb' 16 8, w.extractLsb' 8 8, w.extractLsb' 0 8]

/-- Eight stream bytes as one number, the first most significant (spec/opcode_table.json, row TRAILER). -/
def trailerOfBytes (b0 b1 b2 b3 b4 b5 b6 b7 : Byte) : BitVec 64 :=
  b0 ++ b1 ++ b2 ++ b3 ++ b4 ++ b5 ++ b6 ++ b7

/-- The eight stream bytes of a number, most significant first. -/
def bytesOfTrailer (t : BitVec 64) : List Byte :=
  [t.extractLsb' 56 8, t.extractLsb' 48 8, t.extractLsb' 40 8, t.extractLsb' 32 8,
   t.extractLsb' 24 8, t.extractLsb' 16 8, t.extractLsb' 8 8, t.extractLsb' 0 8]

/-! ## The decoder -/

/-- Why bytes are no instruction. There is no illegal token (rule R104): the bytes can only end too early. -/
inductive DecodeError where
  /-- A tag byte is wanted and there is none. -/
  | noTag
  /-- Fewer than three payload bytes after the tag 0xFE (rule R94). -/
  | shortRgb
  /-- Fewer than four payload bytes after the tag 0xFF (rule R95). -/
  | shortRgba
  /-- No second byte after a LUMA tag (rule R98). -/
  | shortLuma
  /-- Fewer than 14 bytes for the header record (rule R91). -/
  | shortHeader
  /-- Fewer than 8 bytes for the trailer record (rule R92). -/
  | shortTrailer
deriving DecidableEq, Repr

/-- The outcome of decoding: an instruction with the bytes after it, or a named rejection. -/
abbrev Decoded := Except DecodeError (Instr × List Byte)

/-- The tag of a token that is not 0xFE or 0xFF: bits 7:6 of its first byte (rules R96 to R99). -/
def tagBits (t : Byte) : BitVec 2 := t.extractLsb' 6 2

/-- Tokens with a full-byte tag aside, the token a first byte selects by its top two bits (rule R101). -/
def decodeTagged (t : Byte) (rest : List Byte) : Decoded :=
  if tagBits t = 0b00#2 then
    .ok (.index (t.extractLsb' 0 6), rest)
  else if tagBits t = 0b01#2 then
    .ok (.diff (t.extractLsb' 4 2) (t.extractLsb' 2 2) (t.extractLsb' 0 2), rest)
  else if tagBits t = 0b10#2 then
    match rest with
    | u :: rest' => .ok (.luma (t.extractLsb' 0 6) (u.extractLsb' 4 4) (u.extractLsb' 0 4), rest')
    | [] => .error .shortLuma
  else
    .ok (.run (t.extractLsb' 0 6), rest)

/-- One token (rules R93 to R102). The two full-byte tags are matched first, which is what keeps 0xFE and 0xFF out of
RUN (rule R101). -/
def decodeToken : List Byte → Decoded
  | [] => .error .noTag
  | t :: rest =>
    if t = 0xFE#8 then
      match rest with
      | r :: g :: b :: rest' => .ok (.rgb r g b, rest')
      | _ => .error .shortRgb
    else if t = 0xFF#8 then
      match rest with
      | r :: g :: b :: a :: rest' => .ok (.rgba r g b a, rest')
      | _ => .error .shortRgba
    else decodeTagged t rest

/-- The header record (rule R91). -/
def decodeHeader : List Byte → Decoded
  | m0 :: m1 :: m2 :: m3 :: w0 :: w1 :: w2 :: w3 :: h0 :: h1 :: h2 :: h3 :: c :: s :: rest =>
    .ok (.header (wordOfBytes m0 m1 m2 m3) (wordOfBytes w0 w1 w2 w3) (wordOfBytes h0 h1 h2 h3) c s, rest)
  | _ => .error .shortHeader

/-- The trailer record (rule R92). -/
def decodeTrailer : List Byte → Decoded
  | b0 :: b1 :: b2 :: b3 :: b4 :: b5 :: b6 :: b7 :: rest =>
    .ok (.trailer (trailerOfBytes b0 b1 b2 b3 b4 b5 b6 b7), rest)
  | _ => .error .shortTrailer

/-- The decoder. Which unit stands next is given: the record codec and the token phase never look for one another's
bytes (44_decoder.md rule R273). -/
def decode : Record → List Byte → Decoded
  | .header, bs => decodeHeader bs
  | .token, bs => decodeToken bs
  | .trailer, bs => decodeTrailer bs

/-! ## How many bytes to read

DEC reads a byte at a time (40_byte_stream.md rule R133) and stops reading as soon as the unit is whole, or as a header
field just read is one it must refuse (41_header_trailer.md rules R162 and R163). -/

/-- The length in bytes of the token whose first byte is `t` (rules R100 and R102). -/
def tokenLength (t : Byte) : Nat :=
  if t = 0xFE#8 then 4
  else if t = 0xFF#8 then 5
  else if tagBits t = 0b10#2 then 2
  else 1

/-- How many header bytes are read, given those read so far: to the end of the first field that is refused (rules R162
and R163: each field is checked "as soon as it is read"). The last field, the colour space, ends the record. -/
def headerNeed (bs : List Byte) : Nat :=
  if bs.length < 4 then 4
  else if bs.take 4 ≠ bytesOfWord magicWord then 4
  else if bs.length < 8 then 8
  else if (bs.drop 4).take 4 = [0#8, 0#8, 0#8, 0#8] then 8
  else if bs.length < 12 then 12
  else if (bs.drop 8).take 4 = [0#8, 0#8, 0#8, 0#8] then 12
  else if bs.length < 13 then 13
  else if bs[12]? ≠ some 3#8 ∧ bs[12]? ≠ some 4#8 then 13
  else 14

/-- How many bytes of the unit are read in all, as far as the bytes read so far tell. -/
def bytesNeeded : Record → List Byte → Nat
  | .header, bs => headerNeed bs
  | .token, [] => 1
  | .token, t :: _ => tokenLength t
  | .trailer, _ => 8

/-- The longest instruction, the header record (rule R91). -/
def longestInstr : Nat := 14

/-- Bytes read, made up to the longest instruction with zeros. The zeros stand for header fields after a refused one:
they are never read, and no check looks at them (60_exceptions.md rule R309). -/
def padded (bs : List Byte) : List Byte := bs ++ List.replicate longestInstr 0#8

/-- The instruction of the bytes read. -/
def decodeRead (k : Record) (bs : List Byte) : Option Instr :=
  match decode k (padded bs) with
  | .ok (i, _) => some i
  | .error _ => none

/-! ## The encoder -/

/-- The bytes of an instruction, in stream order (rules R94 to R99, R91, R92 and R118). -/
def encode : Instr → List Byte
  | .rgb r g b => [0xFE#8, r, g, b]
  | .rgba r g b a => [0xFF#8, r, g, b, a]
  | .index idx => [0b00#2 ++ idx]
  | .diff dr2 dg2 db2 => [0b01#2 ++ dr2 ++ dg2 ++ db2]
  | .luma dg32 drg8 dbg8 => [0b10#2 ++ dg32, drg8 ++ dbg8]
  | .run n1 => [0b11#2 ++ n1]
  | .header magic w h c s => bytesOfWord magic ++ bytesOfWord w ++ bytesOfWord h ++ [c, s]
  | .trailer t => bytesOfTrailer t

/-- The bytes of a sequence of instructions, with nothing between them (rule R90). -/
def encodeAll (is : List Instr) : List Byte := is.flatMap encode

/-! ## Words as spec/opcode_table.json numbers them -/

/-- The `n` low bytes of a number, the least significant first. -/
def bytesFromLow : Nat → Nat → List Byte
  | 0, _ => []
  | n + 1, w => BitVec.ofNat 8 w :: bytesFromLow n (w / 256)

/-- A 32-bit word of a number, as big-endian stream bytes. -/
def bigEndianWord (w : Nat) : List Byte := bytesOfWord (BitVec.ofNat 32 w)

/-- Which unit a row of the table is, by its width and its word. TRAILER is the one row of 64 bits. HEADER is the one
row that is matched on a 32-bit word, the magic; it has 14 bytes when written whole. Every other word is a token. -/
def tableRecord (nbits w : Nat) : Record :=
  if nbits = 64 then .trailer
  else if nbits = 112 then .header
  else if 32 ≤ nbits ∧ w % 2 ^ 32 = magicWord.toNat then .header
  else .token

/-- The stream bytes of a table word, zeros above `nbits` up to the longest instruction. Tokens are numbered by bytes,
the first in bits 7..0. The table numbers HEADER by big-endian 32-bit words, the first ("stream bytes 0..3 read as a
big-endian u32") in bits 31..0; a HEADER word numbered by bytes is known by its magic and taken as such. The table
numbers TRAILER as one number, "first byte most significant". -/
def tableBytes (nbits w : Nat) : List Byte :=
  let v := w % 2 ^ nbits
  match tableRecord nbits w with
  | .token => bytesFromLow longestInstr v
  | .header =>
    if bytesFromLow 4 v = bytesOfWord magicWord then bytesFromLow longestInstr v
    else bigEndianWord v ++ bigEndianWord (v / 2 ^ 32) ++ bigEndianWord (v / 2 ^ 64) ++ bytesFromLow 2 (v / 2 ^ 96)
  | .trailer => bytesOfTrailer (BitVec.ofNat 64 v) ++ bytesFromLow 6 0

/-- The instruction the decoder reads from a table word. -/
def decodeTableWord (nbits w : Nat) : Option Instr :=
  match decode (tableRecord nbits w) (tableBytes nbits w) with
  | .ok (i, _) => some i
  | .error _ => none

end Sys2Proof
end

