-- ==== Sys2Proof/Machine/State.lean ====
section
/-! DEFINITION. The state of the machine (10_state.md): the encoder engine ENC with its cache and the writer WR, the
decoder engine DEC with its cache and the reader RD, the host's memories and ports, and the host's coming actions. -/

namespace Sys2Proof.Machine

/-! ## Phase and status -/

/-- `PHASE`, one per engine (rule R33). -/
inductive Phase where
  /-- No call in progress. -/
  | idle
  /-- Writing, or reading and checking, the 14 header bytes. -/
  | header
  /-- One pixel per step (ENC), one token per step (DEC). -/
  | body
  /-- Writing the 8 trailer bytes and flushing, or reading and checking them. -/
  | trailer
  /-- Call ended, `STATUS.CODE = OK`. -/
  | done
  /-- Call ended with an error. -/
  | failed
deriving DecidableEq, Repr, Inhabited

/-- `STATUS`, one per engine, readable by the host (rule R34). -/
structure Status where
  /-- `STATUS.BUSY`, 1 bit. -/
  busy : Bool
  /-- `STATUS.CODE`, 3 bits, 0..5. -/
  code : BitVec 3
  /-- `STATUS.CAUSE`, 4 bits. -/
  cause : BitVec 4
deriving DecidableEq, Repr, Inhabited

/-- The errors, one per row of the table of 60_exceptions.md rule R301. They are not faults of the model: an engine
takes its error and goes to the phase FAILED (rule R310). -/
inductive Err where
  /-- `FORMAT`, `BAD_MAGIC`. -/
  | formatMagic
  /-- `FORMAT`, `BAD_WIDTH`. -/
  | formatWidth
  /-- `FORMAT`, `BAD_HEIGHT`. -/
  | formatHeight
  /-- `FORMAT`, `BAD_CHANNELS`. -/
  | formatChannels
  /-- `FORMAT`, `BAD_COLORSPACE`. -/
  | formatColorspace
  /-- `FORMAT`, `SIZE_OVERFLOW`. -/
  | formatSize
  /-- `TRUNCATION`, `HEADER`. -/
  | truncationHeader
  /-- `TRUNCATION`, `BODY`. -/
  | truncationBody
  /-- `TRUNCATION`, `TRAILER`. -/
  | truncationTrailer
  /-- `CORRUPTION`, `BAD_TRAILER`. -/
  | corruptionTrailer
  /-- `USAGE`, `BAD_REQ`. -/
  | usageReq
  /-- `USAGE`, `BAD_LENGTH`. -/
  | usageLength
  /-- `USAGE`, `BAD_DIMENSIONS`. -/
  | usageDimensions
  /-- `USAGE`, `BAD_CHANNELS`. -/
  | usageChannels
  /-- `USAGE`, `BAD_COLORSPACE`. -/
  | usageColorspace
  /-- `USAGE`, `SIZE_OVERFLOW`. -/
  | usageSize
  /-- `IO`, `SOURCE`. -/
  | ioSource
  /-- `IO`, `SINK`. -/
  | ioSink
deriving DecidableEq, Repr

/-! ## Memories, cache and adapters -/

/-- A byte memory of the host (`PIXIN`, `PIXOUT`; 20_memory.md rule R60): address and byte pairs, addresses strictly
rising. An address that is not listed holds no byte the model knows (assumption log 5). -/
abbrev Memory := List Host.Cell

/-- The canonical form of a memory: addresses strictly rising. No byte stands for an unlisted address, so no entry can
repeat it. -/
abbrev Memory.wf (m : Memory) : Prop := m.Pairwise (fun x y => x.1 < y.1)

/-- `CACHE[0..63]` (10_state.md rule R32). -/
abbrev Cache := Vector Pixel 64

/-- The reader RD (rule R35). `RD.LIM` is the length of `buf`: of `RD.BUF` only the bytes below `RD.LIM` are kept, the
others being "unspecified and never read before they are written" (assumption log 4). -/
structure Rd where
  /-- `RD.BUF[0..LIM-1]`. -/
  buf : List Byte
  /-- `RD.POS`. -/
  pos : Nat
  /-- `RD.EOF`. -/
  eof : Bool
  /-- `RD.ERR`. -/
  err : Bool
deriving DecidableEq, Repr, Inhabited

/-- The writer WR (rule R35). `WR.POS` is the length of `buf` (assumption log 4). -/
structure Wr where
  /-- `WR.BUF[0..POS-1]`. -/
  buf : List Byte
  /-- `WR.ERR`. -/
  err : Bool
deriving DecidableEq, Repr, Inhabited

/-- What a source port answers when the host holds no more bytes of `SRC` (40_byte_stream.md rule R131). -/
inductive SrcTail where
  /-- No answer yet: the request waits (93_implementation_defined.md U16). -/
  | silent
  /-- `end`. -/
  | ended
  /-- `fail`. -/
  | failed
deriving DecidableEq, Repr, Inhabited

/-- The host's source port: `SRC` as far as RD has not taken it, and how the host will answer (rules R60, R64, R131).
Each `data(n, bytes)` answer carries 1 to `CHUNK` bytes whatever the plan, so no malformed transfer can be
written down (93_implementation_defined.md U13; assumption log 7). -/
structure Source where
  /-- The bytes of `SRC` not yet handed over, in order. -/
  bytes : List Byte
  /-- The sizes, less one, of the coming answers (cut to what fits); when used up, whole chunks. -/
  cuts : List Nat
  /-- What follows the last byte. -/
  tail : SrcTail
deriving DecidableEq, Repr, Inhabited

/-- What a sink port answers when the host grants no more offers (40_byte_stream.md rule R136). -/
inductive SinkTail where
  /-- No answer yet: the offer waits (93_implementation_defined.md U16). -/
  | silent
  /-- `fail`, the sink having taken `kept` bytes of the offer, or all of it where it is shorter. The rule says what the
  sink has taken after `ok` only; after a failure it is "any value among prefixes" (93_implementation_defined.md U9), so
  the plan of the port says how many, and it may be any number (assumption log 7). -/
  | failed (kept : Nat)
deriving DecidableEq, Repr, Inhabited

/-- The host's sink port: `SINK` and how the host will answer (rules R60, R65, R136; assumption log 7). -/
structure Sink where
  /-- `SINK`: the bytes the host has taken in this call. -/
  bytes : List Byte
  /-- How many more offers are answered `ok`; `none` for all of them. -/
  grants : Option Nat
  /-- What comes after the last grant. -/
  tail : SinkTail
deriving DecidableEq, Repr, Inhabited

/-! ## The engines -/

/-- ENC: its configuration, registers, cache and writer (rules R22, R24 to R27, R32 to R35). -/
structure Enc where
  /-- `CFG.*`. -/
  cfg : Cfg
  /-- `ENC.PHASE`. -/
  phase : Phase
  /-- `STATUS` of ENC. -/
  status : Status
  /-- `ENC.PREV`. -/
  prev : Pixel
  /-- `ENC.RUN`, 6 bits. -/
  run : BitVec 6
  /-- `ENC.PIX`. -/
  pix : Nat
  /-- `ENC.NPIX`. -/
  npix : Nat
  /-- `ENC.EPOS`. -/
  epos : Nat
  /-- ENC's `CACHE`. -/
  cache : Cache
  /-- WR. -/
  wr : Wr
  /-- The model's own: how many bytes of the step in progress WR has taken already, when a step waits on the sink
  (assumption log 8). -/
  sent : Nat
deriving DecidableEq, Repr, Inhabited

/-- DEC: its configuration, registers, cache and reader (rules R23, R28 to R30, R32 to R35). -/
structure Dec where
  /-- `REQ`. -/
  req : Byte
  /-- `HDR.*`. -/
  hdr : Hdr
  /-- `OCH`. -/
  och : Byte
  /-- `DEC.PHASE`. -/
  phase : Phase
  /-- `STATUS` of DEC. -/
  status : Status
  /-- `DEC.PREV`. -/
  prev : Pixel
  /-- `DEC.WCUR`. -/
  wcur : Nat
  /-- `DEC.NPIX`. -/
  npix : Nat
  /-- `DEC.SPOS`. -/
  spos : Nat
  /-- DEC's `CACHE`. -/
  cache : Cache
  /-- RD. -/
  rd : Rd
  /-- The model's own: the bytes of the token or record in progress that DEC has taken already, when a step waits on
  the source (assumption log 8). -/
  pend : List Byte
deriving DecidableEq, Repr, Inhabited

/-! ## The host and the turns -/

/-- The two engines (rule R20). RD and WR steps happen inside their engine's. -/
inductive Engine where
  | enc
  | dec
deriving DecidableEq, Repr, Inhabited

/-- What the host does to the block (92_eei_decisions.md D1). -/
inductive HostAct where
  /-- `start` of an encode (43_encoder.md rule R211). -/
  | startEnc
  /-- `start` of a decode (44_decoder.md rule R261). -/
  | startDec
  /-- `abort` of the encode (60_exceptions.md rule R321). -/
  | abortEnc
  /-- `abort` of the decode (rule R321). -/
  | abortDec
  /-- Hardware reset (70_reset_and_hazards.md rule R352). -/
  | hardReset
  /-- Write `CFG.WIDTH` (rule R353). -/
  | cfgWidth (v : Word)
  /-- Write `CFG.HEIGHT`. -/
  | cfgHeight (v : Word)
  /-- Write `CFG.CH`. -/
  | cfgCh (v : Byte)
  /-- Write `CFG.CS`. -/
  | cfgCs (v : Byte)
  /-- Write `CFG.LEN`. -/
  | cfgLen (v : Nat)
  /-- Write `REQ` (rule R354). -/
  | req (v : Byte)
  /-- Put bytes into `PIXIN` from an address on (rule R353). -/
  | pixin (addr : Nat) (bytes : List Byte)
  /-- Offer a source (rule R354). -/
  | source (src : Source)
  /-- Let more bytes follow in the source, with what comes after them. -/
  | feed (bytes : List Byte) (tail : SrcTail)
  /-- Say how the sink answers from here on (rule R353). -/
  | sink (grants : Option Nat) (tail : SinkTail)
deriving DecidableEq, Repr

/-- One entry of the agenda: an action of the host, or a step of an engine. -/
inductive Turn where
  | host (a : HostAct)
  | engine (g : Engine)
deriving DecidableEq, Repr

/-! ## The whole state -/

/-- The state: both engines (a block that offers both operations holds two caches, rule R20), the host's spaces
and ports, and the order of turns. -/
structure State where
  /-- `CHUNK`, `PIXBUF_MAX`, `ALPHA3` (00_scope.md rule R6). -/
  par : Params
  /-- ENC, CACHE and WR. -/
  enc : Enc
  /-- DEC, CACHE and RD. -/
  dec : Dec
  /-- `PIXIN`. -/
  pixin : Memory
  /-- `PIXOUT`. -/
  pixout : Memory
  /-- `SRC` and the source port. -/
  src : Source
  /-- `SINK` and the sink port. -/
  sink : Sink
  /-- The coming turns, one a step; when there is none the engines in a call step in alternation (assumption
  log 9). -/
  agenda : List Turn
  /-- The engine whose turn it is when the agenda is empty. -/
  turn : Engine
  /-- The model's own counter of free values (assumption log 3). -/
  fresh : Nat
deriving DecidableEq, Repr, Inhabited

/-! ## How a step can stop -/

/-- The faults: a step asked for outside the precondition the spec gives it, or an access to an address that does not
exist. None is reachable from reset; each is safe (the model stops). -/
inductive Fault where
  /-- `exec` of a HEADER when `DEC.PHASE` is not HEADER (41_header_trailer.md rule R162 is that phase). Safe. -/
  | headerOutsideHeader
  /-- `exec` of a token against the precondition of 44_decoder.md rule R280, "DEC.PHASE = BODY, DEC.WCUR < DEC.NPIX".
  Safe. -/
  | tokenOutsideBody
  /-- `exec` of a TRAILER when `DEC.PHASE` is not TRAILER (41_header_trailer.md rule R166 is that phase). Safe. -/
  | trailerOutsideTrailer
  /-- A pixel step of ENC against the precondition of 43_encoder.md rule R230, "ENC.PIX < ENC.NPIX". Safe. -/
  | pixelOutsideBody
  /-- A pixel fetch past the `CFG.LEN` bytes of `PIXIN` (20_memory.md rules R60 and R61). Safe. -/
  | pixinAddress
deriving DecidableEq, Repr

/-- The refusals: an instruction without a meaning, or a host that breaks its duties, of which "the model says nothing"
(70_reset_and_hazards.md rule R361; 93_implementation_defined.md U13: `refuse`). Each is safe (the model stops). -/
inductive Refusal where
  /-- `exec` of an instruction that has no meaning yet. Safe. -/
  | notModelled (mnemonic : String)
  /-- The host writes `CFG.*` while the encode is busy (rule R361). Safe. -/
  | cfgWrittenWhileBusy
  /-- The host writes `PIXIN` while the encode is busy (rule R361). Safe. -/
  | pixinWrittenWhileBusy
  /-- The host writes `REQ` while the decode is busy (rule R361). Safe. -/
  | reqWrittenWhileBusy
  /-- ENC fetches a byte of `PIXIN` that the host did not supply (70_reset_and_hazards.md rule R353). Safe. -/
  | pixinNotSupplied
deriving DecidableEq, Repr

/-! ## Reset -/

/-- `STATUS` after a hardware reset: BUSY 0, CODE 0, CAUSE 0 (rule R352). -/
def Status.reset : Status := ⟨false, 0#3, 0#4⟩

/-- The machine after power-on (70_reset_and_hazards.md rule R352): both engines IDLE, `STATUS` zero. The spec leaves
every other register unspecified there; here each has the reset value its own rule gives (`PREV` (0,0,0,255), rule R24),
or else is zero or empty, `CHUNK` is 16, and the host's ports are silent (assumption log 2). `PIXBUF_MAX` and `ALPHA3` have the defaults of rule R6. -/
def State.reset : State where
  par := { readAhead := 15, pixbufMax := 2 ^ 31 - 1, alpha3 := .force }
  enc :=
    { cfg := ⟨0#32, 0#32, 0#8, 0#8, 0⟩, phase := .idle, status := Status.reset, prev := prevInit, run := 0#6, pix := 0,
      npix := 0, epos := 0, cache := Vector.replicate 64 zeroPixel, wr := ⟨[], false⟩, sent := 0 }
  dec :=
    { req := 0#8, hdr := ⟨0#32, 0#32, 0#8, 0#8⟩, och := 0#8, phase := .idle, status := Status.reset, prev := prevInit,
      wcur := 0, npix := 0, spos := 0, cache := Vector.replicate 64 zeroPixel, rd := ⟨[], 0, false, false⟩, pend := [] }
  pixin := []
  pixout := []
  src := ⟨[], [], .silent⟩
  sink := ⟨[], some 0, .silent⟩
  agenda := []
  turn := .dec
  fresh := 0

end Sys2Proof.Machine
end

