-- ==== Sys2Proof/Machine/Ops.lean ====
section
/-! DEFINITION. The named operations the meanings share: errors and their entry, memories, the pixel cache, the reader
and writer adapters, the pixel output, the resets and the host's start and abort. -/

namespace Sys2Proof.Machine

/-- The outcome of a step. -/
abbrev Result := Host.Outcome State Fault Refusal

/-! ## Updates of the two engines -/

/-- The state with another ENC. -/
def State.withEnc (s : State) (e : Enc) : State := { s with enc := e }

/-- The state with another DEC. -/
def State.withDec (s : State) (d : Dec) : State := { s with dec := d }

/-- An engine in one of these phases is in a call: `STATUS.BUSY` is 1 (10_state.md rule R34). -/
def Phase.inCall : Phase → Bool
  | .idle => false
  | .header => true
  | .body => true
  | .trailer => true
  | .done => false
  | .failed => false

/-! ## Errors (60_exceptions.md) -/

/-- `STATUS.CODE` of an error (rule R301). -/
def Err.code : Err → BitVec 3
  | .formatMagic => 1#3
  | .formatWidth => 1#3
  | .formatHeight => 1#3
  | .formatChannels => 1#3
  | .formatColorspace => 1#3
  | .formatSize => 1#3
  | .truncationHeader => 2#3
  | .truncationBody => 2#3
  | .truncationTrailer => 2#3
  | .corruptionTrailer => 3#3
  | .usageReq => 4#3
  | .usageLength => 4#3
  | .usageDimensions => 4#3
  | .usageChannels => 4#3
  | .usageColorspace => 4#3
  | .usageSize => 4#3
  | .ioSource => 5#3
  | .ioSink => 5#3

/-- `STATUS.CAUSE` of an error (rule R301). -/
def Err.cause : Err → BitVec 4
  | .formatMagic => 1#4
  | .formatWidth => 2#4
  | .formatHeight => 3#4
  | .formatChannels => 4#4
  | .formatColorspace => 5#4
  | .formatSize => 6#4
  | .truncationHeader => 1#4
  | .truncationBody => 2#4
  | .truncationTrailer => 3#4
  | .corruptionTrailer => 1#4
  | .usageReq => 1#4
  | .usageLength => 2#4
  | .usageDimensions => 3#4
  | .usageChannels => 4#4
  | .usageColorspace => 5#4
  | .usageSize => 6#4
  | .ioSource => 1#4
  | .ioSink => 2#4

/-- `STATUS` as an error leaves it (rule R310). -/
def Err.status (e : Err) : Status := ⟨false, e.code, e.cause⟩

/-- `raise` in ENC (rule R310): `STATUS` and `PHASE` are written and nothing else. -/
def raiseEnc (e : Err) (s : State) : State :=
  s.withEnc { s.enc with phase := .failed, status := e.status }

/-- `raise` in DEC (rule R310): `STATUS` and `PHASE` are written and nothing else. -/
def raiseDec (e : Err) (s : State) : State :=
  s.withDec { s.dec with phase := .failed, status := e.status }

/-- A call that ends well: `PHASE` DONE, `STATUS.BUSY` 0, `STATUS.CODE` stays OK (rules R226 and R166). -/
def finishEnc (s : State) : State :=
  s.withEnc { s.enc with phase := .done, status := { s.enc.status with busy := false } }

/-- The same for DEC (rule R166). -/
def finishDec (s : State) : State :=
  s.withDec { s.dec with phase := .done, status := { s.dec.status with busy := false } }

/-! ## Memories (20_memory.md rules R60 to R63) -/

/-- The byte at an address, if the memory holds one. -/
def memReadByte : Memory → Nat → Option Byte
  | [], _ => none
  | (x, b) :: m, a => if x = a then some b else memReadByte m a

/-- Put a byte at an address, keeping the addresses rising. -/
def memWriteByte : Memory → Nat → Byte → Memory
  | [], a, v => [(a, v)]
  | (x, b) :: m, a, v =>
    if a < x then (a, v) :: (x, b) :: m
    else if a = x then (a, v) :: m
    else (x, b) :: memWriteByte m a v

/-- `MemRead(space, addr, n)`: `n` bytes from `addr` on, in ascending address order (rule R61). -/
def memRead (m : Memory) (addr : Nat) : Nat → Option (List Byte)
  | 0 => some []
  | n + 1 =>
    match memReadByte m addr, memRead m (addr + 1) n with
    | some b, some bs => some (b :: bs)
    | _, _ => none

/-- `MemWrite(space, addr, n, v)`: the bytes `v` from `addr` on, in ascending address order (rule R62). -/
def memWrite (m : Memory) (addr : Nat) : List Byte → Memory
  | [] => m
  | b :: bs => memWrite (memWriteByte m addr b) (addr + 1) bs

/-! ## The pixel cache (42_pixel_cache.md) -/

/-- `hash(p)`: the slot index of a pixel (rule R191). -/
def hash (p : Pixel) : Slot :=
  BitVec.ofNat 6 (3 * p.r.toNat + 5 * p.g.toNat + 7 * p.b.toNat + 11 * p.a.toNat)

/-- `CACHE.lookup(i)` (rule R192). -/
def cacheLookup (cache : Cache) (i : Slot) : Pixel := cache[i.toNat]'i.isLt

/-- `CACHE.store(i, p)` (rule R193): the slot is overwritten whole, whatever it held (rule R194). -/
def cacheStore (cache : Cache) (i : Slot) (p : Pixel) : Cache := cache.set i.toNat p i.isLt

/-- The cache of a call reset: 64 slots (0,0,0,0) (rule R196). -/
def cacheReset : Cache := Vector.replicate 64 zeroPixel

/-! ## The reader RD (40_byte_stream.md rules R131 to R135) -/

/-- An answer on the source port (rule R131). -/
inductive SrcAnswer where
  /-- `data(n, bytes)`, `n >= 1`: a first byte and the others, with the source as it is afterwards. -/
  | data (first : Byte) (others : List Byte) (rest : Source)
  /-- `end`. -/
  | ended
  /-- `fail`. -/
  | fail
  /-- No answer yet. -/
  | wait

/-- A request for up to `CHUNK` bytes (rules R131 and R132). A data answer carries at least one byte and at most
`CHUNK = readAhead + 1`; it may carry fewer without that meaning the end. -/
def Source.request (readAhead : Nat) (q : Source) : SrcAnswer :=
  match q.bytes with
  | [] =>
    match q.tail with
    | .silent => .wait
    | .ended => .ended
    | .failed => .fail
  | b :: bs =>
    let more := min readAhead (q.cuts.headD readAhead)
    .data b (bs.take more) { q with bytes := bs.drop more, cuts := q.cuts.tail }

/-- What `RD.read_u8` comes to (rule R133). -/
inductive ReadOutcome where
  /-- A byte. -/
  | byte (b : Byte)
  /-- The source is at its end: `Truncation`. -/
  | ended
  /-- The source failed: `IoError(source)`. -/
  | failed
  /-- The source has not answered: the read waits (rule R130). -/
  | waiting
deriving DecidableEq, Repr

/-- The state after DEC takes the next unread byte of RD's buffer (rule R133). -/
def State.takeByte (s : State) : State :=
  s.withDec { s.dec with rd := { s.dec.rd with pos := s.dec.rd.pos + 1 }, spos := s.dec.spos + 1 }

/-- `RD.fill` (rule R132), when the buffer is used up, and then the byte `RD.read_u8` wants (rule R133). -/
def fillAndRead (s : State) : ReadOutcome × State :=
  match s.src.request s.par.readAhead with
  | .data b bs rest =>
    (.byte b, { s.withDec { s.dec with rd := { s.dec.rd with buf := b :: bs, pos := 0 } } with src := rest }.takeByte)
  | .ended => (.ended, s.withDec { s.dec with rd := { s.dec.rd with buf := [], pos := 0, eof := true } })
  | .fail => (.failed, s.withDec { s.dec with rd := { s.dec.rd with err := true } })
  | .wait => (.waiting, s)

/-- `RD.read_u8` (rule R133). An unread byte of the buffer is handed over at once; a used-up buffer is refilled unless
the end or a failure was met before, after which RD makes no more requests (rule R132). -/
def readU8 (s : State) : ReadOutcome × State :=
  if s.dec.rd.buf.drop s.dec.rd.pos = [] ∧ s.dec.rd.eof = false ∧ s.dec.rd.err = false then fillAndRead s
  else if s.dec.rd.err then (.failed, s)
  else if s.dec.rd.eof then (.ended, s)
  else (.byte (s.dec.rd.buf.getD s.dec.rd.pos 0#8), s.takeByte)

/-! ## The writer WR (40_byte_stream.md rules R136 to R140) -/

/-- What a write comes to. -/
inductive WriteOutcome where
  /-- Every byte was taken. -/
  | ok
  /-- The sink failed: `IoError(sink)`. -/
  | failed
  /-- The sink has not answered: the write waits (rule R130). -/
  | waiting
deriving DecidableEq, Repr

/-- `WR.drain` (rule R137): offer the buffered bytes to the sink. An `ok` appends all of them to `SINK` and empties the
buffer. A `fail` sets `WR.ERR` and leaves the buffer. What the sink has taken of an offer it fails no rule says (R136 and
R137 are silent, 93_implementation_defined.md U9 leaves it open): it has the first `kept` bytes, a number of the port's
plan that may be anything (DESIGN CHOICE, assumption log 7). After a failure WR offers nothing more. -/
def drain (s : State) : WriteOutcome × State :=
  if s.enc.wr.buf = [] then (.ok, s)
  else if s.enc.wr.err then (.failed, s)
  else
    match s.sink.grants with
    | none =>
      (.ok, { s.withEnc { s.enc with wr := { s.enc.wr with buf := [] } } with
        sink := { s.sink with bytes := s.sink.bytes ++ s.enc.wr.buf } })
    | some (n + 1) =>
      (.ok, { s.withEnc { s.enc with wr := { s.enc.wr with buf := [] } } with
        sink := { s.sink with bytes := s.sink.bytes ++ s.enc.wr.buf, grants := some n } })
    | some 0 =>
      match s.sink.tail with
      | .silent => (.waiting, s)
      | .failed kept =>
        (.failed, { s.withEnc { s.enc with wr := { s.enc.wr with err := true } } with
          sink := { s.sink with bytes := s.sink.bytes ++ s.enc.wr.buf.take kept } })

/-- Drain a full buffer. -/
def drainIfFull (s : State) : WriteOutcome × State :=
  if s.par.chunk ≤ s.enc.wr.buf.length then drain s else (.ok, s)

/-- The state after WR takes a byte into its buffer (rule R138). -/
def State.putByte (s : State) (b : Byte) : State :=
  s.withEnc { s.enc with
    wr := { s.enc.wr with buf := s.enc.wr.buf ++ [b] }, epos := s.enc.epos + 1, sent := s.enc.sent + 1 }

/-- `WR.write_u8(b)` (rule R138). -/
def writeU8 (b : Byte) (s : State) : WriteOutcome × State :=
  if s.enc.wr.err then (.failed, s) else drainIfFull (s.putByte b)

/-- `emit(b0, b1, ...)` (43_encoder.md rule R215): the bytes in order, up to the first that fails or waits. -/
def writeBytes : List Byte → State → WriteOutcome × State
  | [], s => (.ok, s)
  | b :: bs, s =>
    match writeU8 b s with
    | (.ok, s') => writeBytes bs s'
    | (.failed, s') => (.failed, s')
    | (.waiting, s') => (.waiting, s')

/-- `WR.flush` (rule R140). -/
def flush (s : State) : WriteOutcome × State :=
  if s.enc.wr.err then (.failed, s) else drain s

/-! ## The pixel output of DEC (44_decoder.md rules R270 to R276) -/

/-- How many bytes of a pixel `out` writes (rule R275). -/
def outWidth (och : Byte) : Nat := if och = 4#8 then 4 else 3

/-- The bytes of a pixel in a buffer of that many channels: R, G, B and, of four, A (20_memory.md rule R63). -/
def pixelBytes (p : Pixel) (width : Nat) : List Byte :=
  if width = 4 then [p.r, p.g, p.b, p.a] else [p.r, p.g, p.b]

/-- `out(p)` (rule R275). -/
def outPixel (p : Pixel) (s : State) : State :=
  let w := outWidth s.dec.och
  { s.withDec { s.dec with wcur := s.dec.wcur + 1 } with
    pixout := memWrite s.pixout (s.dec.wcur * w) (pixelBytes p w) }

/-- `out(p)` repeated (rule R276). -/
def outPixels (p : Pixel) : Nat → State → State
  | 0, s => s
  | n + 1, s => outPixels p n (outPixel p s)

/-- The alpha policy of 3-channel streams (rule R270). -/
def alphaPolicy (s : State) (p : Pixel) : Pixel :=
  if s.dec.hdr.ch = 3#8 ∧ s.par.alpha3 = .force then { p with a := 255#8 } else p

/-- The cache update of a token (rule R271): the store is unconditional for the tokens that store. -/
def storeIf (store : Bool) (p : Pixel) (cache : Cache) : Cache :=
  if store then cacheStore cache (hash p) p else cache

/-- The end of the token phase (rule R273). -/
def endBody (s : State) : State :=
  if s.dec.wcur = s.dec.npix then s.withDec { s.dec with phase := .trailer } else s

/-- The token step from the resolved pixel `p`, the store flag and the count `k` on (rule R280): alpha policy, store,
`PREV`, `min(k, NPIX - WCUR)` pixels out, and the end of the phase. Its precondition is that rule's. -/
def tokenStep (p : Pixel) (store : Bool) (k : Nat) (s : State) : Result :=
  if s.dec.phase = .body ∧ s.dec.wcur < s.dec.npix then
    let q := alphaPolicy s p
    let s1 := s.withDec { s.dec with cache := storeIf store q s.dec.cache, prev := q }
    .next (endBody (outPixels q (min k (s.dec.npix - s.dec.wcur)) s1))
  else .fault .tokenOutsideBody

/-! ## The call resets (10_state.md rule R38) and the host's actions on a call -/

/-- ENC's call reset (rules R38, R351): every register at its value at call start. `ENC.NPIX`, which the table does not
give, is free until `enc_start` computes it. `SINK` starts empty for the call (20_memory.md rule R65). -/
def callResetEnc (s : State) : State :=
  { s with
    enc :=
      { cfg := s.enc.cfg, phase := .header, status := ⟨true, 0#3, 0#4⟩, prev := prevInit, run := 0#6, pix := 0,
        npix := freeNat s.fresh 0, epos := 0, cache := cacheReset, wr := ⟨[], false⟩, sent := 0 }
    sink := { s.sink with bytes := [] }
    fresh := s.fresh + 1 }

/-- DEC's call reset (rules R38, R351). `HDR.*`, `OCH` and `DEC.NPIX` are "unspecified until the header phase ends":
free values. -/
def callResetDec (s : State) : State :=
  { s with
    dec :=
      { req := s.dec.req, hdr := freeHdr s.fresh, och := freeByte s.fresh, phase := .header,
        status := ⟨true, 0#3, 0#4⟩, prev := prevInit, wcur := 0, npix := freeNat s.fresh 0, spos := 0,
        cache := cacheReset, rd := ⟨[], 0, false, false⟩, pend := [] }
    fresh := s.fresh + 1 }

/-- The length in bytes of an image's pixel buffer, on unbounded integers (00_scope.md rule R7). -/
def bufferLength (w h : Word) (ch : Byte) : Nat := w.toNat * h.toNat * ch.toNat

/-- The first usage error of `enc_start`, in the order of 43_encoder.md rule R211. -/
def encUsageError (c : Cfg) (pixbufMax : Nat) : Option Err :=
  if c.width = 0#32 ∨ c.height = 0#32 then some .usageDimensions
  else if c.ch ≠ 3#8 ∧ c.ch ≠ 4#8 then some .usageChannels
  else if c.cs ≠ 0#8 ∧ c.cs ≠ 1#8 then some .usageColorspace
  else if bufferLength c.width c.height c.ch > pixbufMax then some .usageSize
  else if c.len ≠ bufferLength c.width c.height c.ch then some .usageLength
  else none

/-- `start` of an encode: the call reset and `enc_start` (rule R211); ignored while busy (60_exceptions.md rule R321). -/
def startEnc (s : State) : State :=
  if s.enc.status.busy then s
  else
    let s1 := callResetEnc s
    match encUsageError s1.enc.cfg s1.par.pixbufMax with
    | some e => raiseEnc e s1
    | none => s1.withEnc { s1.enc with npix := s1.enc.cfg.width.toNat * s1.enc.cfg.height.toNat, phase := .header }

/-- `start` of a decode: the call reset and `dec_start` (44_decoder.md rule R261); ignored while busy (rule R321). -/
def startDec (s : State) : State :=
  if s.dec.status.busy then s
  else
    let s1 := callResetDec s
    if s1.dec.req ≠ 0#8 ∧ s1.dec.req ≠ 3#8 ∧ s1.dec.req ≠ 4#8 then raiseDec .usageReq s1
    else s1.withDec { s1.dec with phase := .header }

/-- ENC with its registers, cache and adapter dead, that is free, and no call in progress (rules R21, R321, R352;
93_implementation_defined.md U10). -/
def deadEnc (s : State) : Enc :=
  { cfg := s.enc.cfg, phase := .idle, status := Status.reset, prev := freePixel s.fresh, run := freeRun s.fresh,
    pix := freeNat s.fresh 0, npix := freeNat s.fresh 1, epos := freeNat s.fresh 2, cache := freeCache s.fresh,
    wr := ⟨freeBytes s.fresh, freeFlag s.fresh 0⟩, sent := 0 }

/-- DEC with its registers, cache and adapter dead, that is free, and no call in progress. -/
def deadDec (s : State) : Dec :=
  { req := s.dec.req, hdr := freeHdr s.fresh, och := freeByte s.fresh, phase := .idle, status := Status.reset,
    prev := freePixel s.fresh, wcur := freeNat s.fresh 0, npix := freeNat s.fresh 1, spos := freeNat s.fresh 2,
    cache := freeCache s.fresh,
    rd := ⟨freeBytes s.fresh, freeNat s.fresh 3, freeFlag s.fresh 0, freeFlag s.fresh 1⟩, pend := [] }

/-- `abort` of the encode (rule R321), from any phase. -/
def abortEnc (s : State) : State := { s.withEnc (deadEnc s) with fresh := s.fresh + 1 }

/-- `abort` of the decode (rule R321), from any phase. -/
def abortDec (s : State) : State := { s.withDec (deadDec s) with fresh := s.fresh + 1 }

/-- Hardware reset (rule R352): `PHASE` IDLE and `STATUS` zero in both engines, every other register free, `CFG.*` and
`REQ` too. What is the host's (memories, ports) stays. -/
def hardReset (s : State) : State :=
  { s with
    enc := { deadEnc s with cfg := freeCfg s.fresh }
    dec := { deadDec { s with fresh := s.fresh + 1 } with req := freeByte s.fresh }
    fresh := s.fresh + 2 }

end Sys2Proof.Machine
end

