-- ==== Sys2Proof/Machine/Operands.lean ====
section
/-! DEFINITION. The operand forms: the biased fields of the tokens (30_encoding.md rule R103) with the arithmetic modulo
256 that applies them (44_decoder.md rules R264 to R269), and the pixel ENC fetches (43_encoder.md rule R212). -/

namespace Sys2Proof.Machine

/-! ## The decoder's operands -/

/-- A DIFF field less its bias, a signed byte -2..1 (rule R103). -/
def diffDelta (f : BitVec 2) : Byte := f.setWidth 8 - diffBias

/-- The green field of LUMA less its bias, a signed byte -32..31 (rule R103). -/
def lumaGreenDelta (f : BitVec 6) : Byte := f.setWidth 8 - lumaGreenBias

/-- A red-relative or blue-relative field of LUMA less its bias, a signed byte -8..7 (rule R103). -/
def lumaRelDelta (f : BitVec 4) : Byte := f.setWidth 8 - lumaRelBias

/-- How many pixels a RUN field stands for, 1..62 (rules R103 and R269). -/
def runLength (n1 : BitVec 6) : Nat := n1.toNat + 1

/-- The pixel of an RGB token: alpha is carried over (rule R264). -/
def rgbPixel (prev : Pixel) (r g b : Byte) : Pixel := ⟨r, g, b, prev.a⟩

/-- The pixel of a DIFF token (rule R267): sums modulo 256, alpha carried over. -/
def diffPixel (prev : Pixel) (dr2 dg2 db2 : BitVec 2) : Pixel :=
  ⟨prev.r + diffDelta dr2, prev.g + diffDelta dg2, prev.b + diffDelta db2, prev.a⟩

/-- The pixel of a LUMA token (rule R268): red and blue move by the green delta and their own relative one, all sums
modulo 256, alpha carried over. -/
def lumaPixel (prev : Pixel) (dg32 : BitVec 6) (drg8 dbg8 : BitVec 4) : Pixel :=
  let dg := lumaGreenDelta dg32
  ⟨prev.r + dg + lumaRelDelta drg8, prev.g + dg, prev.b + dg + lumaRelDelta dbg8, prev.a⟩

/-! ## The encoder's operand -/

/-- A pixel of a buffer's bytes: of three, alpha is 255 (rules R8 and R212). -/
def pixelOfBytes : List Byte → Option Pixel
  | [r, g, b] => some ⟨r, g, b, 255#8⟩
  | [r, g, b, a] => some ⟨r, g, b, a⟩
  | _ => none

/-- What fetching a pixel comes to. -/
inductive PixelFetch where
  /-- The pixel `CUR`. -/
  | pixel (p : Pixel)
  /-- The address is past `CFG.LEN`. -/
  | noAddress
  /-- The host did not supply the bytes. -/
  | notSupplied
  /-- `CFG.CH` is no channel count; ENC refuses such a call at `start` (rule R211). -/
  | noChannels
deriving DecidableEq, Repr

/-- `fetch(ENC.PIX)` (rule R212): `CFG.CH` bytes of `PIXIN` at `ENC.PIX * CFG.CH` (20_memory.md rules R61 and R63). -/
def fetchPixel (s : State) : PixelFetch :=
  let n := s.enc.cfg.ch.toNat
  if s.enc.cfg.len < s.enc.pix * n + n then .noAddress
  else
    match memRead s.pixin (s.enc.pix * n) n with
    | none => .notSupplied
    | some v =>
      match pixelOfBytes v with
      | none => .noChannels
      | some p => .pixel p

end Sys2Proof.Machine
end

