-- ==== Sys2Proof/Machine/Cached.lean ====
section
/-! DEFINITION. The cache token INDEX (44_decoder.md rule R266). -/

namespace Sys2Proof.Machine

/-- `INDEX` (rule R266): the slot's pixel, all four bytes, not stored, one pixel. -/
def execIndex (idx : Slot) (s : State) : Result :=
  tokenStep (cacheLookup s.dec.cache idx) false 1 s

end Sys2Proof.Machine
end

