-- ==== Sys2Proof/Machine/Delta.lean ====
section
/-! DEFINITION. The delta tokens DIFF and LUMA (44_decoder.md rules R267 and R268). -/

namespace Sys2Proof.Machine

/-- `DIFF` (rule R267): three small deltas applied to the previous pixel, stored, one pixel. -/
def execDiff (dr2 dg2 db2 : BitVec 2) (s : State) : Result :=
  tokenStep (diffPixel s.dec.prev dr2 dg2 db2) true 1 s

/-- `LUMA` (rule R268): a green delta and two relative ones applied to the previous pixel, stored, one pixel. -/
def execLuma (dg32 : BitVec 6) (drg8 dbg8 : BitVec 4) (s : State) : Result :=
  tokenStep (lumaPixel s.dec.prev dg32 drg8 dbg8) true 1 s

end Sys2Proof.Machine
end

