-- ==== Sys2Proof/Machine/Raw.lean ====
section
/-! DEFINITION. The raw tokens RGB and RGBA (44_decoder.md rules R264 and R265). -/

namespace Sys2Proof.Machine

/-- `RGB` (rule R264): the colour of the token with the previous alpha, stored, one pixel. -/
def execRgb (r g b : Byte) (s : State) : Result :=
  tokenStep (rgbPixel s.dec.prev r g b) true 1 s

/-- `RGBA` (rule R265): the four bytes of the token, stored, one pixel. -/
def execRgba (r g b a : Byte) (s : State) : Result :=
  tokenStep ⟨r, g, b, a⟩ true 1 s

end Sys2Proof.Machine
end

