-- ==== Sys2Proof/Machine/Records.lean ====
section
/-! DEFINITION. The records HEADER and TRAILER: `read_header` and `read_trailer` (41_header_trailer.md rules R162 and
R166), once their bytes are read. -/

namespace Sys2Proof.Machine

/-- `OCH`: the header's channel count when `REQ` is 0, else `REQ` (44_decoder.md rule R274). -/
def outputChannels (req c : Byte) : Byte := if req = 0#8 then c else req

/-- The first check of `read_header` that fails, in the order of rules R162 and R163. The size check takes the larger of
the recorded and the produced channel count (rule R164). -/
def headerError (pixbufMax : Nat) (req : Byte) (magic w h : Word) (c cs : Byte) : Option Err :=
  if magic ≠ magicWord then some .formatMagic
  else if w = 0#32 then some .formatWidth
  else if h = 0#32 then some .formatHeight
  else if c ≠ 3#8 ∧ c ≠ 4#8 then some .formatChannels
  else if cs ≠ 0#8 ∧ cs ≠ 1#8 then some .formatColorspace
  else if w.toNat * h.toNat * max c.toNat (outputChannels req c).toNat > pixbufMax then some .formatSize
  else none

/-- A header without a defect: `HDR.*`, `OCH` and `DEC.NPIX` are written and the token phase begins (rule R162). The
host then provides a new `PIXOUT`, of which no byte is written yet (20_memory.md rules R60 and R62; assumption
log 11). -/
def acceptHeader (w h : Word) (c cs : Byte) (s : State) : State :=
  { s with
    dec := { s.dec with
      hdr := ⟨w, h, c, cs⟩, och := outputChannels s.dec.req c, npix := w.toNat * h.toNat, phase := .body }
    pixout := [] }

/-- `HEADER` (rule R162): the checks in order, then the header registers; a defect is a format error. -/
def execHeader (magic w h : Word) (c cs : Byte) (s : State) : Result :=
  if s.dec.phase = .header then
    match headerError s.par.pixbufMax s.dec.req magic w h c cs with
    | some e => .next (raiseDec e s)
    | none => .next (acceptHeader w h c cs s)
  else .fault .headerOutsideHeader

/-- `TRAILER` (rule R166): the sentinel ends the call, any other eight bytes are a corruption error. -/
def execTrailer (t : BitVec 64) (s : State) : Result :=
  if s.dec.phase = .trailer then
    if t = trailerWord then .next (finishDec s) else .next (raiseDec .corruptionTrailer s)
  else .fault .trailerOutsideTrailer

end Sys2Proof.Machine
end

