-- ==== Sys2Proof/Machine/Run.lean ====
section
/-! DEFINITION. The run token RUN (44_decoder.md rule R269). -/

namespace Sys2Proof.Machine

/-- `RUN` (rule R269): the previous pixel, not stored, `n1 + 1` times. -/
def execRun (n1 : BitVec 6) (s : State) : Result :=
  tokenStep s.dec.prev false (runLength n1) s

end Sys2Proof.Machine
end

