-- ==== Sys2Proof/Machine/Dispatch.lean ====
section
/-! DEFINITION. Which meaning an instruction has (44_decoder.md rule R263: a closed enumeration, matched exhaustively). -/

namespace Sys2Proof.Machine

def exec (i : Instr) (s : State) : Host.Outcome State Fault Refusal :=
  match i with
  | .rgb r g b => Sys2Proof.Machine.execRgb r g b s
  | .rgba r g b a => Sys2Proof.Machine.execRgba r g b a s
  | .index idx => Sys2Proof.Machine.execIndex idx s
  | .diff dr2 dg2 db2 => Sys2Proof.Machine.execDiff dr2 dg2 db2 s
  | .luma dg32 drg8 dbg8 => Sys2Proof.Machine.execLuma dg32 drg8 dbg8 s
  | .run n1 => Sys2Proof.Machine.execRun n1 s
  | .header magic w h c cs => Sys2Proof.Machine.execHeader magic w h c cs s
  | .trailer t => Sys2Proof.Machine.execTrailer t s

end Sys2Proof.Machine
end

