-- ==== Sys2Proof/Machine/Flags.lean ====
section
/-! DEFINITION. The condition signals of the encoder's selection mux (43_encoder.md rule R213), the only flags the
hardware computes; they are held nowhere between steps (10_state.md rule R36). -/

namespace Sys2Proof.Machine

/-- The signals of one pixel step (rule R213). -/
structure Signals where
  /-- `CUR` equals `PREV`, all four channels. -/
  eqPrev : Bool
  /-- `idx`, the slot of `CUR`. -/
  idx : Slot
  /-- The slot of `CUR` holds `CUR`, all four bytes. -/
  hit : Bool
  /-- The alphas agree. -/
  aSame : Bool
  /-- `dr`, the red difference modulo 256. -/
  dr : Byte
  /-- `dg`, the green difference modulo 256. -/
  dg : Byte
  /-- `db`, the blue difference modulo 256. -/
  db : Byte
  /-- Every difference is in the small range. -/
  diffOk : Bool
  /-- `drg`, the red difference less the green one, modulo 256. -/
  drg : Byte
  /-- `dbg`, the blue difference less the green one, modulo 256. -/
  dbg : Byte
  /-- The green and the relative differences are in the luma ranges. -/
  lumaOk : Bool
deriving DecidableEq, Repr

/-- A wrapped difference lies in the small range: `(d + 2) mod 256 <= 3` (rule R213). -/
def inDiffRange (d : Byte) : Bool := decide ((d + diffBias).toNat ≤ 3)

/-- A wrapped green difference lies in the luma range: `(dg + 32) mod 256 <= 63` (rule R213). -/
def inLumaGreenRange (d : Byte) : Bool := decide ((d + lumaGreenBias).toNat ≤ 63)

/-- A wrapped relative difference lies in the luma range: `(x + 8) mod 256 <= 15` (rule R213). -/
def inLumaRelRange (x : Byte) : Bool := decide ((x + lumaRelBias).toNat ≤ 15)

/-- `eq_prev` (rule R213). -/
def eqPrevSignal (prev cur : Pixel) : Bool := decide (cur = prev)

/-- `hit` (rule R213): one slot is looked at and all four bytes compared (42_pixel_cache.md rules R197 and R198). -/
def hitSignal (cache : Cache) (cur : Pixel) : Bool := decide (cacheLookup cache (hash cur) = cur)

/-- `diff_ok` (rule R213). -/
def diffOkSignal (dr dg db : Byte) : Bool := inDiffRange dr && inDiffRange dg && inDiffRange db

/-- `luma_ok` (rule R213). -/
def lumaOkSignal (dg drg dbg : Byte) : Bool := inLumaGreenRange dg && inLumaRelRange drg && inLumaRelRange dbg

/-- All signals, from `CUR`, `PREV` and `CACHE` as they stand at the start of the step (rule R213). -/
def signals (prev : Pixel) (cache : Cache) (cur : Pixel) : Signals :=
  let dr := cur.r - prev.r
  let dg := cur.g - prev.g
  let db := cur.b - prev.b
  { eqPrev := eqPrevSignal prev cur
    idx := hash cur
    hit := hitSignal cache cur
    aSame := decide (cur.a = prev.a)
    dr := dr
    dg := dg
    db := db
    diffOk := diffOkSignal dr dg db
    drg := dr - dg
    dbg := db - dg
    lumaOk := lumaOkSignal dg (dr - dg) (db - dg) }

end Sys2Proof.Machine
end

