-- ==== Sys2Proof/Machine/Encoder.lean ====
section
/-! DEFINITION. The encoder engine (43_encoder.md): which tokens a pixel gives, and the steps of ENC in its three busy
phases. A token is emitted as the bytes the encoder of Decode.lean gives it. -/

namespace Sys2Proof.Machine

/-! ## Tokens of a pixel -/

/-- The token of a pixel that does not extend a run, in the priority order of rule R214 (rules R219 to R223). -/
def chooseToken (g : Signals) (cur : Pixel) : Instr :=
  if g.hit then .index g.idx
  else if g.aSame && g.diffOk then
    .diff ((g.dr + diffBias).setWidth 2) ((g.dg + diffBias).setWidth 2) ((g.db + diffBias).setWidth 2)
  else if g.aSame && g.lumaOk then
    .luma ((g.dg + lumaGreenBias).setWidth 6) ((g.drg + lumaRelBias).setWidth 4) ((g.dbg + lumaRelBias).setWidth 4)
  else if g.aSame then .rgb cur.r cur.g cur.b
  else .rgba cur.r cur.g cur.b cur.a

/-- The RUN token of a run of `n` pixels (rules R217, R218 and R225). -/
def runToken (n : BitVec 6) : Instr := .run (n - 1#6)

/-- The token that flushes a run counter: none for an empty run (rules R218 and R225). -/
def flushRun (n : BitVec 6) : List Instr := if n = 0#6 then [] else [runToken n]

/-- What a pixel step gives: its tokens in order, and ENC's registers and cache afterwards. -/
structure PixelEffect where
  tokens : List Instr
  prev : Pixel
  run : BitVec 6
  cache : Cache
deriving DecidableEq, Repr

/-- A pixel equal to the previous one: the run grows, and at the cap is emitted (rules R216 and R217). -/
def extendRun (prev : Pixel) (run : BitVec 6) (cache : Cache) : PixelEffect :=
  if run + 1#6 = runMax then ⟨[runToken runMax], prev, 0#6, cache⟩ else ⟨[], prev, run + 1#6, cache⟩

/-- Any other pixel: the run is flushed first, then the pixel's own token; the cache is written on a miss (rules R218
to R224, 70_reset_and_hazards.md rule R358). -/
def emitPixel (run : BitVec 6) (cache : Cache) (g : Signals) (cur : Pixel) : PixelEffect :=
  ⟨flushRun run ++ [chooseToken g cur], cur, 0#6, if g.hit then cache else cacheStore cache g.idx cur⟩

/-- One pixel, the end of the buffer aside (rule R230). -/
def pixelEffect (prev : Pixel) (run : BitVec 6) (cache : Cache) (cur : Pixel) : PixelEffect :=
  let g := signals prev cache cur
  if g.eqPrev then extendRun prev run cache else emitPixel run cache g cur

/-- The end of the buffer: a trailing partial run is flushed (rule R225). -/
def endEffect (f : PixelEffect) : PixelEffect :=
  { f with tokens := f.tokens ++ flushRun f.run, run := 0#6 }

/-- One pixel, the last of the buffer or not (rules R225 and R230). -/
def pixelEffectAt (last : Bool) (prev : Pixel) (run : BitVec 6) (cache : Cache) (cur : Pixel) : PixelEffect :=
  if last then endEffect (pixelEffect prev run cache cur) else pixelEffect prev run cache cur

/-! ## The steps of ENC -/

/-- Hand the bytes of a step to WR (rule R215). A step that waited on the sink goes on after the bytes it has handed over
already: first with the offer it waited on, then with the bytes still missing (40_byte_stream.md rule R130; assumption
log 8). -/
def handOver (bytes : List Byte) (s : State) : WriteOutcome × State :=
  match drainIfFull s with
  | (.failed, s1) => (.failed, s1)
  | (.waiting, s1) => (.waiting, s1)
  | (.ok, s1) => writeBytes (bytes.drop s1.enc.sent) s1

/-- Hand bytes to WR and go on with `k` when all are taken. A failure is `IoError(sink)` and leaves the engine's registers
as they were (60_exceptions.md rules R306 and R310). -/
def emitThen (bytes : List Byte) (k : State → Result) (s : State) : Result :=
  match handOver bytes s with
  | (.failed, s1) => .next (raiseEnc .ioSink s1)
  | (.waiting, s1) => .next s1
  | (.ok, s1) => k s1

/-- The header record of the configuration. -/
def headerInstr (c : Cfg) : Instr := .header magicWord c.width c.height c.ch c.cs

/-- `write_header` (41_header_trailer.md rule R161). -/
def encHeaderStep (s : State) : Result :=
  emitThen (encode (headerInstr s.enc.cfg)) (fun t => .next (t.withEnc { t.enc with phase := .body, sent := 0 })) s

/-- ENC after a pixel step whose bytes WR has taken (rules R224, R225 and R230). -/
def commitPixel (f : PixelEffect) (last : Bool) (s : State) : State :=
  s.withEnc { s.enc with
    prev := f.prev, run := f.run, cache := f.cache, pix := s.enc.pix + 1, sent := 0,
    phase := if last then .trailer else s.enc.phase }

/-- The pixel ENC processes next is the last one. -/
def Enc.atLast (e : Enc) : Bool := decide (e.pix + 1 = e.npix)

/-- `enc_step` (rule R230). -/
def encPixelStep (s : State) : Result :=
  if s.enc.pix < s.enc.npix then
    match fetchPixel s with
    | .noAddress => .fault .pixinAddress
    | .notSupplied => .refused .pixinNotSupplied
    | .noChannels => .fault .pixelOutsideBody
    | .pixel cur =>
      let f := pixelEffectAt s.enc.atLast s.enc.prev s.enc.run s.enc.cache cur
      emitThen (encodeAll f.tokens) (fun t => .next (commitPixel f s.enc.atLast t)) s
  else .fault .pixelOutsideBody

/-- `finish` (rule R226): flush, then DONE. -/
def flushThenFinish (s : State) : Result :=
  match flush s with
  | (.failed, s1) => .next (raiseEnc .ioSink s1)
  | (.waiting, s1) => .next s1
  | (.ok, s1) => .next (finishEnc s1)

/-- `write_trailer` (41_header_trailer.md rule R165) and `finish`. -/
def encTrailerStep (s : State) : Result :=
  emitThen (encode (.trailer trailerWord)) flushThenFinish s

/-- One step of ENC (rule R210). An engine outside a call makes no step (60_exceptions.md rule R310). -/
def encStep (s : State) : Result :=
  match s.enc.phase with
  | .header => encHeaderStep s
  | .body => encPixelStep s
  | .trailer => encTrailerStep s
  | .idle => .next s
  | .done => .next s
  | .failed => .next s

end Sys2Proof.Machine
end

