-- ==== Sys2Proof/Machine/Fetch.lean ====
section
/-! DEFINITION. How DEC takes the bytes of its next token or record from RD (40_byte_stream.md rules R133 and R134;
44_decoder.md rules R263 and R277), and how an instruction is placed where it takes them. -/

namespace Sys2Proof.Machine

/-- Which unit of the stream DEC reads in a phase (10_state.md rule R33). -/
def Phase.record? : Phase → Option Record
  | .header => some .header
  | .body => some .token
  | .trailer => some .trailer
  | .idle => none
  | .done => none
  | .failed => none

/-- The error of a source that ends inside a unit (60_exceptions.md rules R301 and R303). -/
def truncation : Record → Err
  | .header => .truncationHeader
  | .token => .truncationBody
  | .trailer => .truncationTrailer

/-- What reading a unit comes to. -/
inductive Fetched where
  /-- The instruction of the bytes read, and the state after reading them. -/
  | instr (i : Instr) (s : State)
  /-- The source ended or failed: the error, and the state with the bytes read so far consumed (20_memory.md rule R71). -/
  | error (e : Err) (s : State)
  /-- The source has not answered: the state that waits, with the bytes read so far kept in `pend`. -/
  | waiting (s : State)
deriving DecidableEq, Repr

/-- The state with other bytes of the unit in progress. -/
def State.withPend (s : State) (bs : List Byte) : State := s.withDec { s.dec with pend := bs }

/-- Read the unit `k` to its end, having read `bs` of it: one `RD.read_u8` after another until `bytesNeeded` says the
unit is whole or refused. The fuel is the longest unit. -/
def fetchFrom (k : Record) : Nat → List Byte → State → Fetched
  | fuel, bs, s =>
    if bytesNeeded k bs ≤ bs.length then
      match decodeRead k bs with
      | some i => .instr i (s.withPend [])
      | none => .error (truncation k) (s.withPend [])
    else
      match fuel with
      | 0 => .waiting (s.withPend bs)
      | fuel + 1 =>
        match readU8 s with
        | (.byte b, s') => fetchFrom k fuel (bs ++ [b]) s'
        | (.ended, s') => .error (truncation k) (s'.withPend [])
        | (.failed, s') => .error .ioSource (s'.withPend [])
        | (.waiting, s') => .waiting (s'.withPend bs)

/-- Read the unit `k` that stands next in the stream, or go on with the one in progress. -/
def fetch (k : Record) (s : State) : Fetched := fetchFrom k longestInstr s.dec.pend s

/-- The phase in which DEC reads a unit. -/
def recordPhase : Record → Phase
  | .header => .header
  | .token => .body
  | .trailer => .trailer

/-- DEC ready to read the unit `k` as its next step: in the phase of `k`, in a call, with an empty reader and no unit in
progress. A token needs a pixel still to be produced (44_decoder.md rule R280): where there is none, DEC stands as
after the header of a 64 x 1 image of 4 channels. -/
def readyDec (k : Record) (d : Dec) : Dec :=
  let d1 : Dec :=
    { d with
      phase := recordPhase k, status := ⟨true, 0#3, 0#4⟩, rd := ⟨[], 0, false, false⟩, pend := [] }
  match k with
  | .header => d1
  | .trailer => d1
  | .token =>
    if d.wcur < d.npix then d1
    else { d1 with hdr := ⟨64#32, 1#32, 4#8, 0#8⟩, och := 4#8, wcur := 0, npix := 64 }

/-- The state with the bytes of a unit at the front of the source, DEC ready to read it, and the next turn DEC's. -/
def placeInstr (k : Record) (bytes : List Byte) (s : State) : State :=
  { s with
    dec := readyDec k s.dec
    src := { s.src with bytes := bytes ++ s.src.bytes }
    agenda := []
    turn := .dec }

end Sys2Proof.Machine
end

