-- ==== Sys2Proof/Machine/HostActs.lean ====
section
/-! DEFINITION. The host's actions (92_eei_decisions.md D1; 70_reset_and_hazards.md rules R353, R354 and R361) and what
it may read of a call's result (44_decoder.md rule R279). -/

namespace Sys2Proof.Machine

/-- Write `CFG.*`; a write during an encode breaks the host's duty (rule R361). -/
def writeCfg (f : Cfg → Cfg) (s : State) : Result :=
  if s.enc.status.busy then .refused .cfgWrittenWhileBusy
  else .next (s.withEnc { s.enc with cfg := f s.enc.cfg })

/-- Write `REQ`; a write during a decode breaks the host's duty (rule R361). -/
def writeReq (v : Byte) (s : State) : Result :=
  if s.dec.status.busy then .refused .reqWrittenWhileBusy
  else .next (s.withDec { s.dec with req := v })

/-- Put bytes into `PIXIN`; a write during an encode breaks the host's duty (rule R361). -/
def writePixin (addr : Nat) (bytes : List Byte) (s : State) : Result :=
  if s.enc.status.busy then .refused .pixinWrittenWhileBusy
  else .next { s with pixin := memWrite s.pixin addr bytes }

/-- One action of the host. -/
def hostStep (a : HostAct) (s : State) : Result :=
  match a with
  | .startEnc => .next (startEnc s)
  | .startDec => .next (startDec s)
  | .abortEnc => .next (abortEnc s)
  | .abortDec => .next (abortDec s)
  | .hardReset => .next (hardReset s)
  | .cfgWidth v => writeCfg (fun c => { c with width := v }) s
  | .cfgHeight v => writeCfg (fun c => { c with height := v }) s
  | .cfgCh v => writeCfg (fun c => { c with ch := v }) s
  | .cfgCs v => writeCfg (fun c => { c with cs := v }) s
  | .cfgLen v => writeCfg (fun c => { c with len := v }) s
  | .req v => writeReq v s
  | .pixin addr bytes => writePixin addr bytes s
  | .source src => .next { s with src := src }
  | .feed bytes tail => .next { s with src := { s.src with bytes := s.src.bytes ++ bytes, tail := tail } }
  | .sink grants tail => .next { s with sink := { s.sink with grants := grants, tail := tail } }

/-- The returned Image (rule R279): width, height, the channel count of the returned buffer, the colour-space tag and
the pixel bytes. -/
structure Image where
  width : Word
  height : Word
  channels : Byte
  colorspace : Byte
  pixels : List Byte
deriving DecidableEq, Repr

/-- The result of a decode: an Image when the call is DONE and none otherwise, "a fully valid Image or fails with no
Image" (rules R279 and R311). It is the only view the host has of `PIXOUT`
(93_implementation_defined.md U8). -/
def State.image? (s : State) : Option Image :=
  if s.dec.phase = .done then
    match memRead s.pixout 0 (s.dec.npix * outWidth s.dec.och) with
    | some v => some ⟨s.dec.hdr.width, s.dec.hdr.height, s.dec.och, s.dec.hdr.cs, v⟩
    | none => none
  else none

end Sys2Proof.Machine
end

