-- ==== Sys2Proof/Machine/Step.lean ====
section
/-! DEFINITION. One step of the machine: the host's next action, or a step of one engine (00_scope.md rule R4). -/

namespace Sys2Proof.Machine

/-- One step of DEC: read the unit of its phase and run the instruction it is (44_decoder.md rules R260 and R280). -/
def decStep (s : State) : Host.Outcome State Fault Refusal :=
  match s.dec.phase.record? with
  | none => .next s
  | some k =>
    match fetch k s with
    | .instr i s' => exec i s'
    | .error e s' => .next (raiseDec e s')
    | .waiting s' => .next s'

/-- One step of an engine. -/
def engineStep (g : Engine) (s : State) : Host.Outcome State Fault Refusal :=
  match g with
  | .enc => encStep s
  | .dec => decStep s

/-- The engine that steps when the agenda is empty: of the engines in a call, the one whose turn it is. -/
def State.nextEngine (s : State) : Option Engine :=
  match s.turn, s.enc.phase.inCall, s.dec.phase.inCall with
  | .enc, true, _ => some .enc
  | .enc, false, true => some .dec
  | .dec, _, true => some .dec
  | .dec, true, false => some .enc
  | _, false, false => none

/-- The other engine. -/
def Engine.other : Engine → Engine
  | .enc => .dec
  | .dec => .enc

/-- One step of the machine: the head of the agenda; without an agenda, a step of the engine whose turn it is, the turn
passing to the other; with no call in progress, nothing ("the block does nothing until `start`",
70_reset_and_hazards.md rule R352). -/
def step (s : State) : Host.Outcome State Fault Refusal :=
  match s.agenda with
  | .host a :: rest => hostStep a { s with agenda := rest }
  | .engine g :: rest => engineStep g { s with agenda := rest }
  | [] =>
    match s.nextEngine with
    | some g => engineStep g { s with turn := g.other }
    | none => .next s

/-- The state with a table word where DEC takes its next instruction (assumption log 10). -/
def State.withFetchWord (s : State) (nbits w : Nat) : State :=
  placeInstr (tableRecord nbits w) (tableBytes nbits w) s

end Sys2Proof.Machine
end

