-- ==== Sys2Proof/Safety.lean ====
section
/-! DEFINITION. The terms the statements use: what a run consumes and emits, sequences of tokens on both sides, and the
invariant of the machine. -/

namespace Sys2Proof.Machine

/-! ## What is consumed and what is emitted -/

/-- The bytes of the stream DEC has not taken yet, in order: those RD holds and those of the source (40_byte_stream.md
rule R145: the abstract view of RD). -/
def State.unread (s : State) : List Byte := s.dec.rd.buf.drop s.dec.rd.pos ++ s.src.bytes

/-- The bytes ENC has handed to WR in this call, in order: those the sink has and those WR holds (rule R145: the abstract
view of WR). -/
def State.emitted (s : State) : List Byte := s.sink.bytes ++ s.enc.wr.buf

/-- The next step is one of DEC. -/
abbrev State.decTurn (s : State) : Prop := s.agenda = [] ∧ s.turn = .dec

/-- The next step is one of ENC. -/
abbrev State.encTurn (s : State) : Prop := s.agenda = [] ∧ s.turn = .enc

/-- DEC can run a token: the precondition of 44_decoder.md rule R280. -/
abbrev State.tokenReady (s : State) : Prop := s.dec.phase = .body ∧ s.dec.wcur < s.dec.npix

/-- The alpha policy of rule R270 is in force: a 3-channel stream, and `ALPHA3 = FORCE`. -/
abbrev State.forcesAlpha (s : State) : Prop := s.dec.hdr.ch = 3#8 ∧ s.par.alpha3 = .force

/-- RD has met neither the end nor a failure of the source. -/
abbrev State.readerOpen (s : State) : Prop := s.dec.rd.eof = false ∧ s.dec.rd.err = false

/-- The sink answers every offer `ok`, and has so far. -/
abbrev State.sinkOpen (s : State) : Prop := s.sink.grants = none ∧ s.enc.wr.err = false

/-! ## Tokens -/

/-- The slot index of 42_pixel_cache.md rule R191 as a number. -/
def slotNumber (p : Pixel) : Nat := (3 * p.r.toNat + 5 * p.g.toNat + 7 * p.b.toNat + 11 * p.a.toNat) % 64

/-- The tokens that write the cache (rule R271). -/
def tokenStores : Instr → Bool
  | .rgb _ _ _ => true
  | .rgba _ _ _ _ => true
  | .index _ => false
  | .diff _ _ _ => true
  | .luma _ _ _ => true
  | .run _ => false
  | .header _ _ _ _ _ => false
  | .trailer _ => false

/-- How many pixels a token stands for (rules R264 to R269). -/
def tokenPixels : Instr → Nat
  | .rgb _ _ _ => 1
  | .rgba _ _ _ _ => 1
  | .index _ => 1
  | .diff _ _ _ => 1
  | .luma _ _ _ => 1
  | .run n1 => n1.toNat + 1
  | .header _ _ _ _ _ => 0
  | .trailer _ => 0

/-- How many pixels a token produces in a state: cut at the last pixel (rule R276). -/
def producedBy (i : Instr) (s : State) : Nat := min (tokenPixels i) (s.dec.npix - s.dec.wcur)

/-- Run a sequence of instructions one after another, stopping at the first that stops. -/
def runTokens : List Instr → State → Result
  | [], s => .next s
  | i :: is, s =>
    match exec i s with
    | .next t => runTokens is t
    | .fault f => .fault f
    | .refused r => .refused r

/-- The tokens ENC emits for a sequence of pixels, from a previous pixel, a run counter and a cache on, the last pixel
being the last of the buffer (43_encoder.md rule R230, step after step). -/
def tokensFrom (prev : Pixel) (run : BitVec 6) (cache : Cache) : List Pixel → List Instr
  | [] => []
  | cur :: rest =>
    let f := pixelEffectAt rest.isEmpty prev run cache cur
    f.tokens ++ tokensFrom f.prev f.run f.cache rest

/-- The opcode stream of an image: the tokens from the values of a call reset (10_state.md rule R38). -/
def tokensOf (ps : List Pixel) : List Instr := tokensFrom prevInit 0#6 cacheReset ps

/-- A pixel as 3-channel mode holds it. -/
abbrev opaquePixel (p : Pixel) : Prop := p.a = 255#8

/-- A slot as 3-channel mode holds it: alpha 255, or never stored (42_pixel_cache.md rule R197). -/
abbrev opaqueSlot (p : Pixel) : Prop := p.a = 255#8 ∨ p = zeroPixel

/-! ## What a token did -/

/-- The state after a token that resolved to `p` (after the alpha policy) and produced `n` pixels (44_decoder.md rule
R280): `PREV`, every cache slot, the write cursor, the phase, and the bytes of the pixels in `PIXOUT`. -/
structure TokenResult (s : State) (p : Pixel) (stores : Bool) (n : Nat) (t : State) : Prop where
  prev : t.dec.prev = p
  cache : ∀ i : Slot, cacheLookup t.dec.cache i =
    if stores = true ∧ i.toNat = slotNumber p then p else cacheLookup s.dec.cache i
  wcur : t.dec.wcur = s.dec.wcur + n
  phase : t.dec.phase = if s.dec.wcur + n = s.dec.npix then .trailer else .body
  pixels : ∀ j < n, ∀ c < outWidth s.dec.och,
    memReadByte t.pixout ((s.dec.wcur + j) * outWidth s.dec.och + c) = (pixelBytes p (outWidth s.dec.och))[c]?

/-- A byte of an alpha channel under the alpha policy (rule R270). -/
def policedAlpha (s : State) (a : Byte) : Byte := if s.forcesAlpha then 255#8 else a

/-! ## What the decoder sees of a fetch -/

/-- The instruction or the error of a fetch, the bytes still unread, `DEC.SPOS` and the bytes of the unit in progress:
everything of a fetch but how RD and the source port hold the bytes. -/
structure FetchView where
  instr : Option Instr
  error : Option Err
  unread : List Byte
  spos : Nat
  pend : List Byte
deriving DecidableEq, Repr

/-- The view of a fetch. -/
def fetchView : Fetched → FetchView
  | .instr i t => ⟨some i, none, t.unread, t.dec.spos, t.dec.pend⟩
  | .error e t => ⟨none, some e, t.unread, t.dec.spos, t.dec.pend⟩
  | .waiting t => ⟨none, none, t.unread, t.dec.spos, t.dec.pend⟩

/-- The state with more bytes in the source. -/
def State.feedSource (s : State) (bytes : List Byte) (tail : SrcTail) : State :=
  { s with src := { s.src with bytes := s.src.bytes ++ bytes, tail := tail } }

/-- The fields of a HEADER before its last are ones the decoder accepts, so that it reads the record to its end
(41_header_trailer.md rule R162). -/
abbrev readToTheEnd : Instr → Prop
  | .header magic w h c _ => magic = magicWord ∧ w ≠ 0#32 ∧ h ≠ 0#32 ∧ (c = 3#8 ∨ c = 4#8)
  | _ => True

/-- DEC is about to read the unit `k` from its first byte, and RD is open. -/
abbrev State.readsNext (s : State) (k : Record) : Prop :=
  s.decTurn ∧ s.dec.phase = recordPhase k ∧ s.dec.pend = [] ∧ s.readerOpen

/-- The bytes of a header end before the first field that is refused, or the record, is whole: they are fewer than the
magic's four, whatever they are, or a first part of a header whose fields before the last are accepted ones
(60_exceptions.md rule R309, item 2). -/
abbrev headerCutShort (bytes : List Byte) : Prop :=
  bytes.length < 4 ∨
    bytes.length < 14 ∧ ∃ w h c cs, readToTheEnd (.header magicWord w h c cs) ∧
      bytes <+: encode (.header magicWord w h c cs)

/-- The bytes of a unit end before the unit is whole, and before a field of it is refused. -/
abbrev cutShort : Record → List Byte → Prop
  | .header, bytes => headerCutShort bytes
  | .token, bytes => ∃ e, decode .token bytes = .error e
  | .trailer, bytes => ∃ e, decode .trailer bytes = .error e

/-- ENC is about to take a step, or to go on with one that waited, in the phase `ph`. -/
abbrev State.writesNext (s : State) (ph : Phase) : Prop := s.encTurn ∧ s.enc.phase = ph

/-- The bytes of ENC's step in progress: the header, the tokens of the pixel that stands next, or the trailer
(43_encoder.md rule R210). None when ENC is in no call or cannot fetch a pixel. -/
def State.stepBytes? (s : State) : Option (List Byte) :=
  match s.enc.phase with
  | .header => some (encode (headerInstr s.enc.cfg))
  | .body =>
    if s.enc.pix < s.enc.npix then
      match fetchPixel s with
      | .pixel cur =>
        some (encodeAll (pixelEffectAt s.enc.atLast s.enc.prev s.enc.run s.enc.cache cur).tokens)
      | .noAddress => none
      | .notSupplied => none
      | .noChannels => none
    else none
  | .trailer => some (encode (.trailer trailerWord))
  | .idle => none
  | .done => none
  | .failed => none

/-- A step that has `left` still to hand over makes more than `n` offers to the sink: WR offers whole chunks as they fill
(40_byte_stream.md rule R138), and in the trailer phase what remains as well (rule R140). -/
abbrev State.offersMore (s : State) (left : List Byte) (n : Nat) : Prop :=
  (n + 1) * s.par.chunk ≤ (s.enc.wr.buf ++ left).length ∨
    s.enc.phase = .trailer ∧ n * s.par.chunk < (s.enc.wr.buf ++ left).length

/-- The registers a failing step must leave alone (60_exceptions.md rule R310). -/
abbrev State.sameRegisters (s t : State) : Prop :=
  t.enc.prev = s.enc.prev ∧ t.enc.cache = s.enc.cache ∧ t.enc.run = s.enc.run ∧ t.enc.pix = s.enc.pix ∧
  t.dec.prev = s.dec.prev ∧ t.dec.cache = s.dec.cache ∧ t.dec.wcur = s.dec.wcur

/-! ## The invariant -/

/-- `STATUS` agrees with `PHASE` (10_state.md rule R34): BUSY is 1 exactly in a call, CODE and CAUSE are 0 but after an
error, and after an error they are the error's (60_exceptions.md rule R301). -/
structure StatusInv (ph : Phase) (st : Status) : Prop where
  busy : st.busy = ph.inCall
  clean : ph ≠ .failed → st.code = 0#3 ∧ st.cause = 0#4
  failed : ph = .failed → ∃ e : Err, st = e.status

/-- What holds of ENC between steps. -/
structure EncInv (s : State) : Prop where
  status : StatusInv s.enc.phase s.enc.status
  /-- In a call the configuration passed the checks of rule R211. -/
  cfg : s.enc.phase.inCall = true → encUsageError s.enc.cfg s.par.pixbufMax = none
  /-- `ENC.NPIX` (rule R26). -/
  npix : s.enc.phase.inCall = true → s.enc.npix = s.enc.cfg.width.toNat * s.enc.cfg.height.toNat
  /-- `ENC.PIX` starts at 0 and is below `ENC.NPIX` while pixels are left (rule R26). -/
  atHeader : s.enc.phase = .header → s.enc.pix = 0 ∧ s.enc.run = 0#6
  atBody : s.enc.phase = .body → s.enc.pix < s.enc.npix
  atTrailer : s.enc.phase = .trailer → s.enc.pix = s.enc.npix ∧ s.enc.run = 0#6
  /-- `ENC.RUN` is at most 61 between steps (rules R25 and R227). -/
  run : s.enc.phase.inCall = true → s.enc.run.toNat ≤ 61
  /-- In 3-channel mode `ENC.PREV.a` is 255 and every stored slot has alpha 255 (rules R24 and R197). -/
  prev3 : s.enc.phase.inCall = true → s.enc.cfg.ch = 3#8 → opaquePixel s.enc.prev
  cache3 : s.enc.phase.inCall = true → s.enc.cfg.ch = 3#8 → ∀ i, opaqueSlot (cacheLookup s.enc.cache i)
  /-- WR holds at most `CHUNK` bytes, and has not failed (rules R35 and R137). -/
  writer : s.enc.phase.inCall = true → s.enc.wr.buf.length ≤ s.par.chunk ∧ s.enc.wr.err = false
  /-- `ENC.EPOS` counts the bytes handed to WR (rule R27). -/
  epos : s.enc.phase.inCall = true → s.enc.epos = s.emitted.length

/-- What holds of DEC between steps. -/
structure DecInv (s : State) : Prop where
  status : StatusInv s.dec.phase s.dec.status
  /-- In a call `REQ` is legal (rule R261). -/
  req : s.dec.phase.inCall = true → s.dec.req = 0#8 ∨ s.dec.req = 3#8 ∨ s.dec.req = 4#8
  /-- After the header phase the header registers passed the checks of rule R162. -/
  hdr : s.dec.phase = .body ∨ s.dec.phase = .trailer →
    headerError s.par.pixbufMax s.dec.req magicWord s.dec.hdr.width s.dec.hdr.height s.dec.hdr.ch s.dec.hdr.cs = none
  /-- `OCH` (rule R274). -/
  och : s.dec.phase = .body ∨ s.dec.phase = .trailer →
    s.dec.och = outputChannels s.dec.req s.dec.hdr.ch ∧ (s.dec.och = 3#8 ∨ s.dec.och = 4#8)
  /-- `DEC.NPIX` (rule R29). -/
  npix : s.dec.phase = .body ∨ s.dec.phase = .trailer →
    s.dec.npix = s.dec.hdr.width.toNat * s.dec.hdr.height.toNat
  /-- `DEC.WCUR` (rule R29). -/
  atHeader : s.dec.phase = .header → s.dec.wcur = 0 ∧ s.dec.prev = prevInit ∧ s.dec.cache = cacheReset
  atBody : s.dec.phase = .body → s.dec.wcur < s.dec.npix
  atTrailer : s.dec.phase = .trailer → s.dec.wcur = s.dec.npix
  /-- In a 3-channel stream under `ALPHA3 = FORCE`, `DEC.PREV.a` is 255 and every stored slot has alpha 255 (rules R28
  and R270). -/
  prev3 : s.dec.phase = .body ∨ s.dec.phase = .trailer → s.forcesAlpha → opaquePixel s.dec.prev
  cache3 : s.dec.phase = .body ∨ s.dec.phase = .trailer → s.forcesAlpha → ∀ i, opaqueSlot (cacheLookup s.dec.cache i)
  /-- RD's position and fill count (rule R35): `POS <= LIM <= CHUNK`. In a call neither of its flags is set: the step that
  meets the end or a failure ends the call. -/
  reader : s.dec.phase.inCall = true →
    s.dec.rd.pos ≤ s.dec.rd.buf.length ∧ s.dec.rd.buf.length ≤ s.par.chunk ∧ s.readerOpen

/-- The invariant of the machine. -/
structure State.Inv (s : State) : Prop where
  enc : EncInv s
  dec : DecInv s
  /-- Both memories are in canonical form. -/
  pixin : s.pixin.wf
  pixout : s.pixout.wf

end Sys2Proof.Machine
end

