-- ==== Sys2Proof/Certificates/Slice0/Obligations.lean ====
section
/-! DEFINITION. The statements for the provers. Each docstring says which statement of the spec it formalises. -/

open Sys2Proof Sys2Proof.Machine

/-! ## Encoding -/

/-- 30_encoding.md rule R100: every first byte selects exactly one opcode, by the ranges of the table, and fixes how many
bytes the token takes. -/
def Obligations.FirstByteSelectsToken : Prop :=
  ∀ (t : Byte) (rest : List Byte), 4 ≤ rest.length →
    ∃ i rest', decode .token (t :: rest) = .ok (i, rest') ∧ i.wellFormed = true ∧
      (t.toNat ≤ 0x3F → i = .index (BitVec.ofNat 6 t.toNat) ∧ rest' = rest) ∧
      (0x40 ≤ t.toNat ∧ t.toNat ≤ 0x7F → i.mnemonic = "DIFF" ∧ rest' = rest) ∧
      (0x80 ≤ t.toNat ∧ t.toNat ≤ 0xBF → i.mnemonic = "LUMA" ∧ rest' = rest.drop 1) ∧
      (0xC0 ≤ t.toNat ∧ t.toNat ≤ 0xFD →
        i = .run (BitVec.ofNat 6 (t.toNat - 0xC0)) ∧ tokenPixels i = t.toNat - 0xC0 + 1 ∧ rest' = rest) ∧
      (t.toNat = 0xFE → i.mnemonic = "RGB" ∧ rest' = rest.drop 3) ∧
      (t.toNat = 0xFF → i.mnemonic = "RGBA" ∧ rest' = rest.drop 4)

/-- 30_encoding.md rules R91 to R99: decoding the bytes of a well-formed instruction gives it back, whatever follows. -/
def Obligations.DecodeOfEncode : Prop :=
  ∀ (i : Instr) (rest : List Byte), i.wellFormed = true →
    decode i.record (encode i ++ rest) = .ok (i, rest)

/-- 30_encoding.md rules R100 and R104: what decodes is the encoding of what it decodes to, of the kind asked for; a
token so decoded is well-formed. -/
def Obligations.EncodeOfDecode : Prop :=
  ∀ (k : Record) (bs rest : List Byte) (i : Instr), decode k bs = .ok (i, rest) →
    bs = encode i ++ rest ∧ i.record = k ∧ (k = .token → i.wellFormed = true)

/-- Words written out from the tables of 30_encoding.md decode to the instructions they stand for. -/
def Obligations.SpecWordsDecode : Prop :=
  decode .token [0b11111110#8, 0x64#8, 0x65#8, 0x66#8] = .ok (.rgb 0x64#8 0x65#8 0x66#8, []) ∧
  decode .token [0b11111111#8, 0xC8#8, 0x64#8, 0x32#8, 0x80#8] = .ok (.rgba 0xC8#8 0x64#8 0x32#8 0x80#8, []) ∧
  decode .token [0b00001001#8] = .ok (.index 9#6, []) ∧
  decode .token [0b01110011#8] = .ok (.diff 3#2 0#2 3#2, []) ∧
  decode .token [0b10100000#8, 0b10101000#8] = .ok (.luma 32#6 10#4 8#4, []) ∧
  decode .token [0b11111101#8] = .ok (.run 61#6, []) ∧
  decode .header [0x71#8, 0x6F#8, 0x69#8, 0x66#8, 0#8, 0#8, 1#8, 0#8, 0#8, 1#8, 0#8, 0#8, 4#8, 1#8] =
    .ok (.header magicWord 256#32 65536#32 4#8 1#8, []) ∧
  decode .trailer [0#8, 0#8, 0#8, 0#8, 0#8, 0#8, 0#8, 1#8] = .ok (.trailer trailerWord, [])

/-- 30_encoding.md rules R93, R91, R92 and R104: bytes are rejected only when the unit is cut short; there is no illegal
token. -/
def Obligations.OnlyShortUnitsRejected : Prop :=
  (∀ bs, (∃ e, decode .header bs = .error e) ↔ bs.length < 14) ∧
  (∀ bs, (∃ e, decode .trailer bs = .error e) ↔ bs.length < 8) ∧
  (∃ e, decode .token [] = .error e) ∧
  (∀ t rest, (∃ e, decode .token (t :: rest) = .error e) ↔ (t :: rest).length < tokenLength t)

/-- 20_memory.md rule R67: "a `u32` value `v` occupies four consecutive stream bytes v[31:24], v[23:16], v[15:8], v[7:0]";
40_byte_stream.md rule R134: their value is b0 * 2^24 + b1 * 2^16 + b2 * 2^8 + b3. -/
def Obligations.WordsAreBigEndian : Prop :=
  (∀ b0 b1 b2 b3 : Byte,
    (wordOfBytes b0 b1 b2 b3).toNat = b0.toNat * 2 ^ 24 + b1.toNat * 2 ^ 16 + b2.toNat * 2 ^ 8 + b3.toNat ∧
    bytesOfWord (wordOfBytes b0 b1 b2 b3) = [b0, b1, b2, b3]) ∧
  (∀ v : Word, ∃ b0 b1 b2 b3, bytesOfWord v = [b0, b1, b2, b3] ∧ wordOfBytes b0 b1 b2 b3 = v)

/-! ## The pixel cache -/

/-- 42_pixel_cache.md rule R191: the hash, its value with alpha 255, and with each channel reduced first. -/
def Obligations.HashIsWeightedSum : Prop :=
  ∀ p : Pixel,
    (hash p).toNat = (3 * p.r.toNat + 5 * p.g.toNat + 7 * p.b.toNat + 11 * p.a.toNat) % 64 ∧
    (hash p).toNat =
      (3 * (p.r.toNat % 64) + 5 * (p.g.toNat % 64) + 7 * (p.b.toNat % 64) + 11 * (p.a.toNat % 64)) % 64 ∧
    (p.a = 255#8 → (hash p).toNat = (3 * p.r.toNat + 5 * p.g.toNat + 7 * p.b.toNat + 53) % 64)

/-- 42_pixel_cache.md rules R193 and R194: a store overwrites its slot whole and no other; a later store at the slot wins. -/
def Obligations.CacheStoreThenLookup : Prop :=
  ∀ (cache : Cache) (i j : Slot) (p q : Pixel),
    cacheLookup (cacheStore cache i p) i = p ∧
    (j ≠ i → cacheLookup (cacheStore cache i p) j = cacheLookup cache j) ∧
    cacheStore (cacheStore cache i p) i q = cacheStore cache i q

/-! ## The six tokens -/

/-- 44_decoder.md rule R264: RGB gives the token's colour with the previous alpha (under the alpha policy of rule R270),
stores it and produces one pixel. -/
def Obligations.RgbResult : Prop :=
  ∀ (r g b : Byte) (s : State), s.tokenReady →
    ∃ t, exec (.rgb r g b) s = .next t ∧ TokenResult s ⟨r, g, b, policedAlpha s s.dec.prev.a⟩ true 1 t

/-- 44_decoder.md rule R265: RGBA gives the token's four bytes (alpha under the policy), stores them and produces one
pixel. -/
def Obligations.RgbaResult : Prop :=
  ∀ (r g b a : Byte) (s : State), s.tokenReady →
    ∃ t, exec (.rgba r g b a) s = .next t ∧ TokenResult s ⟨r, g, b, policedAlpha s a⟩ true 1 t

/-- 44_decoder.md rule R266: INDEX gives the slot's pixel (alpha under the policy), does not store and produces one
pixel. -/
def Obligations.IndexResult : Prop :=
  ∀ (idx : Slot) (s : State), s.tokenReady →
    ∃ t, exec (.index idx) s = .next t ∧
      TokenResult s
        { cacheLookup s.dec.cache idx with a := policedAlpha s (cacheLookup s.dec.cache idx).a } false 1 t

/-- 44_decoder.md rule R267: DIFF adds three deltas, each a field less 2, modulo 256, keeps alpha (under the policy),
stores and produces one pixel. -/
def Obligations.DiffResult : Prop :=
  ∀ (dr2 dg2 db2 : BitVec 2) (s : State), s.tokenReady →
    ∃ t p, exec (.diff dr2 dg2 db2) s = .next t ∧ TokenResult s p true 1 t ∧
      (p.r.toNat : Int) = ((s.dec.prev.r.toNat : Int) + dr2.toNat - 2) % 256 ∧
      (p.g.toNat : Int) = ((s.dec.prev.g.toNat : Int) + dg2.toNat - 2) % 256 ∧
      (p.b.toNat : Int) = ((s.dec.prev.b.toNat : Int) + db2.toNat - 2) % 256 ∧
      p.a = policedAlpha s s.dec.prev.a

/-- 44_decoder.md rule R268: LUMA moves green by its field less 32, and red and blue by that and their own fields less 8,
modulo 256, keeps alpha (under the policy), stores and produces one pixel. -/
def Obligations.LumaResult : Prop :=
  ∀ (dg32 : BitVec 6) (drg8 dbg8 : BitVec 4) (s : State), s.tokenReady →
    ∃ t p, exec (.luma dg32 drg8 dbg8) s = .next t ∧ TokenResult s p true 1 t ∧
      (p.g.toNat : Int) = ((s.dec.prev.g.toNat : Int) + ((dg32.toNat : Int) - 32)) % 256 ∧
      (p.r.toNat : Int) = ((s.dec.prev.r.toNat : Int) + ((dg32.toNat : Int) - 32) + drg8.toNat - 8) % 256 ∧
      (p.b.toNat : Int) = ((s.dec.prev.b.toNat : Int) + ((dg32.toNat : Int) - 32) + dbg8.toNat - 8) % 256 ∧
      p.a = policedAlpha s s.dec.prev.a

/-- 44_decoder.md rules R269 and R276: RUN repeats the previous pixel (alpha under the policy) `n1 + 1` times, cut at the
last pixel, and does not store. -/
def Obligations.RunResult : Prop :=
  ∀ (n1 : BitVec 6) (s : State), s.tokenReady →
    ∃ t, exec (.run n1) s = .next t ∧
      TokenResult s { s.dec.prev with a := policedAlpha s s.dec.prev.a } false
        (min (n1.toNat + 1) (s.dec.npix - s.dec.wcur)) t

/-- What a token leaves alone (44_decoder.md rules R271, R275 and R280): everything but `PREV`, the cache, the write
cursor, the phase and the bytes of the pixels it produces; INDEX and RUN leave the cache alone too, and a token that
stores changes only the slot of the pixel it leaves in `PREV`. -/
def Obligations.TokenFrame : Prop :=
  ∀ (i : Instr) (s t : State), i.record = .token → exec i s = .next t →
    t = { s with
      dec := { s.dec with
        prev := t.dec.prev, cache := t.dec.cache, wcur := t.dec.wcur, phase := t.dec.phase }
      pixout := t.pixout } ∧
    (tokenStores i = false → t.dec.cache = s.dec.cache) ∧
    (∀ j : Slot, j.toNat ≠ slotNumber t.dec.prev → cacheLookup t.dec.cache j = cacheLookup s.dec.cache j) ∧
    (∀ a, (a < s.dec.wcur * outWidth s.dec.och ∨
        (s.dec.wcur + producedBy i s) * outWidth s.dec.och ≤ a) →
      memReadByte t.pixout a = memReadByte s.pixout a)

/-- 44_decoder.md rule R271: after RGB, RGBA, DIFF and LUMA the cache holds the new pixel in its slot, also when it did
before; INDEX and RUN do not alter the cache. -/
def Obligations.TokensThatStore : Prop :=
  (∀ (i : Instr) (s t : State), i.record = .token → exec i s = .next t →
    t.dec.cache = if tokenStores i then cacheStore s.dec.cache (hash t.dec.prev) t.dec.prev else s.dec.cache) ∧
  (∀ r g b, tokenStores (.rgb r g b) = true) ∧ (∀ r g b a, tokenStores (.rgba r g b a) = true) ∧
  (∀ x y z, tokenStores (.diff x y z) = true) ∧ (∀ x y z, tokenStores (.luma x y z) = true) ∧
  (∀ n, tokenStores (.index n) = false) ∧ (∀ n, tokenStores (.run n) = false)

/-- 44_decoder.md rule R276: a token produces `min(k, NPIX - WCUR)` pixels, all equal to the pixel it leaves in `PREV`,
`k` being 1 for every token but RUN; the surplus of a RUN is dropped without error, and the token phase ends exactly when
the last pixel is produced. -/
def Obligations.TokenPixelCount : Prop :=
  ∀ (i : Instr) (s t : State), i.record = .token → exec i s = .next t →
    t.dec.wcur = s.dec.wcur + min (tokenPixels i) (s.dec.npix - s.dec.wcur) ∧
    ((∀ n, i ≠ .run n) → tokenPixels i = 1) ∧
    t.dec.wcur ≤ t.dec.npix ∧
    t.dec.phase = (if t.dec.wcur = t.dec.npix then .trailer else .body) ∧
    t.dec.status = s.dec.status ∧
    (∀ j, s.dec.wcur ≤ j → j < t.dec.wcur → ∀ c < outWidth s.dec.och,
      memReadByte t.pixout (j * outWidth s.dec.och + c) = (pixelBytes t.dec.prev (outWidth s.dec.och))[c]?)

/-- 44_decoder.md rule R270: with `HDR.CH = 3` and `ALPHA3 = FORCE` every token leaves alpha 255 in `PREV`, in the slot it
stores and in the pixels it writes; otherwise alpha is the token's own (RGBA, INDEX) or the previous one. -/
def Obligations.ThreeChannelAlpha : Prop :=
  ∀ (i : Instr) (s t : State), i.record = .token → exec i s = .next t →
    (s.forcesAlpha → t.dec.prev.a = 255#8) ∧
    (¬ s.forcesAlpha →
      (∀ r g b a, i = .rgba r g b a → t.dec.prev.a = a) ∧
      (∀ idx, i = .index idx → t.dec.prev.a = (cacheLookup s.dec.cache idx).a) ∧
      ((∀ r g b a, i ≠ .rgba r g b a) → (∀ idx, i ≠ .index idx) → t.dec.prev.a = s.dec.prev.a)) ∧
    (tokenStores i = true → cacheLookup t.dec.cache (hash t.dec.prev) = t.dec.prev) ∧
    (s.dec.och = 4#8 → memReadByte t.pixout (s.dec.wcur * 4 + 3) = some t.dec.prev.a)

/-! ## The records -/

/-- 41_header_trailer.md rule R162 and 44_decoder.md rule R274: a header without a defect is accepted: `HDR.*`, `OCH` and
`DEC.NPIX` are written, the token phase begins, and nothing else changes, but that the host's new `PIXOUT` holds no byte
yet (assumption log 11: the model's choice). -/
def Obligations.HeaderAccepted : Prop :=
  ∀ (w h : Word) (c cs : Byte) (s : State), s.dec.phase = .header →
    w ≠ 0#32 → h ≠ 0#32 → c = 3#8 ∨ c = 4#8 → cs = 0#8 ∨ cs = 1#8 →
    w.toNat * h.toNat * max c.toNat (if s.dec.req = 0#8 then c else s.dec.req).toNat ≤ s.par.pixbufMax →
    exec (.header magicWord w h c cs) s = .next { s with
      dec := { s.dec with
        hdr := ⟨w, h, c, cs⟩
        och := if s.dec.req = 0#8 then c else s.dec.req
        npix := w.toNat * h.toNat
        phase := .body }
      pixout := [] }

/-- 41_header_trailer.md rule R163: the header checks in their order, each with its error; row 0, `REQ`, is checked at
`start` before any byte is read. A refused header changes `PHASE` and `STATUS` and nothing else. -/
def Obligations.HeaderChecksInOrder : Prop :=
  (∀ (s : State) (rest : List Turn), s.agenda = .host .startDec :: rest → s.dec.status.busy = false →
    s.dec.req ≠ 0#8 → s.dec.req ≠ 3#8 → s.dec.req ≠ 4#8 →
    ∃ t, step s = .next t ∧ t.dec.phase = .failed ∧ t.dec.status = ⟨false, 4#3, 1#4⟩ ∧ t.dec.spos = 0 ∧ t.src = s.src) ∧
  (∀ (m w h : Word) (c cs : Byte) (s : State), s.dec.phase = .header →
    (m ≠ magicWord →
      exec (.header m w h c cs) s =
        .next { s with dec := { s.dec with phase := .failed, status := ⟨false, 1#3, 1#4⟩ } }) ∧
    (m = magicWord → w = 0#32 →
      exec (.header m w h c cs) s =
        .next { s with dec := { s.dec with phase := .failed, status := ⟨false, 1#3, 2#4⟩ } }) ∧
    (m = magicWord → w ≠ 0#32 → h = 0#32 →
      exec (.header m w h c cs) s =
        .next { s with dec := { s.dec with phase := .failed, status := ⟨false, 1#3, 3#4⟩ } }) ∧
    (m = magicWord → w ≠ 0#32 → h ≠ 0#32 → c ≠ 3#8 ∧ c ≠ 4#8 →
      exec (.header m w h c cs) s =
        .next { s with dec := { s.dec with phase := .failed, status := ⟨false, 1#3, 4#4⟩ } }) ∧
    (m = magicWord → w ≠ 0#32 → h ≠ 0#32 → c = 3#8 ∨ c = 4#8 → cs ≠ 0#8 ∧ cs ≠ 1#8 →
      exec (.header m w h c cs) s =
        .next { s with dec := { s.dec with phase := .failed, status := ⟨false, 1#3, 5#4⟩ } }) ∧
    (m = magicWord → w ≠ 0#32 → h ≠ 0#32 → c = 3#8 ∨ c = 4#8 → cs = 0#8 ∨ cs = 1#8 →
      s.par.pixbufMax < w.toNat * h.toNat * max c.toNat (if s.dec.req = 0#8 then c else s.dec.req).toNat →
      exec (.header m w h c cs) s =
        .next { s with dec := { s.dec with phase := .failed, status := ⟨false, 1#3, 6#4⟩ } }))

/-- 41_header_trailer.md rules R162 and R163: each header field is checked as soon as it is read: the step ends with the
error after 4, 8, 12, 13 or 14 bytes, and the bytes after the refused field stay unread. -/
def Obligations.HeaderRefusedAsRead : Prop :=
  ∀ (s : State) (us : List Byte), s.readsNext .header →
    (∀ m0 m1 m2 m3, wordOfBytes m0 m1 m2 m3 ≠ magicWord → s.unread = [m0, m1, m2, m3] ++ us →
      ∃ t, step s = .next t ∧ t.dec.phase = .failed ∧ t.dec.status = ⟨false, 1#3, 1#4⟩ ∧
        t.dec.spos = s.dec.spos + 4 ∧ t.unread = us) ∧
    (s.unread = bytesOfWord magicWord ++ bytesOfWord 0#32 ++ us →
      ∃ t, step s = .next t ∧ t.dec.phase = .failed ∧ t.dec.status = ⟨false, 1#3, 2#4⟩ ∧
        t.dec.spos = s.dec.spos + 8 ∧ t.unread = us) ∧
    (∀ w, w ≠ 0#32 → s.unread = bytesOfWord magicWord ++ bytesOfWord w ++ bytesOfWord 0#32 ++ us →
      ∃ t, step s = .next t ∧ t.dec.phase = .failed ∧ t.dec.status = ⟨false, 1#3, 3#4⟩ ∧
        t.dec.spos = s.dec.spos + 12 ∧ t.unread = us) ∧
    (∀ w h c, w ≠ 0#32 → h ≠ 0#32 → c ≠ 3#8 ∧ c ≠ 4#8 →
      s.unread = bytesOfWord magicWord ++ bytesOfWord w ++ bytesOfWord h ++ [c] ++ us →
      ∃ t, step s = .next t ∧ t.dec.phase = .failed ∧ t.dec.status = ⟨false, 1#3, 4#4⟩ ∧
        t.dec.spos = s.dec.spos + 13 ∧ t.unread = us) ∧
    (∀ w h c cs, w ≠ 0#32 → h ≠ 0#32 → c = 3#8 ∨ c = 4#8 → cs ≠ 0#8 ∧ cs ≠ 1#8 →
      s.unread = bytesOfWord magicWord ++ bytesOfWord w ++ bytesOfWord h ++ [c, cs] ++ us →
      ∃ t, step s = .next t ∧ t.dec.phase = .failed ∧ t.dec.status = ⟨false, 1#3, 5#4⟩ ∧
        t.dec.spos = s.dec.spos + 14 ∧ t.unread = us)

/-- 41_header_trailer.md rule R166: the sentinel ends the call with `STATUS.CODE` as it was and BUSY 0; any other eight
bytes are `Corruption(BAD_TRAILER)` and leave no Image. Nothing else changes: that the registers stand on DONE as they
were is read from the vectors (95_test_vectors.md P1; assumption log 16). -/
def Obligations.TrailerIsCompared : Prop :=
  ∀ (t : BitVec 64) (s : State), s.dec.phase = .trailer →
    (t = 1#64 →
      exec (.trailer t) s =
        .next { s with dec := { s.dec with phase := .done, status := { s.dec.status with busy := false } } }) ∧
    (t ≠ 1#64 →
      ∃ u, exec (.trailer t) s = .next u ∧
        u = { s with dec := { s.dec with phase := .failed, status := ⟨false, 3#3, 1#4⟩ } } ∧ u.image? = none)

/-- The model's choice (assumption log 14): an instruction outside the phase the spec gives it, or a token with no pixel
left to produce (the precondition of 44_decoder.md rule R280), stops by name. -/
def Obligations.OutOfPhaseStops : Prop :=
  ∀ (i : Instr) (s : State),
    (i.record = .token → ¬ s.tokenReady → exec i s = .fault .tokenOutsideBody) ∧
    (i.record = .header → s.dec.phase ≠ .header → exec i s = .fault .headerOutsideHeader) ∧
    (i.record = .trailer → s.dec.phase ≠ .trailer → exec i s = .fault .trailerOutsideTrailer)

/-! ## A step of the decoder -/

/-- When the unread bytes decode to an instruction of the unit that stands next, the step is `exec` of it, on the state in
which those bytes are consumed: `DEC.SPOS` has moved on by their number, the bytes after them are the unread ones, and
nothing but RD, the source and the turn is changed besides. A HEADER is read to its end when its fields before the last
are accepted ones. -/
def Obligations.StepRunsDecodedInstruction : Prop :=
  ∀ (s : State) (k : Record) (i : Instr) (rest : List Byte),
    s.readsNext k → decode k s.unread = .ok (i, rest) → readToTheEnd i →
    ∃ s', step s = exec i s' ∧ s'.unread = rest ∧ s'.readerOpen ∧ s'.src.tail = s.src.tail ∧
      s' = { s with
        turn := .enc
        dec := { s.dec with rd := s'.dec.rd, spos := s.dec.spos + (s.unread.length - rest.length) }
        src := s'.src }

/-- 44_decoder.md rule R262: the token phase gives a meaning to every byte sequence: whatever the source holds, the step
answers a next state; no token raises a format or corruption error, and the only failures are `Truncation(BODY)` and
`IoError(source)`. -/
def Obligations.TokenPhaseIsTotal : Prop :=
  ∀ s : State, s.decTurn → s.tokenReady →
    ∃ t, step s = .next t ∧
      ((t.dec.phase = .body ∨ t.dec.phase = .trailer) ∧ t.dec.status = s.dec.status ∨
       t.dec.phase = .failed ∧ (t.dec.status = ⟨false, 2#3, 2#4⟩ ∨ t.dec.status = ⟨false, 5#3, 1#4⟩))

/-- 44_decoder.md rule R277: if the source ends inside a token or where a tag byte is wanted, the step raises
`Truncation(BODY)`, and `DEC.PREV`, `CACHE` and `DEC.WCUR` keep their values. -/
def Obligations.TruncatedToken : Prop :=
  ∀ s : State, s.readsNext .token → s.src.tail = .ended → (∃ e, decode .token s.unread = .error e) →
    ∃ t, step s = .next t ∧ t.dec.phase = .failed ∧ t.dec.status = ⟨false, 2#3, 2#4⟩ ∧
      t.dec.prev = s.dec.prev ∧ t.dec.cache = s.dec.cache ∧ t.dec.wcur = s.dec.wcur ∧
      t.dec.spos = s.dec.spos + s.unread.length

/-- 60_exceptions.md rules R303 and R309, 41_header_trailer.md rule R166: a source that ends inside the trailer is
`Truncation(TRAILER)` whatever the bytes already read, and one that ends inside a header, whose first field is not whole
yet or whose fields so far are accepted, is `Truncation(HEADER)`: truncation wins over the fields not yet fully read. -/
def Obligations.TruncatedRecord : Prop :=
  (∀ s : State, s.readsNext .trailer → s.src.tail = .ended → s.unread.length < 8 →
    ∃ t, step s = .next t ∧ t.dec.phase = .failed ∧ t.dec.status = ⟨false, 2#3, 3#4⟩ ∧
      t.dec.spos = s.dec.spos + s.unread.length) ∧
  (∀ s : State, s.readsNext .header → s.src.tail = .ended → headerCutShort s.unread →
    ∃ t, step s = .next t ∧ t.dec.phase = .failed ∧ t.dec.status = ⟨false, 2#3, 1#4⟩ ∧
      t.dec.spos = s.dec.spos + s.unread.length)

/-- 40_byte_stream.md rule R133 and 60_exceptions.md rule R306: a source that fails where a byte of a header, of a token or
of the trailer is wanted is `IoError(source)`; the registers of rule R310 keep their values. -/
def Obligations.FailingSource : Prop :=
  ∀ (s : State) (k : Record), s.readsNext k → s.src.tail = .failed → cutShort k s.unread →
    ∃ t, step s = .next t ∧ t.dec.phase = .failed ∧ t.dec.status = ⟨false, 5#3, 1#4⟩ ∧ s.sameRegisters t ∧
      t.dec.spos = s.dec.spos + s.unread.length ∧ t.pixout = s.pixout

/-- 40_byte_stream.md rule R130 and 93_implementation_defined.md U16: when the source does not answer a request of DEC, or
the sink an offer of ENC, the step waits: phase, status and registers stay, and the bytes already taken, or handed over,
stay so (how they are kept is the model's choice, assumption log 8). ENC waits with `n` offers granted and one more to
make; it has then handed over the bytes up to the end of that offer. -/
def Obligations.WaitingStepKeepsRegisters : Prop :=
  (∀ (s : State) (k : Record), s.readsNext k → s.src.tail = .silent → cutShort k s.unread →
    ∃ t, step s = .next t ∧ t.dec.phase = s.dec.phase ∧ t.dec.status = s.dec.status ∧ s.sameRegisters t ∧
      t.pixout = s.pixout ∧ t.dec.pend = s.unread ∧ t.unread = []) ∧
  (∀ (s : State) (bytes : List Byte) (n : Nat), s.encTurn → s.stepBytes? = some bytes → s.enc.wr.err = false →
    s.enc.wr.buf.length ≤ s.par.chunk → s.sink.grants = some n → s.sink.tail = .silent →
    s.offersMore (bytes.drop s.enc.sent) n →
    ∃ t, step s = .next t ∧ t.enc.phase = s.enc.phase ∧ t.enc.status = s.enc.status ∧ s.sameRegisters t ∧
      t.stepBytes? = some bytes ∧
      (let gone := (bytes.drop s.enc.sent).take ((n + 1) * s.par.chunk - s.enc.wr.buf.length)
       t.emitted = s.emitted ++ gone ∧ t.enc.sent = s.enc.sent + gone.length) ∧
      t.sink.bytes = s.sink.bytes ++ (s.enc.wr.buf ++ bytes.drop s.enc.sent).take (n * s.par.chunk))

/-- 40_byte_stream.md rules R130 and R144, with assumption log 8 (the model's choice of how a waiting step is kept): a
fetch that waited and is then fed goes on as one that had all the bytes at once. -/
def Obligations.WaitingLosesNothing : Prop :=
  ∀ (k : Record) (s t : State) (bytes : List Byte) (tail : SrcTail),
    s.readerOpen → s.dec.pend = [] → fetch k s = .waiting t →
    fetchView (fetch k (t.feedSource bytes tail)) = fetchView (fetch k (s.feedSource bytes tail))

/-- 40_byte_stream.md rule R144: what DEC reads does not depend on `CHUNK`, on what RD holds already, or on how the host
splits its answers: two states with the same unread bytes fetch the same instruction or the same error, and leave the
same bytes unread. -/
def Obligations.ChunkIndependentFetch : Prop :=
  ∀ (k : Record) (s t : State), s.readerOpen → t.readerOpen →
    s.unread = t.unread → s.src.tail = t.src.tail → s.dec.pend = t.dec.pend → s.dec.spos = t.dec.spos →
    fetchView (fetch k s) = fetchView (fetch k t)

/-! ## The encoder -/

/-- 43_encoder.md rule R212: the pixel with scan index `ENC.PIX` stands at `ENC.PIX * CFG.CH`, its bytes in the order R, G,
B and, of four, A; of three channels the alpha is 255. -/
def Obligations.FetchedPixel : Prop :=
  ∀ s : State, s.enc.pix * s.enc.cfg.ch.toNat + s.enc.cfg.ch.toNat ≤ s.enc.cfg.len →
    (∀ r g b a, s.enc.cfg.ch = 4#8 →
      memReadByte s.pixin (s.enc.pix * 4) = some r → memReadByte s.pixin (s.enc.pix * 4 + 1) = some g →
      memReadByte s.pixin (s.enc.pix * 4 + 2) = some b → memReadByte s.pixin (s.enc.pix * 4 + 3) = some a →
      fetchPixel s = .pixel ⟨r, g, b, a⟩) ∧
    (∀ r g b, s.enc.cfg.ch = 3#8 →
      memReadByte s.pixin (s.enc.pix * 3) = some r → memReadByte s.pixin (s.enc.pix * 3 + 1) = some g →
      memReadByte s.pixin (s.enc.pix * 3 + 2) = some b →
      fetchPixel s = .pixel ⟨r, g, b, 255#8⟩)

/-- 43_encoder.md rule R213: the range tests on wrapped differences are the signed ones, and when the green difference is
in its range the wrapped test on a relative difference is the integer one. -/
def Obligations.RangeTestsAreSigned : Prop :=
  (∀ d : Byte, inDiffRange d = true ↔ -2 ≤ d.toInt ∧ d.toInt ≤ 1) ∧
  (∀ d : Byte, inLumaGreenRange d = true ↔ -32 ≤ d.toInt ∧ d.toInt ≤ 31) ∧
  (∀ d : Byte, inLumaRelRange d = true ↔ -8 ≤ d.toInt ∧ d.toInt ≤ 7) ∧
  (∀ dr dg : Byte, inLumaGreenRange dg = true →
    (inLumaRelRange (dr - dg) = true ↔ -8 ≤ dr.toInt - dg.toInt ∧ dr.toInt - dg.toInt ≤ 7))

/-- 43_encoder.md rule R214 (with rules R216 to R223): the first row of the priority table whose condition holds gives the
tokens of a pixel; a run in progress is flushed before the pixel's own token. The run counter grows by one on a pixel
equal to the previous one and is 0 after the cap or any other pixel. -/
def Obligations.TokenPriority : Prop :=
  ∀ (prev cur : Pixel) (run : BitVec 6) (cache : Cache),
    let tokens := (pixelEffect prev run cache cur).tokens
    let flushed : List Instr := if run = 0#6 then [] else [.run (run - 1#6)]
    let dr := (cur.r - prev.r).toInt
    let dg := (cur.g - prev.g).toInt
    let db := (cur.b - prev.b).toInt
    let drg := ((cur.r - prev.r) - (cur.g - prev.g)).toInt
    let dbg := ((cur.b - prev.b) - (cur.g - prev.g)).toInt
    let small : Prop := -2 ≤ dr ∧ dr ≤ 1 ∧ -2 ≤ dg ∧ dg ≤ 1 ∧ -2 ≤ db ∧ db ≤ 1
    let luma : Prop := -32 ≤ dg ∧ dg ≤ 31 ∧ -8 ≤ drg ∧ drg ≤ 7 ∧ -8 ≤ dbg ∧ dbg ≤ 7
    let hit : Prop := cacheLookup cache (hash cur) = cur
    let after := (pixelEffect prev run cache cur).run
    (cur = prev → run = 61#6 → tokens = [.run 61#6] ∧ after = 0#6) ∧
    (cur = prev → run ≠ 61#6 → tokens = [] ∧ after = run + 1#6) ∧
    (cur ≠ prev → after = 0#6) ∧
    (cur ≠ prev → hit → tokens = flushed ++ [.index (hash cur)]) ∧
    (cur ≠ prev → ¬ hit → cur.a = prev.a → small →
      ∃ x y z, tokens = flushed ++ [.diff x y z] ∧
        (x.toNat : Int) = dr + 2 ∧ (y.toNat : Int) = dg + 2 ∧ (z.toNat : Int) = db + 2) ∧
    (cur ≠ prev → ¬ hit → cur.a = prev.a → ¬ small → luma →
      ∃ x y z, tokens = flushed ++ [.luma x y z] ∧
        (x.toNat : Int) = dg + 32 ∧ (y.toNat : Int) = drg + 8 ∧ (z.toNat : Int) = dbg + 8) ∧
    (cur ≠ prev → ¬ hit → cur.a = prev.a → ¬ small → ¬ luma → tokens = flushed ++ [.rgb cur.r cur.g cur.b]) ∧
    (cur ≠ prev → ¬ hit → cur.a ≠ prev.a → tokens = flushed ++ [.rgba cur.r cur.g cur.b cur.a])

/-- 43_encoder.md rules R217 and R225 (95_test_vectors.md PR3): `n` pixels equal to the previous one at the end of a buffer
give a RUN 62 for every 62 of them and one RUN for the rest, never a longer one; nothing is stored. -/
def Obligations.EqualPixelsMakeRuns : Prop :=
  ∀ (p : Pixel) (cache : Cache) (n : Nat),
    tokensFrom p 0#6 cache (List.replicate n p) =
      List.replicate (n / 62) (.run 61#6) ++
        (if n % 62 = 0 then [] else [.run (BitVec.ofNat 6 (n % 62 - 1))])

/-- 43_encoder.md rules R224, R225 and R230: with a sink that answers, the pixel step hands over the bytes of the pixel's
tokens in order (of a step that waited, those still missing: 40_byte_stream.md rule R130, assumption log 8), leaves the
pixel in `PREV` and in its slot (unless it extends a run), moves `ENC.PIX` on by one, and after the last pixel flushes the
run and enters the trailer phase; ENC changes nothing else of itself. -/
def Obligations.EncoderPixelStep : Prop :=
  ∀ (s : State) (cur : Pixel), s.writesNext .body → s.sinkOpen → s.enc.pix < s.enc.npix →
    fetchPixel s = .pixel cur →
    ∃ t, step s = .next t ∧
      (let f := pixelEffect s.enc.prev s.enc.run s.enc.cache cur
       let last := s.enc.pix + 1 = s.enc.npix
       let tokens := if last ∧ f.run ≠ 0#6 then f.tokens ++ [.run (f.run - 1#6)] else f.tokens
       t.emitted = s.emitted ++ (encodeAll tokens).drop s.enc.sent ∧
       t.enc.epos = s.enc.epos + ((encodeAll tokens).length - s.enc.sent) ∧
       t.enc.prev = cur ∧
       t.enc.run = (if last then 0#6 else f.run) ∧
       t.enc.cache = (if cur = s.enc.prev then s.enc.cache else cacheStore s.enc.cache (hash cur) cur) ∧
       t.enc.pix = s.enc.pix + 1 ∧
       t.enc.phase = (if last then .trailer else .body) ∧
       t.sinkOpen ∧
       t = { s with
         turn := .dec
         enc := { s.enc with
           prev := t.enc.prev, run := t.enc.run, cache := t.enc.cache, pix := t.enc.pix, phase := t.enc.phase,
           epos := t.enc.epos, wr := t.enc.wr, sent := 0 }
         sink := t.sink })

/-- 41_header_trailer.md rule R161: `write_header` hands over the magic, width, height, channel count and colour-space tag
in that order, most significant bytes first (of a step that waited, the bytes still missing: assumption log 8), and the
pixel phase begins. -/
def Obligations.EncoderHeaderStep : Prop :=
  ∀ s : State, s.writesNext .header → s.sinkOpen →
    ∃ t, step s = .next t ∧
      t.emitted = s.emitted ++ ([0x71#8, 0x6F#8, 0x69#8, 0x66#8] ++
        bytesOfWord s.enc.cfg.width ++ bytesOfWord s.enc.cfg.height ++ [s.enc.cfg.ch, s.enc.cfg.cs]).drop s.enc.sent ∧
      t.sinkOpen ∧
      t = { s with
        turn := .dec
        enc := { s.enc with phase := .body, epos := s.enc.epos + (14 - s.enc.sent), wr := t.enc.wr, sent := 0 }
        sink := t.sink }

/-- 41_header_trailer.md rule R165 and 43_encoder.md rule R226: the trailer is handed over (of a step that waited, the
bytes still missing: assumption log 8), WR is flushed, and on DONE the sink holds every byte of the call and WR none;
`STATUS.CODE` stays as it was and BUSY is 0. `ENC.EPOS` has moved on by the trailer's 8 bytes (10_state.md rule R27); that
it and WR stand so on DONE, where rule R226 calls them dead, is read from the vectors (95_test_vectors.md P1; assumption
log 16). -/
def Obligations.EncoderFinish : Prop :=
  ∀ s : State, s.writesNext .trailer → s.sinkOpen →
    ∃ t, step s = .next t ∧
      t.sink.bytes = s.emitted ++ [0#8, 0#8, 0#8, 0#8, 0#8, 0#8, 0#8, 1#8].drop s.enc.sent ∧ t.enc.wr.buf = [] ∧
      t.enc.phase = .done ∧ t.enc.status = { s.enc.status with busy := false } ∧
      t.enc.epos = s.enc.epos + (8 - s.enc.sent)

/-- 60_exceptions.md rules R306 and R310: a step of an engine that ends its call in FAILED has taken no effect on `PREV`,
`CACHE`, `RUN`, `PIX` and `WCUR`; of ENC the only error of such a step is `IoError(sink)`; the bytes handed to WR before
it are those of the stream, in order, and `SINK` is a first part of them. Which bytes are still missing is said with the
model's own count `sent` of a step that waited (assumption log 8); `ENC.EPOS` on FAILED is as assumption log 16 says. Of
DEC, that a failing step leaves `PIXOUT` is 44_decoder.md rule R280 (a token writes it after its last byte is read) and,
of the records, 41_header_trailer.md rules R162 and R166. -/
def Obligations.FailingStepIsPrecise : Prop :=
  ∀ (s t : State),
    (engineStep .enc s = .next t → t.enc.phase = .failed → s.enc.phase ≠ .failed →
      s.sameRegisters t ∧ t.enc.status = ⟨false, 5#3, 2#4⟩ ∧
      ∃ bytes taken, s.stepBytes? = some bytes ∧ taken <+: bytes.drop s.enc.sent ∧
        t.enc.epos = s.enc.epos + taken.length ∧ s.sink.bytes <+: t.sink.bytes ∧
        t.sink.bytes <+: s.emitted ++ taken) ∧
    (engineStep .dec s = .next t → t.dec.phase = .failed → s.dec.phase ≠ .failed →
      s.sameRegisters t ∧ t.dec.status.busy = false ∧ t.pixout = s.pixout)

/-- 40_byte_stream.md rules R138 and R140, 60_exceptions.md rule R306 (95_test_vectors.md B-13): a sink that answers `n`
offers `ok` and the next `fail`, where the step makes that offer, ends the call in FAILED with `IoError(sink)`; the
registers of rule R310 keep their values, and `SINK` has the `n` chunks and what it kept of the failed offer (how much
that is stands in the plan of the port: 93_implementation_defined.md U9, assumption log 7). The bytes of the step still
missing are said with the model's own count `sent` of a step that waited (assumption log 8). -/
def Obligations.FailingSink : Prop :=
  ∀ (s : State) (bytes : List Byte) (n kept : Nat), s.encTurn → s.stepBytes? = some bytes → s.enc.wr.err = false →
    s.enc.wr.buf.length ≤ s.par.chunk → s.sink.grants = some n → s.sink.tail = .failed kept →
    s.offersMore (bytes.drop s.enc.sent) n →
    ∃ t, step s = .next t ∧ t.enc.phase = .failed ∧ t.enc.status = ⟨false, 5#3, 2#4⟩ ∧ s.sameRegisters t ∧
      t.sink.bytes = s.sink.bytes ++
        (s.enc.wr.buf ++ bytes.drop s.enc.sent).take (n * s.par.chunk + min kept s.par.chunk)

/-- 20_memory.md rules R65, R76 and R78: whatever the sink answers, a step of ENC hands over a first part of the bytes of
the step in progress that are still missing, so that none is lost, repeated or moved, whether the step fails, waits or is
complete; `SINK` only grows, and holds a prefix of the bytes handed over. A step that waits stays the step it was; a
complete one has handed over all its bytes. (How a waiting step is kept is the model's choice, assumption log 8; `EPOS` and
WR on DONE and FAILED are as assumption log 16 says.) -/
def Obligations.WriterKeepsOrder : Prop :=
  ∀ (s t : State), engineStep .enc s = .next t →
    (s.stepBytes? = none → t = s) ∧
    ∀ bytes, s.stepBytes? = some bytes →
      ∃ taken, taken <+: bytes.drop s.enc.sent ∧ t.enc.epos = s.enc.epos + taken.length ∧
        s.sink.bytes <+: t.sink.bytes ∧ t.sink.bytes <+: s.emitted ++ taken ∧
        (t.enc.phase = .failed ∧ t.enc.status = ⟨false, 5#3, 2#4⟩ ∨
          t.emitted = s.emitted ++ taken ∧
            (t.enc.phase = s.enc.phase ∧ t.stepBytes? = some bytes ∧ s.sameRegisters t ∧
                t.enc.sent = s.enc.sent + taken.length ∨
              taken = bytes.drop s.enc.sent ∧
                (t.enc.phase = .done ∧ t.enc.wr.buf = [] ∨ t.enc.phase.inCall = true ∧ t.enc.sent = 0)))

/-! ## What the encoder's tokens are, over a whole image -/

/-- 43_encoder.md rule R227, items 4 and 5: no DIFF 0,0,0, no LUMA 0,0,0 and no RGB of the previous colour is emitted, and
an emitted INDEX names a slot that holds the pixel. -/
def Obligations.EncoderNeverEmits : Prop :=
  ∀ (last : Bool) (prev cur : Pixel) (run : BitVec 6) (cache : Cache) (i : Instr),
    i ∈ (pixelEffectAt last prev run cache cur).tokens →
    i ≠ .diff 2#2 2#2 2#2 ∧ i ≠ .luma 32#6 8#4 8#4 ∧ i ≠ .rgb prev.r prev.g prev.b ∧
    (∀ idx, i = .index idx → cacheLookup cache idx = cur)

/-- 43_encoder.md rule R227, item 2: every pixel is covered by exactly one token, so the tokens of an image stand for as
many pixels as it has; and each of them is a well-formed token. -/
def Obligations.TokensCoverThePixels : Prop :=
  ∀ ps : List Pixel,
    ((tokensOf ps).map tokenPixels).sum = ps.length ∧
    ∀ i ∈ tokensOf ps, i.record = .token ∧ i.wellFormed = true

/-- 43_encoder.md rule R227, item 6: at most 5 bytes a pixel, at most 4 in 3-channel mode. -/
def Obligations.StreamSizeBound : Prop :=
  ∀ ps : List Pixel,
    (encodeAll (tokensOf ps)).length ≤ 5 * ps.length ∧
    ((∀ p ∈ ps, p.a = 255#8) → (encodeAll (tokensOf ps)).length ≤ 4 * ps.length)

/-- 43_encoder.md rule R227, item 3: two RUN tokens are adjacent in the stream only when the first is RUN 62. -/
def Obligations.AdjacentRunsAreCapped : Prop :=
  ∀ (ps : List Pixel) (n : Nat) (a b : BitVec 6),
    (tokensOf ps)[n]? = some (.run a) → (tokensOf ps)[n + 1]? = some (.run b) → a = 61#6

/-! ## Lock-step and round trip -/

/-- 44_decoder.md rule R283, one pixel: from the same `PREV` and cache, the decoder's step on the token the encoder emits
for a pixel other than the previous one gives that pixel, and the same `PREV` and cache as the encoder's; a RUN token
leaves both as they are. -/
def Obligations.LockStepPixel : Prop :=
  ∀ (s : State) (cur : Pixel) (run : BitVec 6), s.tokenReady →
    (s.forcesAlpha → cur.a = 255#8 ∧ s.dec.prev.a = 255#8) →
    (cur ≠ s.dec.prev →
      ∃ t, exec (chooseToken (signals s.dec.prev s.dec.cache cur) cur) s = .next t ∧
        t.dec.prev = (pixelEffect s.dec.prev run s.dec.cache cur).prev ∧ t.dec.prev = cur ∧
        t.dec.cache = (pixelEffect s.dec.prev run s.dec.cache cur).cache ∧
        t.dec.wcur = s.dec.wcur + 1 ∧
        ∀ c < outWidth s.dec.och,
          memReadByte t.pixout (s.dec.wcur * outWidth s.dec.och + c) =
            (pixelBytes cur (outWidth s.dec.och))[c]?) ∧
    (∃ t, exec (runToken run) s = .next t ∧ t.dec.prev = s.dec.prev ∧ t.dec.cache = s.dec.cache)

/-- 44_decoder.md rules R283 and R284, on tokens: from the values of a call reset, running the tokens the encoder emits for
a sequence of pixels gives those pixels, byte for byte, and ends the token phase. -/
def Obligations.TokensRoundTrip : Prop :=
  ∀ (s : State) (ps : List Pixel),
    s.dec.phase = .body → s.dec.prev = prevInit → s.dec.cache = cacheReset → s.dec.wcur = 0 →
    s.dec.npix = ps.length → ps ≠ [] → (s.forcesAlpha → ∀ p ∈ ps, p.a = 255#8) →
    ∃ t, runTokens (tokensOf ps) s = .next t ∧ t.dec.phase = .trailer ∧ t.dec.status = s.dec.status ∧
      ∀ (j : Nat) (p : Pixel), ps[j]? = some p → ∀ c < outWidth s.dec.och,
        memReadByte t.pixout (j * outWidth s.dec.och + c) = (pixelBytes p (outWidth s.dec.och))[c]?

/-- 43_encoder.md rule R210: a started encode whose sink answers ends DONE with `SINK` holding header, tokens and trailer of its
image and nothing else, whatever `CHUNK`. The pixels are those of `PIXIN`, in scan order. -/
def Obligations.EncodeWritesTheStream : Prop :=
  ∀ (s : State) (ps : List Pixel),
    s.agenda = [] → s.dec.phase.inCall = false →
    s.enc.phase = .header → s.enc.sent = 0 → s.sinkOpen → s.emitted = [] →
    s.enc.prev = prevInit → s.enc.run = 0#6 → s.enc.cache = cacheReset → s.enc.pix = 0 →
    s.enc.npix = ps.length → ps ≠ [] →
    s.enc.cfg.len = ps.length * s.enc.cfg.ch.toNat → s.enc.cfg.ch = 3#8 ∨ s.enc.cfg.ch = 4#8 →
    (s.enc.cfg.ch = 3#8 → ∀ p ∈ ps, p.a = 255#8) →
    (∀ (j : Nat) (p : Pixel), ps[j]? = some p → ∀ c < s.enc.cfg.ch.toNat,
      memReadByte s.pixin (j * s.enc.cfg.ch.toNat + c) = (pixelBytes p s.enc.cfg.ch.toNat)[c]?) →
    ∃ n t, Sys2Proof.core.run n s = .next t ∧ t.enc.phase = .done ∧
      t.sink.bytes = encode (headerInstr s.enc.cfg) ++ encodeAll (tokensOf ps) ++ encode (.trailer trailerWord)

/-- 44_decoder.md rule R284 (with rule R274): a decode of the stream of an image ends DONE with that image: width, height,
colour-space tag, and the pixels byte for byte in the requested layout; the bytes after the trailer are not consumed
(41_header_trailer.md rule R167), and `DEC.SPOS` on DONE says so (95_test_vectors.md ER-21; assumption log 16). -/
def Obligations.DecodeReadsTheStream : Prop :=
  ∀ (s : State) (ps : List Pixel) (w h : Word) (c cs : Byte) (extra : List Byte),
    s.agenda = [] → s.enc.phase.inCall = false →
    s.dec.phase = .header → s.dec.pend = [] → s.readerOpen → s.dec.spos = 0 →
    s.dec.prev = prevInit → s.dec.cache = cacheReset → s.dec.wcur = 0 →
    s.dec.req = 0#8 ∨ s.dec.req = 3#8 ∨ s.dec.req = 4#8 →
    headerError s.par.pixbufMax s.dec.req magicWord w h c cs = none →
    w.toNat * h.toNat = ps.length → (c = 3#8 → ∀ p ∈ ps, p.a = 255#8) →
    s.unread = encode (.header magicWord w h c cs) ++ encodeAll (tokensOf ps) ++ encode (.trailer trailerWord) ++ extra →
    ∃ n t, Sys2Proof.core.run n s = .next t ∧ t.dec.phase = .done ∧
      t.image? = some ⟨w, h, outputChannels s.dec.req c, cs,
        ps.flatMap (fun p => pixelBytes p (outputChannels s.dec.req c).toNat)⟩ ∧
      t.dec.spos + extra.length = s.unread.length ∧ t.unread = extra

/-! ## Start, abort, reset, errors -/

/-- 43_encoder.md rule R211: `enc_start` applies the call reset, checks in order, reports the first failure, and otherwise
computes `ENC.NPIX` and enters the header phase; no byte has been handed to WR. -/
def Obligations.EncStartChecks : Prop :=
  ∀ (s : State) (rest : List Turn), s.agenda = .host .startEnc :: rest → s.enc.status.busy = false →
    ∃ t, step s = .next t ∧ t.emitted = [] ∧ t.enc.epos = 0 ∧ t.enc.cfg = s.enc.cfg ∧
      t.enc.prev = ⟨0#8, 0#8, 0#8, 255#8⟩ ∧ t.enc.run = 0#6 ∧ t.enc.pix = 0 ∧ t.enc.wr = ⟨[], false⟩ ∧
      (∀ i, cacheLookup t.enc.cache i = ⟨0#8, 0#8, 0#8, 0#8⟩) ∧
      (let c := s.enc.cfg
       let size := c.width.toNat * c.height.toNat * c.ch.toNat
       let fails (code : BitVec 4) : Prop := t.enc.phase = .failed ∧ t.enc.status = ⟨false, 4#3, code⟩
       if c.width = 0#32 ∨ c.height = 0#32 then fails 3#4
       else if c.ch ≠ 3#8 ∧ c.ch ≠ 4#8 then fails 4#4
       else if c.cs ≠ 0#8 ∧ c.cs ≠ 1#8 then fails 5#4
       else if size > s.par.pixbufMax then fails 6#4
       else if c.len ≠ size then fails 2#4
       else t.enc.phase = .header ∧ t.enc.status = ⟨true, 0#3, 0#4⟩ ∧
         t.enc.npix = c.width.toNat * c.height.toNat)

/-- 44_decoder.md rule R261: `dec_start` applies the call reset, refuses a `REQ` outside 0, 3 and 4 before any request of
the source, and otherwise enters the header phase. -/
def Obligations.DecStartChecks : Prop :=
  ∀ (s : State) (rest : List Turn), s.agenda = .host .startDec :: rest → s.dec.status.busy = false →
    ∃ t, step s = .next t ∧ t.src = s.src ∧ t.dec.req = s.dec.req ∧
      t.dec.prev = ⟨0#8, 0#8, 0#8, 255#8⟩ ∧ t.dec.wcur = 0 ∧ t.dec.spos = 0 ∧ t.dec.rd = ⟨[], 0, false, false⟩ ∧
      (∀ i, cacheLookup t.dec.cache i = ⟨0#8, 0#8, 0#8, 0#8⟩) ∧
      (if s.dec.req = 0#8 ∨ s.dec.req = 3#8 ∨ s.dec.req = 4#8 then
        t.dec.phase = .header ∧ t.dec.status = ⟨true, 0#3, 0#4⟩
      else t.dec.phase = .failed ∧ t.dec.status = ⟨false, 4#3, 1#4⟩)

/-- 70_reset_and_hazards.md rule R351 and the table of 10_state.md rule R38: `start` sets the registers of its engine to
the values of the call reset; the other engine is left alone. -/
def Obligations.CallResetValues : Prop :=
  (∀ (s : State) (rest : List Turn), s.agenda = .host .startEnc :: rest → s.enc.status.busy = false →
    ∃ t, step s = .next t ∧ t.enc.prev = ⟨0#8, 0#8, 0#8, 255#8⟩ ∧ t.enc.run = 0#6 ∧ t.enc.pix = 0 ∧ t.enc.epos = 0 ∧
      (∀ i, cacheLookup t.enc.cache i = ⟨0#8, 0#8, 0#8, 0#8⟩) ∧ t.enc.wr = ⟨[], false⟩ ∧ t.sink.bytes = [] ∧
      t.dec = s.dec) ∧
  (∀ (s : State) (rest : List Turn), s.agenda = .host .startDec :: rest → s.dec.status.busy = false →
    ∃ t, step s = .next t ∧ t.dec.prev = ⟨0#8, 0#8, 0#8, 255#8⟩ ∧ t.dec.wcur = 0 ∧ t.dec.spos = 0 ∧
      (∀ i, cacheLookup t.dec.cache i = ⟨0#8, 0#8, 0#8, 0#8⟩) ∧ t.dec.rd = ⟨[], 0, false, false⟩ ∧
      t.enc = s.enc)

/-- 60_exceptions.md rule R321 and 92_eei_decisions.md D26: `abort` of a call leaves IDLE and a clear status, and an aborted
decode has no result; `start` while busy is ignored. That `abort` does the same from IDLE, DONE and FAILED, and that an
aborted encode leaves `SINK` exactly as it was (the rule says: some prefix of the stream), is the model's choice,
assumption log 13. -/
def Obligations.AbortAndBusyStart : Prop :=
  ∀ (s : State) (rest : List Turn),
    (s.agenda = .host .abortDec :: rest →
      ∃ t, step s = .next t ∧ t.dec.phase = .idle ∧ t.dec.status.busy = false ∧ t.dec.status.code = 0#3 ∧
        t.image? = none) ∧
    (s.agenda = .host .abortEnc :: rest →
      ∃ t, step s = .next t ∧ t.enc.phase = .idle ∧ t.enc.status.busy = false ∧ t.enc.status.code = 0#3 ∧
        t.sink = s.sink) ∧
    (s.agenda = .host .startEnc :: rest → s.enc.status.busy = true → step s = .next { s with agenda := rest }) ∧
    (s.agenda = .host .startDec :: rest → s.dec.status.busy = true → step s = .next { s with agenda := rest })

/-- 70_reset_and_hazards.md rule R352: after a hardware reset both engines are IDLE with `STATUS` zero, so is the state
after power-on, and the block does nothing until `start`: with no turn of the host to come and no call in progress a step
changes nothing. -/
def Obligations.ResetLeavesIdle : Prop :=
  (∀ (s : State) (rest : List Turn), s.agenda = .host .hardReset :: rest →
    ∃ t, step s = .next t ∧ t.enc.phase = .idle ∧ t.dec.phase = .idle ∧
      t.enc.status = ⟨false, 0#3, 0#4⟩ ∧ t.dec.status = ⟨false, 0#3, 0#4⟩) ∧
  State.reset.enc.phase = .idle ∧ State.reset.dec.phase = .idle ∧
  State.reset.enc.status = ⟨false, 0#3, 0#4⟩ ∧ State.reset.dec.status = ⟨false, 0#3, 0#4⟩ ∧
  (∀ s : State, s.agenda = [] → s.enc.phase.inCall = false → s.dec.phase.inCall = false → step s = .next s)

/-- 60_exceptions.md rules R313 and R314: an engine in FAILED stays there, its status unchanged, until the host starts or
aborts a call on it or resets the hardware. -/
def Obligations.ErrorsAreFinal : Prop :=
  ∀ (s t : State), step s = .next t →
    (s.dec.phase = .failed →
      t.dec.phase = .failed ∧ t.dec.status = s.dec.status ∨
      ∃ a rest, s.agenda = .host a :: rest ∧ (a = .startDec ∨ a = .abortDec ∨ a = .hardReset)) ∧
    (s.enc.phase = .failed →
      t.enc.phase = .failed ∧ t.enc.status = s.enc.status ∨
      ∃ a rest, s.agenda = .host a :: rest ∧ (a = .startEnc ∨ a = .abortEnc ∨ a = .hardReset))

/-! ## The whole machine -/

/-- 20_memory.md rules R60, R75 and R77: a step of DEC touches DEC (never `REQ`), `PIXOUT` and the source; a step of ENC
touches ENC (never `CFG`) and the sink; `PIXIN` and the parameters are touched by neither. -/
def Obligations.EngineFootprint : Prop :=
  ∀ (s t : State),
    (engineStep .dec s = .next t →
      t = { s with dec := { t.dec with req := s.dec.req }, pixout := t.pixout, src := t.src }) ∧
    (engineStep .enc s = .next t →
      t = { s with enc := { t.enc with cfg := s.enc.cfg }, sink := t.sink })

/-- 20_memory.md rule R77 and 60_exceptions.md rule R318: what an engine does depends on nothing of the other: in two
states that agree on the parameters and on an engine's own part, its step gives the same own part. -/
def Obligations.EnginesDoNotInterfere : Prop :=
  (∀ s1 s2 t1 : State, s1.par = s2.par → s1.dec = s2.dec → s1.src = s2.src → s1.pixout = s2.pixout →
    engineStep .dec s1 = .next t1 →
    ∃ t2, engineStep .dec s2 = .next t2 ∧ t1.dec = t2.dec ∧ t1.src = t2.src ∧ t1.pixout = t2.pixout) ∧
  (∀ s1 s2 t1 : State, s1.par = s2.par → s1.enc = s2.enc → s1.sink = s2.sink → s1.pixin = s2.pixin →
    engineStep .enc s1 = .next t1 →
    ∃ t2, engineStep .enc s2 = .next t2 ∧ t1.enc = t2.enc ∧ t1.sink = t2.sink)

/-- 10_state.md rules R26, R29 and R30: `DEC.SPOS` and `DEC.WCUR` never move backwards in a step of DEC, and `ENC.PIX`
moves only in the pixel phase and by exactly one. -/
def Obligations.CountersAdvance : Prop :=
  ∀ (s t : State),
    (engineStep .dec s = .next t → s.dec.spos ≤ t.dec.spos ∧ s.dec.wcur ≤ t.dec.wcur) ∧
    (engineStep .enc s = .next t →
      t.enc.pix = s.enc.pix ∨ t.enc.pix = s.enc.pix + 1 ∧ s.enc.phase = .body)

/-- The invariant of Safety.lean (10_state.md rules R24 to R29 and R33 to R35; the canonical form of the memories) is kept
by every step, from every state that meets it. That `STATUS.CAUSE` is 0 after an abort (`StatusInv.clean`) is the model's
choice, assumption log 12, and that an abort clears `STATUS` from FAILED too, where rule R34 calls it sticky until `start`,
is the model's choice, assumption log 13. -/
def Obligations.StepKeepsInvariant : Prop :=
  ∀ s t : State, s.Inv → step s = .next t → t.Inv

/-- The invariant holds after power-on. -/
def Obligations.ResetMeetsInvariant : Prop := State.reset.Inv
end

