-- ==== Sys2Proof/Laws/State.lean ====
section
/-! SUPPORT. One lemma per field per update of the state, each true by rfl: no later proof unfolds a record update. -/

namespace Sys2Proof.Machine

/-! ## `State.withEnc` and `State.withDec` -/

@[simp] theorem withEnc_par (s : State) (e : Enc) : (s.withEnc e).par = s.par := rfl
@[simp] theorem withEnc_enc (s : State) (e : Enc) : (s.withEnc e).enc = e := rfl
@[simp] theorem withEnc_dec (s : State) (e : Enc) : (s.withEnc e).dec = s.dec := rfl
@[simp] theorem withEnc_pixin (s : State) (e : Enc) : (s.withEnc e).pixin = s.pixin := rfl
@[simp] theorem withEnc_pixout (s : State) (e : Enc) : (s.withEnc e).pixout = s.pixout := rfl
@[simp] theorem withEnc_src (s : State) (e : Enc) : (s.withEnc e).src = s.src := rfl
@[simp] theorem withEnc_sink (s : State) (e : Enc) : (s.withEnc e).sink = s.sink := rfl
@[simp] theorem withEnc_agenda (s : State) (e : Enc) : (s.withEnc e).agenda = s.agenda := rfl
@[simp] theorem withEnc_turn (s : State) (e : Enc) : (s.withEnc e).turn = s.turn := rfl
@[simp] theorem withEnc_fresh (s : State) (e : Enc) : (s.withEnc e).fresh = s.fresh := rfl
@[simp] theorem withDec_par (s : State) (d : Dec) : (s.withDec d).par = s.par := rfl
@[simp] theorem withDec_enc (s : State) (d : Dec) : (s.withDec d).enc = s.enc := rfl
@[simp] theorem withDec_dec (s : State) (d : Dec) : (s.withDec d).dec = d := rfl
@[simp] theorem withDec_pixin (s : State) (d : Dec) : (s.withDec d).pixin = s.pixin := rfl
@[simp] theorem withDec_pixout (s : State) (d : Dec) : (s.withDec d).pixout = s.pixout := rfl
@[simp] theorem withDec_src (s : State) (d : Dec) : (s.withDec d).src = s.src := rfl
@[simp] theorem withDec_sink (s : State) (d : Dec) : (s.withDec d).sink = s.sink := rfl
@[simp] theorem withDec_agenda (s : State) (d : Dec) : (s.withDec d).agenda = s.agenda := rfl
@[simp] theorem withDec_turn (s : State) (d : Dec) : (s.withDec d).turn = s.turn := rfl
@[simp] theorem withDec_fresh (s : State) (d : Dec) : (s.withDec d).fresh = s.fresh := rfl

/-! ## `State.takeByte`: RD's position and `DEC.SPOS` move on by one -/

@[simp] theorem takeByte_par (s : State) : s.takeByte.par = s.par := rfl
@[simp] theorem takeByte_enc (s : State) : s.takeByte.enc = s.enc := rfl
@[simp] theorem takeByte_pixin (s : State) : s.takeByte.pixin = s.pixin := rfl
@[simp] theorem takeByte_pixout (s : State) : s.takeByte.pixout = s.pixout := rfl
@[simp] theorem takeByte_src (s : State) : s.takeByte.src = s.src := rfl
@[simp] theorem takeByte_sink (s : State) : s.takeByte.sink = s.sink := rfl
@[simp] theorem takeByte_agenda (s : State) : s.takeByte.agenda = s.agenda := rfl
@[simp] theorem takeByte_turn (s : State) : s.takeByte.turn = s.turn := rfl
@[simp] theorem takeByte_fresh (s : State) : s.takeByte.fresh = s.fresh := rfl
@[simp] theorem takeByte_dec_req (s : State) : s.takeByte.dec.req = s.dec.req := rfl
@[simp] theorem takeByte_dec_hdr (s : State) : s.takeByte.dec.hdr = s.dec.hdr := rfl
@[simp] theorem takeByte_dec_och (s : State) : s.takeByte.dec.och = s.dec.och := rfl
@[simp] theorem takeByte_dec_phase (s : State) : s.takeByte.dec.phase = s.dec.phase := rfl
@[simp] theorem takeByte_dec_status (s : State) : s.takeByte.dec.status = s.dec.status := rfl
@[simp] theorem takeByte_dec_prev (s : State) : s.takeByte.dec.prev = s.dec.prev := rfl
@[simp] theorem takeByte_dec_wcur (s : State) : s.takeByte.dec.wcur = s.dec.wcur := rfl
@[simp] theorem takeByte_dec_npix (s : State) : s.takeByte.dec.npix = s.dec.npix := rfl
@[simp] theorem takeByte_dec_spos (s : State) : s.takeByte.dec.spos = s.dec.spos + 1 := rfl
@[simp] theorem takeByte_dec_cache (s : State) : s.takeByte.dec.cache = s.dec.cache := rfl
@[simp] theorem takeByte_dec_rd (s : State) : s.takeByte.dec.rd = { s.dec.rd with pos := s.dec.rd.pos + 1 } := rfl
@[simp] theorem takeByte_dec_pend (s : State) : s.takeByte.dec.pend = s.dec.pend := rfl

/-! ## `State.withPend`: the bytes of the unit in progress -/

@[simp] theorem withPend_par (s : State) (bs : List Byte) : (s.withPend bs).par = s.par := rfl
@[simp] theorem withPend_enc (s : State) (bs : List Byte) : (s.withPend bs).enc = s.enc := rfl
@[simp] theorem withPend_pixin (s : State) (bs : List Byte) : (s.withPend bs).pixin = s.pixin := rfl
@[simp] theorem withPend_pixout (s : State) (bs : List Byte) : (s.withPend bs).pixout = s.pixout := rfl
@[simp] theorem withPend_src (s : State) (bs : List Byte) : (s.withPend bs).src = s.src := rfl
@[simp] theorem withPend_sink (s : State) (bs : List Byte) : (s.withPend bs).sink = s.sink := rfl
@[simp] theorem withPend_agenda (s : State) (bs : List Byte) : (s.withPend bs).agenda = s.agenda := rfl
@[simp] theorem withPend_turn (s : State) (bs : List Byte) : (s.withPend bs).turn = s.turn := rfl
@[simp] theorem withPend_fresh (s : State) (bs : List Byte) : (s.withPend bs).fresh = s.fresh := rfl
@[simp] theorem withPend_dec_req (s : State) (bs : List Byte) : (s.withPend bs).dec.req = s.dec.req := rfl
@[simp] theorem withPend_dec_hdr (s : State) (bs : List Byte) : (s.withPend bs).dec.hdr = s.dec.hdr := rfl
@[simp] theorem withPend_dec_och (s : State) (bs : List Byte) : (s.withPend bs).dec.och = s.dec.och := rfl
@[simp] theorem withPend_dec_phase (s : State) (bs : List Byte) : (s.withPend bs).dec.phase = s.dec.phase := rfl
@[simp] theorem withPend_dec_status (s : State) (bs : List Byte) : (s.withPend bs).dec.status = s.dec.status := rfl
@[simp] theorem withPend_dec_prev (s : State) (bs : List Byte) : (s.withPend bs).dec.prev = s.dec.prev := rfl
@[simp] theorem withPend_dec_wcur (s : State) (bs : List Byte) : (s.withPend bs).dec.wcur = s.dec.wcur := rfl
@[simp] theorem withPend_dec_npix (s : State) (bs : List Byte) : (s.withPend bs).dec.npix = s.dec.npix := rfl
@[simp] theorem withPend_dec_spos (s : State) (bs : List Byte) : (s.withPend bs).dec.spos = s.dec.spos := rfl
@[simp] theorem withPend_dec_cache (s : State) (bs : List Byte) : (s.withPend bs).dec.cache = s.dec.cache := rfl
@[simp] theorem withPend_dec_rd (s : State) (bs : List Byte) : (s.withPend bs).dec.rd = s.dec.rd := rfl
@[simp] theorem withPend_dec_pend (s : State) (bs : List Byte) : (s.withPend bs).dec.pend = bs := rfl

/-! ## `State.putByte`: a byte into WR's buffer -/

@[simp] theorem putByte_par (s : State) (b : Byte) : (s.putByte b).par = s.par := rfl
@[simp] theorem putByte_dec (s : State) (b : Byte) : (s.putByte b).dec = s.dec := rfl
@[simp] theorem putByte_pixin (s : State) (b : Byte) : (s.putByte b).pixin = s.pixin := rfl
@[simp] theorem putByte_pixout (s : State) (b : Byte) : (s.putByte b).pixout = s.pixout := rfl
@[simp] theorem putByte_src (s : State) (b : Byte) : (s.putByte b).src = s.src := rfl
@[simp] theorem putByte_sink (s : State) (b : Byte) : (s.putByte b).sink = s.sink := rfl
@[simp] theorem putByte_agenda (s : State) (b : Byte) : (s.putByte b).agenda = s.agenda := rfl
@[simp] theorem putByte_turn (s : State) (b : Byte) : (s.putByte b).turn = s.turn := rfl
@[simp] theorem putByte_fresh (s : State) (b : Byte) : (s.putByte b).fresh = s.fresh := rfl
@[simp] theorem putByte_enc_cfg (s : State) (b : Byte) : (s.putByte b).enc.cfg = s.enc.cfg := rfl
@[simp] theorem putByte_enc_phase (s : State) (b : Byte) : (s.putByte b).enc.phase = s.enc.phase := rfl
@[simp] theorem putByte_enc_status (s : State) (b : Byte) : (s.putByte b).enc.status = s.enc.status := rfl
@[simp] theorem putByte_enc_prev (s : State) (b : Byte) : (s.putByte b).enc.prev = s.enc.prev := rfl
@[simp] theorem putByte_enc_run (s : State) (b : Byte) : (s.putByte b).enc.run = s.enc.run := rfl
@[simp] theorem putByte_enc_pix (s : State) (b : Byte) : (s.putByte b).enc.pix = s.enc.pix := rfl
@[simp] theorem putByte_enc_npix (s : State) (b : Byte) : (s.putByte b).enc.npix = s.enc.npix := rfl
@[simp] theorem putByte_enc_epos (s : State) (b : Byte) : (s.putByte b).enc.epos = s.enc.epos + 1 := rfl
@[simp] theorem putByte_enc_cache (s : State) (b : Byte) : (s.putByte b).enc.cache = s.enc.cache := rfl
@[simp] theorem putByte_enc_wr (s : State) (b : Byte) : (s.putByte b).enc.wr = { s.enc.wr with buf := s.enc.wr.buf ++ [b] } := rfl
@[simp] theorem putByte_enc_sent (s : State) (b : Byte) : (s.putByte b).enc.sent = s.enc.sent + 1 := rfl

/-! ## `raiseEnc`: `PHASE` and `STATUS` and nothing else (60_exceptions.md rule R310) -/

@[simp] theorem raiseEnc_par (e : Err) (s : State) : (raiseEnc e s).par = s.par := rfl
@[simp] theorem raiseEnc_dec (e : Err) (s : State) : (raiseEnc e s).dec = s.dec := rfl
@[simp] theorem raiseEnc_pixin (e : Err) (s : State) : (raiseEnc e s).pixin = s.pixin := rfl
@[simp] theorem raiseEnc_pixout (e : Err) (s : State) : (raiseEnc e s).pixout = s.pixout := rfl
@[simp] theorem raiseEnc_src (e : Err) (s : State) : (raiseEnc e s).src = s.src := rfl
@[simp] theorem raiseEnc_sink (e : Err) (s : State) : (raiseEnc e s).sink = s.sink := rfl
@[simp] theorem raiseEnc_agenda (e : Err) (s : State) : (raiseEnc e s).agenda = s.agenda := rfl
@[simp] theorem raiseEnc_turn (e : Err) (s : State) : (raiseEnc e s).turn = s.turn := rfl
@[simp] theorem raiseEnc_fresh (e : Err) (s : State) : (raiseEnc e s).fresh = s.fresh := rfl
@[simp] theorem raiseEnc_enc_cfg (e : Err) (s : State) : (raiseEnc e s).enc.cfg = s.enc.cfg := rfl
@[simp] theorem raiseEnc_enc_phase (e : Err) (s : State) : (raiseEnc e s).enc.phase = .failed := rfl
@[simp] theorem raiseEnc_enc_status (e : Err) (s : State) : (raiseEnc e s).enc.status = e.status := rfl
@[simp] theorem raiseEnc_enc_prev (e : Err) (s : State) : (raiseEnc e s).enc.prev = s.enc.prev := rfl
@[simp] theorem raiseEnc_enc_run (e : Err) (s : State) : (raiseEnc e s).enc.run = s.enc.run := rfl
@[simp] theorem raiseEnc_enc_pix (e : Err) (s : State) : (raiseEnc e s).enc.pix = s.enc.pix := rfl
@[simp] theorem raiseEnc_enc_npix (e : Err) (s : State) : (raiseEnc e s).enc.npix = s.enc.npix := rfl
@[simp] theorem raiseEnc_enc_epos (e : Err) (s : State) : (raiseEnc e s).enc.epos = s.enc.epos := rfl
@[simp] theorem raiseEnc_enc_cache (e : Err) (s : State) : (raiseEnc e s).enc.cache = s.enc.cache := rfl
@[simp] theorem raiseEnc_enc_wr (e : Err) (s : State) : (raiseEnc e s).enc.wr = s.enc.wr := rfl
@[simp] theorem raiseEnc_enc_sent (e : Err) (s : State) : (raiseEnc e s).enc.sent = s.enc.sent := rfl

/-! ## `raiseDec`: `PHASE` and `STATUS` and nothing else (60_exceptions.md rule R310) -/

@[simp] theorem raiseDec_par (e : Err) (s : State) : (raiseDec e s).par = s.par := rfl
@[simp] theorem raiseDec_enc (e : Err) (s : State) : (raiseDec e s).enc = s.enc := rfl
@[simp] theorem raiseDec_pixin (e : Err) (s : State) : (raiseDec e s).pixin = s.pixin := rfl
@[simp] theorem raiseDec_pixout (e : Err) (s : State) : (raiseDec e s).pixout = s.pixout := rfl
@[simp] theorem raiseDec_src (e : Err) (s : State) : (raiseDec e s).src = s.src := rfl
@[simp] theorem raiseDec_sink (e : Err) (s : State) : (raiseDec e s).sink = s.sink := rfl
@[simp] theorem raiseDec_agenda (e : Err) (s : State) : (raiseDec e s).agenda = s.agenda := rfl
@[simp] theorem raiseDec_turn (e : Err) (s : State) : (raiseDec e s).turn = s.turn := rfl
@[simp] theorem raiseDec_fresh (e : Err) (s : State) : (raiseDec e s).fresh = s.fresh := rfl
@[simp] theorem raiseDec_dec_req (e : Err) (s : State) : (raiseDec e s).dec.req = s.dec.req := rfl
@[simp] theorem raiseDec_dec_hdr (e : Err) (s : State) : (raiseDec e s).dec.hdr = s.dec.hdr := rfl
@[simp] theorem raiseDec_dec_och (e : Err) (s : State) : (raiseDec e s).dec.och = s.dec.och := rfl
@[simp] theorem raiseDec_dec_phase (e : Err) (s : State) : (raiseDec e s).dec.phase = .failed := rfl
@[simp] theorem raiseDec_dec_status (e : Err) (s : State) : (raiseDec e s).dec.status = e.status := rfl
@[simp] theorem raiseDec_dec_prev (e : Err) (s : State) : (raiseDec e s).dec.prev = s.dec.prev := rfl
@[simp] theorem raiseDec_dec_wcur (e : Err) (s : State) : (raiseDec e s).dec.wcur = s.dec.wcur := rfl
@[simp] theorem raiseDec_dec_npix (e : Err) (s : State) : (raiseDec e s).dec.npix = s.dec.npix := rfl
@[simp] theorem raiseDec_dec_spos (e : Err) (s : State) : (raiseDec e s).dec.spos = s.dec.spos := rfl
@[simp] theorem raiseDec_dec_cache (e : Err) (s : State) : (raiseDec e s).dec.cache = s.dec.cache := rfl
@[simp] theorem raiseDec_dec_rd (e : Err) (s : State) : (raiseDec e s).dec.rd = s.dec.rd := rfl
@[simp] theorem raiseDec_dec_pend (e : Err) (s : State) : (raiseDec e s).dec.pend = s.dec.pend := rfl

/-! ## `finishEnc`: a call that ends well -/

@[simp] theorem finishEnc_par (s : State) : (finishEnc s).par = s.par := rfl
@[simp] theorem finishEnc_dec (s : State) : (finishEnc s).dec = s.dec := rfl
@[simp] theorem finishEnc_pixin (s : State) : (finishEnc s).pixin = s.pixin := rfl
@[simp] theorem finishEnc_pixout (s : State) : (finishEnc s).pixout = s.pixout := rfl
@[simp] theorem finishEnc_src (s : State) : (finishEnc s).src = s.src := rfl
@[simp] theorem finishEnc_sink (s : State) : (finishEnc s).sink = s.sink := rfl
@[simp] theorem finishEnc_agenda (s : State) : (finishEnc s).agenda = s.agenda := rfl
@[simp] theorem finishEnc_turn (s : State) : (finishEnc s).turn = s.turn := rfl
@[simp] theorem finishEnc_fresh (s : State) : (finishEnc s).fresh = s.fresh := rfl
@[simp] theorem finishEnc_enc_cfg (s : State) : (finishEnc s).enc.cfg = s.enc.cfg := rfl
@[simp] theorem finishEnc_enc_phase (s : State) : (finishEnc s).enc.phase = .done := rfl
@[simp] theorem finishEnc_enc_status (s : State) : (finishEnc s).enc.status = { s.enc.status with busy := false } := rfl
@[simp] theorem finishEnc_enc_prev (s : State) : (finishEnc s).enc.prev = s.enc.prev := rfl
@[simp] theorem finishEnc_enc_run (s : State) : (finishEnc s).enc.run = s.enc.run := rfl
@[simp] theorem finishEnc_enc_pix (s : State) : (finishEnc s).enc.pix = s.enc.pix := rfl
@[simp] theorem finishEnc_enc_npix (s : State) : (finishEnc s).enc.npix = s.enc.npix := rfl
@[simp] theorem finishEnc_enc_epos (s : State) : (finishEnc s).enc.epos = s.enc.epos := rfl
@[simp] theorem finishEnc_enc_cache (s : State) : (finishEnc s).enc.cache = s.enc.cache := rfl
@[simp] theorem finishEnc_enc_wr (s : State) : (finishEnc s).enc.wr = s.enc.wr := rfl
@[simp] theorem finishEnc_enc_sent (s : State) : (finishEnc s).enc.sent = s.enc.sent := rfl

/-! ## `finishDec`: a call that ends well -/

@[simp] theorem finishDec_par (s : State) : (finishDec s).par = s.par := rfl
@[simp] theorem finishDec_enc (s : State) : (finishDec s).enc = s.enc := rfl
@[simp] theorem finishDec_pixin (s : State) : (finishDec s).pixin = s.pixin := rfl
@[simp] theorem finishDec_pixout (s : State) : (finishDec s).pixout = s.pixout := rfl
@[simp] theorem finishDec_src (s : State) : (finishDec s).src = s.src := rfl
@[simp] theorem finishDec_sink (s : State) : (finishDec s).sink = s.sink := rfl
@[simp] theorem finishDec_agenda (s : State) : (finishDec s).agenda = s.agenda := rfl
@[simp] theorem finishDec_turn (s : State) : (finishDec s).turn = s.turn := rfl
@[simp] theorem finishDec_fresh (s : State) : (finishDec s).fresh = s.fresh := rfl
@[simp] theorem finishDec_dec_req (s : State) : (finishDec s).dec.req = s.dec.req := rfl
@[simp] theorem finishDec_dec_hdr (s : State) : (finishDec s).dec.hdr = s.dec.hdr := rfl
@[simp] theorem finishDec_dec_och (s : State) : (finishDec s).dec.och = s.dec.och := rfl
@[simp] theorem finishDec_dec_phase (s : State) : (finishDec s).dec.phase = .done := rfl
@[simp] theorem finishDec_dec_status (s : State) : (finishDec s).dec.status = { s.dec.status with busy := false } := rfl
@[simp] theorem finishDec_dec_prev (s : State) : (finishDec s).dec.prev = s.dec.prev := rfl
@[simp] theorem finishDec_dec_wcur (s : State) : (finishDec s).dec.wcur = s.dec.wcur := rfl
@[simp] theorem finishDec_dec_npix (s : State) : (finishDec s).dec.npix = s.dec.npix := rfl
@[simp] theorem finishDec_dec_spos (s : State) : (finishDec s).dec.spos = s.dec.spos := rfl
@[simp] theorem finishDec_dec_cache (s : State) : (finishDec s).dec.cache = s.dec.cache := rfl
@[simp] theorem finishDec_dec_rd (s : State) : (finishDec s).dec.rd = s.dec.rd := rfl
@[simp] theorem finishDec_dec_pend (s : State) : (finishDec s).dec.pend = s.dec.pend := rfl

/-! ## `outPixel`: one pixel out -/

@[simp] theorem outPixel_par (p : Pixel) (s : State) : (outPixel p s).par = s.par := rfl
@[simp] theorem outPixel_enc (p : Pixel) (s : State) : (outPixel p s).enc = s.enc := rfl
@[simp] theorem outPixel_pixin (p : Pixel) (s : State) : (outPixel p s).pixin = s.pixin := rfl
@[simp] theorem outPixel_pixout (p : Pixel) (s : State) : (outPixel p s).pixout =
    memWrite s.pixout (s.dec.wcur * outWidth s.dec.och) (pixelBytes p (outWidth s.dec.och)) := rfl
@[simp] theorem outPixel_src (p : Pixel) (s : State) : (outPixel p s).src = s.src := rfl
@[simp] theorem outPixel_sink (p : Pixel) (s : State) : (outPixel p s).sink = s.sink := rfl
@[simp] theorem outPixel_agenda (p : Pixel) (s : State) : (outPixel p s).agenda = s.agenda := rfl
@[simp] theorem outPixel_turn (p : Pixel) (s : State) : (outPixel p s).turn = s.turn := rfl
@[simp] theorem outPixel_fresh (p : Pixel) (s : State) : (outPixel p s).fresh = s.fresh := rfl
@[simp] theorem outPixel_dec_req (p : Pixel) (s : State) : (outPixel p s).dec.req = s.dec.req := rfl
@[simp] theorem outPixel_dec_hdr (p : Pixel) (s : State) : (outPixel p s).dec.hdr = s.dec.hdr := rfl
@[simp] theorem outPixel_dec_och (p : Pixel) (s : State) : (outPixel p s).dec.och = s.dec.och := rfl
@[simp] theorem outPixel_dec_phase (p : Pixel) (s : State) : (outPixel p s).dec.phase = s.dec.phase := rfl
@[simp] theorem outPixel_dec_status (p : Pixel) (s : State) : (outPixel p s).dec.status = s.dec.status := rfl
@[simp] theorem outPixel_dec_prev (p : Pixel) (s : State) : (outPixel p s).dec.prev = s.dec.prev := rfl
@[simp] theorem outPixel_dec_wcur (p : Pixel) (s : State) : (outPixel p s).dec.wcur = s.dec.wcur + 1 := rfl
@[simp] theorem outPixel_dec_npix (p : Pixel) (s : State) : (outPixel p s).dec.npix = s.dec.npix := rfl
@[simp] theorem outPixel_dec_spos (p : Pixel) (s : State) : (outPixel p s).dec.spos = s.dec.spos := rfl
@[simp] theorem outPixel_dec_cache (p : Pixel) (s : State) : (outPixel p s).dec.cache = s.dec.cache := rfl
@[simp] theorem outPixel_dec_rd (p : Pixel) (s : State) : (outPixel p s).dec.rd = s.dec.rd := rfl
@[simp] theorem outPixel_dec_pend (p : Pixel) (s : State) : (outPixel p s).dec.pend = s.dec.pend := rfl

/-! ## `acceptHeader`: the header registers (41_header_trailer.md rule R162) -/

@[simp] theorem acceptHeader_par (w h : Word) (c cs : Byte) (s : State) : (acceptHeader w h c cs s).par = s.par := rfl
@[simp] theorem acceptHeader_enc (w h : Word) (c cs : Byte) (s : State) : (acceptHeader w h c cs s).enc = s.enc := rfl
@[simp] theorem acceptHeader_pixin (w h : Word) (c cs : Byte) (s : State) : (acceptHeader w h c cs s).pixin = s.pixin := rfl
@[simp] theorem acceptHeader_pixout (w h : Word) (c cs : Byte) (s : State) : (acceptHeader w h c cs s).pixout = [] := rfl
@[simp] theorem acceptHeader_src (w h : Word) (c cs : Byte) (s : State) : (acceptHeader w h c cs s).src = s.src := rfl
@[simp] theorem acceptHeader_sink (w h : Word) (c cs : Byte) (s : State) : (acceptHeader w h c cs s).sink = s.sink := rfl
@[simp] theorem acceptHeader_agenda (w h : Word) (c cs : Byte) (s : State) : (acceptHeader w h c cs s).agenda = s.agenda := rfl
@[simp] theorem acceptHeader_turn (w h : Word) (c cs : Byte) (s : State) : (acceptHeader w h c cs s).turn = s.turn := rfl
@[simp] theorem acceptHeader_fresh (w h : Word) (c cs : Byte) (s : State) : (acceptHeader w h c cs s).fresh = s.fresh := rfl
@[simp] theorem acceptHeader_dec_req (w h : Word) (c cs : Byte) (s : State) :
    (acceptHeader w h c cs s).dec.req = s.dec.req := rfl
@[simp] theorem acceptHeader_dec_hdr (w h : Word) (c cs : Byte) (s : State) :
    (acceptHeader w h c cs s).dec.hdr = ⟨w, h, c, cs⟩ := rfl
@[simp] theorem acceptHeader_dec_och (w h : Word) (c cs : Byte) (s : State) :
    (acceptHeader w h c cs s).dec.och = outputChannels s.dec.req c := rfl
@[simp] theorem acceptHeader_dec_phase (w h : Word) (c cs : Byte) (s : State) :
    (acceptHeader w h c cs s).dec.phase = .body := rfl
@[simp] theorem acceptHeader_dec_status (w h : Word) (c cs : Byte) (s : State) :
    (acceptHeader w h c cs s).dec.status = s.dec.status := rfl
@[simp] theorem acceptHeader_dec_prev (w h : Word) (c cs : Byte) (s : State) :
    (acceptHeader w h c cs s).dec.prev = s.dec.prev := rfl
@[simp] theorem acceptHeader_dec_wcur (w h : Word) (c cs : Byte) (s : State) :
    (acceptHeader w h c cs s).dec.wcur = s.dec.wcur := rfl
@[simp] theorem acceptHeader_dec_npix (w h : Word) (c cs : Byte) (s : State) :
    (acceptHeader w h c cs s).dec.npix = w.toNat * h.toNat := rfl
@[simp] theorem acceptHeader_dec_spos (w h : Word) (c cs : Byte) (s : State) :
    (acceptHeader w h c cs s).dec.spos = s.dec.spos := rfl
@[simp] theorem acceptHeader_dec_cache (w h : Word) (c cs : Byte) (s : State) :
    (acceptHeader w h c cs s).dec.cache = s.dec.cache := rfl
@[simp] theorem acceptHeader_dec_rd (w h : Word) (c cs : Byte) (s : State) :
    (acceptHeader w h c cs s).dec.rd = s.dec.rd := rfl
@[simp] theorem acceptHeader_dec_pend (w h : Word) (c cs : Byte) (s : State) :
    (acceptHeader w h c cs s).dec.pend = s.dec.pend := rfl

/-! ## `commitPixel`: ENC after a pixel step (43_encoder.md rule R230) -/

@[simp] theorem commitPixel_par (f : PixelEffect) (last : Bool) (s : State) : (commitPixel f last s).par = s.par := rfl
@[simp] theorem commitPixel_dec (f : PixelEffect) (last : Bool) (s : State) : (commitPixel f last s).dec = s.dec := rfl
@[simp] theorem commitPixel_pixin (f : PixelEffect) (last : Bool) (s : State) : (commitPixel f last s).pixin = s.pixin := rfl
@[simp] theorem commitPixel_pixout (f : PixelEffect) (last : Bool) (s : State) : (commitPixel f last s).pixout = s.pixout := rfl
@[simp] theorem commitPixel_src (f : PixelEffect) (last : Bool) (s : State) : (commitPixel f last s).src = s.src := rfl
@[simp] theorem commitPixel_sink (f : PixelEffect) (last : Bool) (s : State) : (commitPixel f last s).sink = s.sink := rfl
@[simp] theorem commitPixel_agenda (f : PixelEffect) (last : Bool) (s : State) : (commitPixel f last s).agenda = s.agenda := rfl
@[simp] theorem commitPixel_turn (f : PixelEffect) (last : Bool) (s : State) : (commitPixel f last s).turn = s.turn := rfl
@[simp] theorem commitPixel_fresh (f : PixelEffect) (last : Bool) (s : State) : (commitPixel f last s).fresh = s.fresh := rfl
@[simp] theorem commitPixel_enc_cfg (f : PixelEffect) (last : Bool) (s : State) :
    (commitPixel f last s).enc.cfg = s.enc.cfg := rfl
@[simp] theorem commitPixel_enc_phase (f : PixelEffect) (last : Bool) (s : State) :
    (commitPixel f last s).enc.phase = if last then .trailer else s.enc.phase := rfl
@[simp] theorem commitPixel_enc_status (f : PixelEffect) (last : Bool) (s : State) :
    (commitPixel f last s).enc.status = s.enc.status := rfl
@[simp] theorem commitPixel_enc_prev (f : PixelEffect) (last : Bool) (s : State) :
    (commitPixel f last s).enc.prev = f.prev := rfl
@[simp] theorem commitPixel_enc_run (f : PixelEffect) (last : Bool) (s : State) :
    (commitPixel f last s).enc.run = f.run := rfl
@[simp] theorem commitPixel_enc_pix (f : PixelEffect) (last : Bool) (s : State) :
    (commitPixel f last s).enc.pix = s.enc.pix + 1 := rfl
@[simp] theorem commitPixel_enc_npix (f : PixelEffect) (last : Bool) (s : State) :
    (commitPixel f last s).enc.npix = s.enc.npix := rfl
@[simp] theorem commitPixel_enc_epos (f : PixelEffect) (last : Bool) (s : State) :
    (commitPixel f last s).enc.epos = s.enc.epos := rfl
@[simp] theorem commitPixel_enc_cache (f : PixelEffect) (last : Bool) (s : State) :
    (commitPixel f last s).enc.cache = f.cache := rfl
@[simp] theorem commitPixel_enc_wr (f : PixelEffect) (last : Bool) (s : State) :
    (commitPixel f last s).enc.wr = s.enc.wr := rfl
@[simp] theorem commitPixel_enc_sent (f : PixelEffect) (last : Bool) (s : State) :
    (commitPixel f last s).enc.sent = 0 := rfl

/-- A next state is determined by its outcome. -/
theorem next_inj {a b : State} (h : (Host.Outcome.next a : Result) = .next b) : a = b := by injection h

end Sys2Proof.Machine
end

