-- ==== Sys2Proof/Laws/Cache.lean ====
section
/-! SUPPORT. The laws of the pixel cache (42_pixel_cache.md rules R191 to R196). -/

namespace Sys2Proof.Machine

/-- The hash is the slot number of rule R191. -/
theorem hash_toNat (p : Pixel) : (hash p).toNat = slotNumber p := by
  simp [hash, slotNumber]

/-- A lookup after a store: the stored slot gives the stored pixel, every other slot what it held (rules R193, R194). -/
theorem cacheLookup_cacheStore (cache : Cache) (i j : Slot) (p : Pixel) :
    cacheLookup (cacheStore cache i p) j = if i = j then p else cacheLookup cache j := by
  unfold cacheLookup cacheStore
  by_cases h : i = j
  · subst h; simp
  · have : i.toNat ≠ j.toNat := fun e => h (BitVec.eq_of_toNat_eq e)
    simp [h, this]

@[simp] theorem cacheLookup_cacheStore_same (cache : Cache) (i : Slot) (p : Pixel) :
    cacheLookup (cacheStore cache i p) i = p := by simp [cacheLookup_cacheStore]

/-- A store of what a slot holds changes nothing (90_conflicts.md C6). -/
theorem cacheStore_self (cache : Cache) (i : Slot) : cacheStore cache i (cacheLookup cache i) = cache := by
  simp [cacheStore, cacheLookup]

/-- After a call reset every slot is (0,0,0,0) (rule R196). -/
@[simp] theorem cacheLookup_cacheReset (i : Slot) : cacheLookup cacheReset i = zeroPixel := by
  simp [cacheLookup, cacheReset]

/-- Two caches that agree on every slot are equal. -/
theorem cache_ext {c d : Cache} (h : ∀ i, cacheLookup c i = cacheLookup d i) : c = d := by
  apply Vector.ext
  intro i hi
  have := h (BitVec.ofNat 6 i)
  simpa [cacheLookup, Nat.mod_eq_of_lt hi] using this

/-- The cache update of a token, slot by slot (44_decoder.md rule R271). -/
theorem cacheLookup_storeIf (b : Bool) (p : Pixel) (cache : Cache) (j : Slot) :
    cacheLookup (storeIf b p cache) j = if b = true ∧ hash p = j then p else cacheLookup cache j := by
  cases b <;> simp [storeIf, cacheLookup_cacheStore]

end Sys2Proof.Machine
end

