-- ==== Sys2Proof/Laws/Delta.lean ====
section
/-! SUPPORT. The biased fields: a field made from a wrapped difference in its range gives the difference back (30_encoding.md
rule R103; 43_encoder.md rule R213; 44_decoder.md rules R267 and R268). -/

namespace Sys2Proof.Machine

/-- Cutting a byte below `2 ^ w` to `w` bits and widening it again gives it back. -/
theorem setWidth_setWidth_of_lt {w : Nat} (x : Byte) (h : x.toNat < 2 ^ w) : (x.setWidth w).setWidth 8 = x := by
  apply BitVec.eq_of_toNat_eq
  simp [Nat.mod_eq_of_lt h]
  exact x.isLt

/-- The DIFF field of a difference in range (rules R220 and R267). -/
theorem diffDelta_field {d : Byte} (h : inDiffRange d = true) : diffDelta ((d + diffBias).setWidth 2) = d := by
  have h' : (d + diffBias).toNat < 2 ^ 2 := by
    have := of_decide_eq_true h
    omega
  rw [diffDelta, setWidth_setWidth_of_lt _ h', BitVec.add_sub_cancel]

/-- The green LUMA field of a difference in range (rules R221 and R268). -/
theorem lumaGreenDelta_field {d : Byte} (h : inLumaGreenRange d = true) :
    lumaGreenDelta ((d + lumaGreenBias).setWidth 6) = d := by
  have h' : (d + lumaGreenBias).toNat < 2 ^ 6 := by
    have := of_decide_eq_true h
    omega
  rw [lumaGreenDelta, setWidth_setWidth_of_lt _ h', BitVec.add_sub_cancel]

/-- A relative LUMA field of a difference in range (rules R221 and R268). -/
theorem lumaRelDelta_field {d : Byte} (h : inLumaRelRange d = true) :
    lumaRelDelta ((d + lumaRelBias).setWidth 4) = d := by
  have h' : (d + lumaRelBias).toNat < 2 ^ 4 := by
    have := of_decide_eq_true h
    omega
  rw [lumaRelDelta, setWidth_setWidth_of_lt _ h', BitVec.add_sub_cancel]

/-- A byte plus the difference to another is the other, modulo 256. -/
theorem add_sub_self (a b : Byte) : a + (b - a) = b := by rw [BitVec.add_comm, BitVec.sub_add_cancel]

end Sys2Proof.Machine
end

