-- ==== Sys2Proof/Laws/Memory.lean ====
section
/-! SUPPORT. The laws of the byte memories: a read after a write, and the canonical form kept by every write. -/

namespace Sys2Proof.Machine

/-- A read after a write of one byte. -/
theorem memReadByte_memWriteByte (m : Memory) (a x : Nat) (v : Byte) :
    memReadByte (memWriteByte m a v) x = if a = x then some v else memReadByte m x := by
  induction m with
  | nil => simp [memWriteByte, memReadByte]
  | cons c m ih =>
    obtain ⟨y, b⟩ := c
    simp only [memWriteByte]
    split
    · simp only [memReadByte]
    · split
      · next h => subst h; simp only [memReadByte]; split <;> simp_all
      · simp only [memReadByte, ih]; split <;> split <;> simp_all

/-- Every address of a memory after a write of one byte is the written one or was there before. -/
theorem mem_memWriteByte {m : Memory} {a : Nat} {v : Byte} {c : Host.Cell} (h : c ∈ memWriteByte m a v) :
    c = (a, v) ∨ c ∈ m := by
  induction m with
  | nil => simp_all [memWriteByte]
  | cons d m ih =>
    obtain ⟨y, b⟩ := d
    simp only [memWriteByte] at h
    split at h
    · simp_all
    · split at h
      · simp_all; tauto
      · rcases List.mem_cons.mp h with rfl | h
        · simp
        · rcases ih h with rfl | h <;> simp_all

/-- A write of one byte keeps the canonical form. -/
theorem memWriteByte_wf {m : Memory} (h : m.wf) (a : Nat) (v : Byte) : (memWriteByte m a v).wf := by
  induction m with
  | nil => simp [memWriteByte, Memory.wf]
  | cons d m ih =>
    obtain ⟨y, b⟩ := d
    have hm : Memory.wf m := (List.pairwise_cons.mp h).2
    have hy : ∀ c ∈ m, y < c.1 := (List.pairwise_cons.mp h).1
    simp only [memWriteByte]
    split
    · next hlt =>
      refine List.pairwise_cons.mpr ⟨fun c hc => ?_, h⟩
      rcases List.mem_cons.mp hc with rfl | hc
      · exact hlt
      · exact lt_trans hlt (hy c hc)
    · split
      · next heq => subst heq; exact List.pairwise_cons.mpr ⟨hy, hm⟩
      · refine List.pairwise_cons.mpr ⟨fun c hc => ?_, ih hm⟩
        rcases mem_memWriteByte hc with rfl | hc
        · show y < a
          omega
        · exact hy c hc

/-- A write of several bytes keeps the canonical form. -/
theorem memWrite_wf {m : Memory} (h : m.wf) (addr : Nat) (v : List Byte) : (memWrite m addr v).wf := by
  induction v generalizing m addr with
  | nil => exact h
  | cons b bs ih => exact ih (memWriteByte_wf h addr b) (addr + 1)

/-- A read after a write of several bytes: inside the written range the written byte, elsewhere what was there. -/
theorem memReadByte_memWrite (m : Memory) (addr x : Nat) (v : List Byte) :
    memReadByte (memWrite m addr v) x =
      if addr ≤ x ∧ x < addr + v.length then v[x - addr]? else memReadByte m x := by
  induction v generalizing m addr with
  | nil => simp [memWrite]
  | cons b bs ih =>
    simp only [memWrite, ih, memReadByte_memWriteByte, List.length_cons]
    by_cases h1 : addr = x
    · subst h1
      simp
    · by_cases h2 : addr + 1 ≤ x ∧ x < addr + 1 + bs.length
      · rw [if_pos h2, if_pos (by omega), show x - addr = (x - (addr + 1)) + 1 by omega, List.getElem?_cons_succ]
      · rw [if_neg h2, if_neg h1, if_neg (by omega)]

/-- A read of several bytes, byte by byte. -/
theorem memRead_eq_some {m : Memory} {addr n : Nat} {v : List Byte} :
    memRead m addr n = some v ↔ v.length = n ∧ ∀ j < n, memReadByte m (addr + j) = v[j]? := by
  induction n generalizing addr v with
  | zero => cases v <;> simp [memRead]
  | succ n ih =>
    simp only [memRead]
    constructor
    · intro h
      split at h
      · next b bs hb hbs =>
        injection h with h
        subst h
        obtain ⟨hl, hr⟩ := ih.mp hbs
        refine ⟨by simp [hl], fun j hj => ?_⟩
        cases j with
        | zero => simpa using hb
        | succ j =>
          have := hr j (by omega)
          rw [List.getElem?_cons_succ, ← this, show addr + (j + 1) = addr + 1 + j by omega]
      · cases h
    · rintro ⟨hl, hr⟩
      cases v with
      | nil => simp at hl
      | cons b bs =>
        have h0 : memReadByte m addr = some b := by simpa using hr 0 (by omega)
        have h1 : memRead m (addr + 1) n = some bs := by
          refine ih.mpr ⟨by simpa using hl, fun j hj => ?_⟩
          have := hr (j + 1) (by omega)
          rw [List.getElem?_cons_succ] at this
          rw [← this, show addr + (j + 1) = addr + 1 + j by omega]
        simp [h0, h1]

end Sys2Proof.Machine
end

