-- ==== Sys2Proof/Laws/Token.lean ====
section
/-! SUPPORT. The token step in closed form: what `outPixels` and `tokenStep` do, said once. -/

namespace Sys2Proof.Machine

/-- `out` writes 3 or 4 bytes (44_decoder.md rule R275). -/
theorem outWidth_cases (och : Byte) : outWidth och = 3 ∨ outWidth och = 4 := by
  unfold outWidth; split <;> simp

/-- A pixel is written as so many bytes. -/
@[simp] theorem pixelBytes_length (p : Pixel) (och : Byte) : (pixelBytes p (outWidth och)).length = outWidth och := by
  rcases outWidth_cases och with h | h <;> simp [h, pixelBytes]

/-- What `outPixels` changes: the write cursor and `PIXOUT`. -/
theorem outPixels_frame (p : Pixel) (n : Nat) (s : State) :
    outPixels p n s =
      { s with dec := { s.dec with wcur := s.dec.wcur + n }, pixout := (outPixels p n s).pixout } := by
  induction n generalizing s with
  | zero => rfl
  | succ n ih =>
    simp only [outPixels]
    rw [ih (outPixel p s)]
    simp [outPixel, State.withDec, Nat.add_comm, Nat.add_left_comm]

@[simp] theorem outPixels_wcur (p : Pixel) (n : Nat) (s : State) :
    (outPixels p n s).dec.wcur = s.dec.wcur + n := by rw [outPixels_frame]

@[simp] theorem outPixels_npix (p : Pixel) (n : Nat) (s : State) :
    (outPixels p n s).dec.npix = s.dec.npix := by rw [outPixels_frame]

/-- `outPixels` keeps the canonical form of `PIXOUT`. -/
theorem outPixels_wf (p : Pixel) (n : Nat) {s : State} (h : s.pixout.wf) : (outPixels p n s).pixout.wf := by
  induction n generalizing s with
  | zero => exact h
  | succ n ih => exact ih (by simpa using memWrite_wf h _ _)

/-- `PIXOUT` after `n` pixels: inside the written range byte `a` is the channel of `p` that falls there, elsewhere the
byte that was there (44_decoder.md rules R275 and R276). -/
theorem memReadByte_outPixels (p : Pixel) (n : Nat) (s : State) (a : Nat) :
    memReadByte (outPixels p n s).pixout a =
      if s.dec.wcur * outWidth s.dec.och ≤ a ∧ a < (s.dec.wcur + n) * outWidth s.dec.och then
        (pixelBytes p (outWidth s.dec.och))[a % outWidth s.dec.och]?
      else memReadByte s.pixout a := by
  induction n generalizing s with
  | zero => simp [outPixels]
  | succ n ih =>
    simp only [outPixels, ih, outPixel_dec_wcur, outPixel_dec_och, outPixel_pixout, memReadByte_memWrite,
      pixelBytes_length]
    set w := outWidth s.dec.och with hw
    have hw0 : 0 < w := by rcases outWidth_cases s.dec.och with h | h <;> omega
    have e1 : (s.dec.wcur + 1) * w = s.dec.wcur * w + w := by ring
    have e2 : (s.dec.wcur + 1 + n) * w = (s.dec.wcur + (n + 1)) * w := by ring
    have e3 : s.dec.wcur * w + w ≤ (s.dec.wcur + (n + 1)) * w := by
      have : s.dec.wcur + 1 ≤ s.dec.wcur + (n + 1) := by omega
      calc s.dec.wcur * w + w = (s.dec.wcur + 1) * w := by ring
        _ ≤ _ := Nat.mul_le_mul_right w this
    rw [e1, e2]
    by_cases h1 : s.dec.wcur * w + w ≤ a ∧ a < (s.dec.wcur + (n + 1)) * w
    · rw [if_pos h1, if_pos ⟨by omega, h1.2⟩]
    · rw [if_neg h1]
      by_cases h2 : s.dec.wcur * w ≤ a ∧ a < s.dec.wcur * w + w
      · rw [if_pos h2, if_pos ⟨h2.1, by omega⟩]
        have : a % w = a - s.dec.wcur * w := by
          have : a = (a - s.dec.wcur * w) + w * s.dec.wcur := by rw [Nat.mul_comm w]; omega
          rw [this, Nat.add_mul_mod_self_left, Nat.mod_eq_of_lt (by omega), ← this]
        rw [this]
      · rw [if_neg h2, if_neg (by omega)]

/-- The state after a token: `p` is the pixel before the alpha policy, `q` the one after it. -/
def afterToken (p : Pixel) (store : Bool) (k : Nat) (s : State) : State :=
  let q := alphaPolicy s p
  let n := min k (s.dec.npix - s.dec.wcur)
  { s with
    dec := { s.dec with
      prev := q
      cache := storeIf store q s.dec.cache
      wcur := s.dec.wcur + n
      phase := if s.dec.wcur + n = s.dec.npix then .trailer else .body }
    pixout := (outPixels q n s).pixout }

/-- Pixels out do not look at `PREV` or the cache. -/
theorem outPixels_pixout_congr (p : Pixel) (n : Nat) {s t : State} (h1 : s.pixout = t.pixout)
    (h2 : s.dec.wcur = t.dec.wcur) (h3 : s.dec.och = t.dec.och) :
    (outPixels p n s).pixout = (outPixels p n t).pixout := by
  induction n generalizing s t with
  | zero => exact h1
  | succ n ih => exact ih (by simp [h1, h2, h3]) (by simp [h2]) (by simp [h3])

/-- The token step, said once: in its precondition it answers `afterToken`, outside it stops. -/
theorem tokenStep_eq (p : Pixel) (store : Bool) (k : Nat) (s : State) :
    tokenStep p store k s =
      if s.tokenReady then .next (afterToken p store k s) else .fault .tokenOutsideBody := by
  unfold tokenStep
  split
  · next h =>
    simp only [endBody, outPixels_wcur, outPixels_npix, withDec_dec]
    have hp := outPixels_pixout_congr (alphaPolicy s p) (min k (s.dec.npix - s.dec.wcur))
      (s := s.withDec { s.dec with cache := storeIf store (alphaPolicy s p) s.dec.cache, prev := alphaPolicy s p })
      (t := s) rfl rfl rfl
    split
    · next he => rw [outPixels_frame, hp]; simp [afterToken, State.withDec, he]
    · next he => rw [outPixels_frame, hp]; simp [afterToken, State.withDec, he, h.1]
  · rfl

/-- Every token that answers a next state was in its precondition and answers `afterToken`. -/
theorem tokenStep_next {p : Pixel} {store : Bool} {k : Nat} {s t : State} (h : tokenStep p store k s = .next t) :
    s.tokenReady ∧ t = afterToken p store k s := by
  rw [tokenStep_eq] at h
  split at h
  · next hr => injection h with h; exact ⟨hr, h.symm⟩
  · cases h

/-- `PIXOUT` after a token. -/
theorem memReadByte_afterToken (p : Pixel) (store : Bool) (k : Nat) (s : State) (a : Nat) :
    memReadByte (afterToken p store k s).pixout a =
      if s.dec.wcur * outWidth s.dec.och ≤ a ∧
          a < (s.dec.wcur + min k (s.dec.npix - s.dec.wcur)) * outWidth s.dec.och then
        (pixelBytes (alphaPolicy s p) (outWidth s.dec.och))[a % outWidth s.dec.och]?
      else memReadByte s.pixout a := memReadByte_outPixels _ _ _ _

/-- The resolved pixel of a token before the alpha policy (rules R264 to R269). -/
def resolved (i : Instr) (d : Dec) : Pixel :=
  match i with
  | .rgb r g b => rgbPixel d.prev r g b
  | .rgba r g b a => ⟨r, g, b, a⟩
  | .index idx => cacheLookup d.cache idx
  | .diff dr2 dg2 db2 => diffPixel d.prev dr2 dg2 db2
  | .luma dg32 drg8 dbg8 => lumaPixel d.prev dg32 drg8 dbg8
  | .run _ => d.prev
  | .header _ _ _ _ _ => d.prev
  | .trailer _ => d.prev

/-- The six tokens are one operation (44_decoder.md rule R280). -/
theorem exec_token {i : Instr} (h : i.record = .token) (s : State) :
    exec i s = tokenStep (resolved i s.dec) (tokenStores i) (tokenPixels i) s := by
  cases i <;> first | rfl | cases h

/-- Every token completes in its precondition. -/
theorem exec_token_ready {i : Instr} (h : i.record = .token) {s : State} (hr : s.tokenReady) :
    exec i s = .next (afterToken (resolved i s.dec) (tokenStores i) (tokenPixels i) s) := by
  rw [exec_token h, tokenStep_eq, if_pos hr]

/-- What a token that answers a next state did. -/
theorem exec_token_next {i : Instr} (h : i.record = .token) {s t : State} (ht : exec i s = .next t) :
    s.tokenReady ∧ t = afterToken (resolved i s.dec) (tokenStores i) (tokenPixels i) s := by
  rw [exec_token h] at ht; exact tokenStep_next ht

/-- Every token stands for at least one pixel. -/
theorem tokenPixels_pos {i : Instr} (h : i.record = .token) : 0 < tokenPixels i := by
  cases i <;> first | (cases h; done) | simp [tokenPixels]

/-- Under the alpha policy every pixel has alpha 255 (rule R270). -/
theorem alphaPolicy_forced {s : State} (h : s.forcesAlpha) (p : Pixel) : (alphaPolicy s p).a = 255#8 := by
  unfold alphaPolicy; rw [if_pos h]

/-- The alpha policy changes alpha only. -/
theorem alphaPolicy_eq (s : State) (p : Pixel) : alphaPolicy s p = { p with a := policedAlpha s p.a } := by
  unfold alphaPolicy policedAlpha; split <;> rfl

/-- The alpha policy leaves a pixel alone that it would give the same alpha. -/
theorem alphaPolicy_id {s : State} {p : Pixel} (h : s.forcesAlpha → p.a = 255#8) : alphaPolicy s p = p := by
  unfold alphaPolicy
  split
  · next hf => rw [← h hf]
  · rfl

/-- What a token leaves, register by register and byte by byte (rule R280). -/
theorem tokenResult_of {s : State} (hr : s.tokenReady) (p : Pixel) (st : Bool) (k : Nat) :
    TokenResult s (alphaPolicy s p) st (min k (s.dec.npix - s.dec.wcur)) (afterToken p st k s) := by
  refine ⟨rfl, fun i => ?_, rfl, rfl, fun j hj c hc => ?_⟩
  · show cacheLookup (storeIf st (alphaPolicy s p) s.dec.cache) i = _
    rw [cacheLookup_storeIf]
    have : hash (alphaPolicy s p) = i ↔ i.toNat = slotNumber (alphaPolicy s p) := by
      rw [← hash_toNat]
      exact ⟨fun h => by rw [h], fun h => BitVec.eq_of_toNat_eq h.symm⟩
    simp only [this]
  · rw [memReadByte_afterToken]
    have w0 := outWidth_cases s.dec.och
    generalize outWidth s.dec.och = w at *
    have l1 : s.dec.wcur * w ≤ (s.dec.wcur + j) * w + c := by
      have := Nat.mul_le_mul_right w (show s.dec.wcur ≤ s.dec.wcur + j by omega); omega
    have l2 : (s.dec.wcur + j) * w + c < (s.dec.wcur + min k (s.dec.npix - s.dec.wcur)) * w := by
      have := Nat.mul_le_mul_right w (show s.dec.wcur + j + 1 ≤ s.dec.wcur + min k (s.dec.npix - s.dec.wcur) by omega)
      have e : (s.dec.wcur + j + 1) * w = (s.dec.wcur + j) * w + w := by ring
      omega
    rw [if_pos ⟨l1, l2⟩, Nat.mul_comm _ w, Nat.mul_add_mod, Nat.mod_eq_of_lt hc]

/-- Every token, in its precondition: the next state and what it holds (rule R280). -/
theorem token_result {i : Instr} (h : i.record = .token) {s : State} (hr : s.tokenReady) :
    ∃ t, exec i s = .next t ∧
      TokenResult s (alphaPolicy s (resolved i s.dec)) (tokenStores i) (min (tokenPixels i) (s.dec.npix - s.dec.wcur))
      t :=
  ⟨_, exec_token_ready h hr, tokenResult_of hr _ _ _⟩

/-- There is room for one pixel. -/
theorem one_min {s : State} (hr : s.tokenReady) : min 1 (s.dec.npix - s.dec.wcur) = 1 := by
  have := hr.2; omega

/-- A token whose pixels all fit: the state after it, and the bytes of `PIXOUT` before and in its pixels. -/
theorem one_token {i : Instr} (hi : i.record = .token) {s : State} {q : Pixel} (hr : s.tokenReady) (hq : alphaPolicy s
    (resolved i s.dec) = q)
    (hk : s.dec.wcur + tokenPixels i ≤ s.dec.npix) :
    ∃ t, exec i s = .next t ∧ t.dec.prev = q ∧ t.dec.cache = storeIf (tokenStores i) q s.dec.cache ∧
      t.dec.wcur = s.dec.wcur + tokenPixels i ∧
      t.dec.phase = (if t.dec.wcur = t.dec.npix then .trailer else .body) ∧ t.dec.npix = s.dec.npix ∧
        t.dec.och = s.dec.och ∧ (t.forcesAlpha ↔ s.forcesAlpha) ∧ t.dec.status = s.dec.status ∧
      (∀ a, a < s.dec.wcur * outWidth s.dec.och → memReadByte t.pixout a = memReadByte s.pixout a) ∧
      (∀ j < tokenPixels i, ∀ c < outWidth s.dec.och,
        memReadByte t.pixout ((s.dec.wcur + j) * outWidth s.dec.och + c) = (pixelBytes q (outWidth s.dec.och))[c]?) :=
        by
  have hm : min (tokenPixels i) (s.dec.npix - s.dec.wcur) = tokenPixels i := by omega
  refine ⟨_, exec_token_ready hi hr, hq, ?_, ?_, ?_, rfl, rfl, Iff.rfl, rfl, fun a ha => ?_, fun j hj c hc => ?_⟩
  · show storeIf _ (alphaPolicy _ _) _ = _
    rw [hq]
  · show _ + min _ _ = _
    rw [hm]
  · rfl
  · rw [memReadByte_afterToken, if_neg (by omega)]
  · have := (tokenResult_of hr (resolved i s.dec) (tokenStores i) (tokenPixels i)).pixels j (by omega) c hc
    rw [hq] at this
    exact this

/-- The first token of a sequence. -/
theorem runTokens_cons {i : Instr} {is : List Instr} {s t : State} (h : exec i s = .next t) : runTokens (i :: is) s =
    runTokens is t := by
  simp only [runTokens, h]

end Sys2Proof.Machine
end

