-- ==== Sys2Proof/Laws/Writer.lean ====
section
/-! SUPPORT. The laws of WR: what writing changes, and that the bytes handed over are kept in order, whatever `CHUNK` and
the answers of the sink (40_byte_stream.md rules R137 to R145). -/

namespace Sys2Proof.Machine

/-- Two states that differ at most in WR, `ENC.EPOS`, the count of bytes handed over in this step, and the sink. -/
def WriteFrame (s t : State) : Prop :=
  t = { s with enc := { s.enc with wr := t.enc.wr, epos := t.enc.epos, sent := t.enc.sent }, sink := t.sink }

theorem WriteFrame.refl (s : State) : WriteFrame s s := rfl

theorem WriteFrame.trans {s t u : State} (h1 : WriteFrame s t) (h2 : WriteFrame t u) : WriteFrame s u := by
  unfold WriteFrame at *
  rw [h2, h1]

/-- `SINK` holds a first part of the bytes handed over. -/
theorem State.sink_prefix (s : State) : s.sink.bytes <+: s.emitted := List.prefix_append _ _

/-- What handing `bs` over comes to: WR has taken `pre` of it; all of it, and no failure, when the outcome is `ok`; the
sink has grown, lost nothing, and holds nothing but bytes handed over, in order; `WR.ERR` is set exactly by a failure, and
the buffer stays within `CHUNK`. -/
structure Written (bs : List Byte) (o : WriteOutcome) (s t : State) : Prop where
  frame : WriteFrame s t
  taken : ∃ pre, pre <+: bs ∧ (o ≠ .failed → t.emitted = s.emitted ++ pre) ∧ t.sink.bytes <+: s.emitted ++ pre ∧
    t.enc.epos = s.enc.epos + pre.length ∧ t.enc.sent = s.enc.sent + pre.length ∧ (o = .ok → pre = bs)
  grows : s.sink.bytes <+: t.sink.bytes
  clean : s.enc.wr.err = false → o ≠ .failed → t.enc.wr.err = false
  bounded : s.enc.wr.buf.length ≤ s.par.chunk → t.enc.wr.buf.length ≤ s.par.chunk + bs.length

/-- `WR.drain` moves the buffer to the sink or leaves it; of a failed offer the sink has a first part (rule R137). -/
theorem drain_cases (s : State) :
    (drain s = (.ok, s) ∧ s.enc.wr.buf = []) ∨
    (∃ t, drain s = (.ok, t) ∧ WriteFrame s t ∧ t.enc.wr = { s.enc.wr with buf := [] } ∧
      t.sink.bytes = s.sink.bytes ++ s.enc.wr.buf ∧ t.enc.epos = s.enc.epos ∧ t.enc.sent = s.enc.sent ∧
      t.sink.tail = s.sink.tail ∧ (s.sink.grants = none → t.sink.grants = none) ∧ s.enc.wr.err = false) ∨
    (∃ t kept, drain s = (.failed, t) ∧ WriteFrame s t ∧ t.enc.wr = { s.enc.wr with err := true } ∧
      t.sink = { s.sink with bytes := s.sink.bytes ++ s.enc.wr.buf.take kept } ∧
      t.enc.epos = s.enc.epos ∧ t.enc.sent = s.enc.sent ∧ ¬ s.sinkOpen) ∨
    (drain s = (.waiting, s) ∧ s.enc.wr.buf ≠ [] ∧ ¬ s.sinkOpen ∧ s.enc.wr.err = false) := by
  unfold drain
  by_cases hb : s.enc.wr.buf = []
  · exact .inl ⟨by rw [if_pos hb], hb⟩
  rw [if_neg hb]
  cases he : s.enc.wr.err with
  | true =>
    refine .inr (.inr (.inl ⟨s, 0, by simp, WriteFrame.refl s, ?_, by simp, rfl, rfl, by simp [he]⟩))
    rw [← he]
  | false =>
    rw [if_neg (by simp)]
    match hg : s.sink.grants with
    | none =>
      refine .inr (.inl ⟨_, rfl, rfl, by simp, by simp, by simp, by simp, by simp, fun _ => by simpa using hg, rfl⟩)
    | some (n + 1) =>
      refine .inr (.inl ⟨_, rfl, rfl, by simp, by simp, by simp, by simp, by simp, fun h => ?_, rfl⟩)
      cases h
    | some 0 =>
      cases hf : s.sink.tail with
      | failed kept =>
        refine .inr (.inr (.inl ⟨_, kept, rfl, rfl, by simp, by simp, by simp, by simp, ?_⟩))
        rintro ⟨h, -⟩
        rw [hg] at h
        cases h
      | silent =>
        refine .inr (.inr (.inr ⟨rfl, hb, ?_, rfl⟩))
        rintro ⟨h, -⟩
        rw [hg] at h
        cases h

/-- Draining hands no new byte over and loses none. -/
theorem drain_written (s : State) : Written [] (drain s).1 s (drain s).2 ∧
    (s.sinkOpen → (drain s).1 = .ok ∧ (drain s).2.sinkOpen) ∧
    ((drain s).1 = .ok → (drain s).2.enc.wr.buf = []) := by
  rcases drain_cases s with ⟨h, hb⟩ | ⟨t, h, hf, hw, hk, he, hn, -, hg, herr⟩ | ⟨t, kept, h, hf, hw, hk, he, hn, ho⟩ |
    ⟨h, hb, ho, herr⟩ <;> rw [h]
  · exact ⟨⟨WriteFrame.refl s, ⟨[], by simp [s.sink_prefix]⟩, List.prefix_refl _, fun h _ => h, fun h => by simpa using h⟩,
      fun h => ⟨rfl, h⟩, fun _ => hb⟩
  · refine ⟨⟨hf, ⟨[], by simp [State.emitted, hw, hk, he, hn]⟩, hk ▸ List.prefix_append _ _, fun h _ => ?_, fun _ => ?_⟩,
      fun h => ⟨rfl, hg h.1, ?_⟩, fun _ => ?_⟩ <;> simp [hw, herr]
  · refine ⟨⟨hf, ⟨[], by simp [State.emitted, hk, he, hn, List.take_prefix]⟩, hk ▸ List.prefix_append _ _, fun _ h => ?_,
      fun h => ?_⟩,
      fun h => absurd h ho, fun h => by cases h⟩
    · exact absurd rfl h
    · simpa [hw] using h
  · exact ⟨⟨WriteFrame.refl s, ⟨[], by simp [s.sink_prefix]⟩, List.prefix_refl _, fun h _ => h, fun h => by simpa using h⟩,
      fun h => absurd h ho, fun h => by cases h⟩

/-- The buffer is full: WR holds at least `CHUNK` bytes. -/
abbrev State.writerFull (s : State) : Prop := s.par.chunk ≤ s.enc.wr.buf.length

/-- `drainIfFull` hands no new byte over and loses none; when it answers `ok` the buffer has room. -/
theorem drainIfFull_written (s : State) : Written [] (drainIfFull s).1 s (drainIfFull s).2 ∧
    (s.sinkOpen → (drainIfFull s).1 = .ok ∧ (drainIfFull s).2.sinkOpen) ∧
    ((drainIfFull s).1 = .ok → ¬ (drainIfFull s).2.writerFull) := by
  unfold drainIfFull
  have hc : 0 < s.par.chunk := by simp [Params.chunk]
  split
  · obtain ⟨h1, h2, h3⟩ := drain_written s
    refine ⟨h1, h2, fun h => ?_⟩
    have hp : (drain s).2.par = s.par := by rw [h1.frame]
    simp only [State.writerFull, h3 h, hp, List.length_nil]
    omega
  · next h =>
    exact ⟨⟨WriteFrame.refl s, ⟨[], by simp [s.sink_prefix]⟩, List.prefix_refl _, fun h _ => h, fun h => by simpa using h⟩,
      fun h => ⟨rfl, h⟩, fun _ => h⟩

/-- Two writes in a row. -/
theorem Written.append {bs cs : List Byte} {o : WriteOutcome} {s t u : State} (h1 : Written bs .ok s t)
    (h2 : Written cs o t u) (hroom : t.enc.wr.buf.length ≤ s.par.chunk) : Written (bs ++ cs) o s u := by
  obtain ⟨p, hp, ep, -, pp, np, op⟩ := h1.taken
  obtain ⟨q, hq, eq, kq, pq, nq, oq⟩ := h2.taken
  have hpe := op rfl
  subst hpe
  have ep := ep (by simp)
  have hpar : t.par = s.par := by rw [h1.frame]
  refine ⟨h1.frame.trans h2.frame, ⟨p ++ q, ?_, fun h => by rw [eq h, ep, List.append_assoc],
    by rwa [ep, List.append_assoc] at kq, ?_, ?_, fun h => by rw [oq h]⟩,
    h1.grows.trans h2.grows, fun h ho => h2.clean (h1.clean h (by simp)) ho, fun h => ?_⟩
  · exact (List.prefix_append_right_inj p).mpr hq
  · simp [pq, pp, Nat.add_assoc]
  · simp [nq, np, Nat.add_assoc]
  · have := h2.bounded (by rw [hpar]; exact hroom)
    rw [hpar] at this
    simp only [List.length_append]
    omega

/-- `WR.write_u8` (rule R138): one byte taken into a buffer with room, and a full buffer drained. -/
theorem writeU8_written (b : Byte) (s : State) (hroom : ¬ s.writerFull) :
    Written [b] (writeU8 b s).1 s (writeU8 b s).2 ∧
    (s.sinkOpen → (writeU8 b s).1 = .ok ∧ (writeU8 b s).2.sinkOpen) ∧
    ((writeU8 b s).1 = .ok → ¬ (writeU8 b s).2.writerFull) ∧
    (writeU8 b s).2.enc.wr.buf.length ≤ s.par.chunk := by
  unfold writeU8
  have hlt : s.enc.wr.buf.length < s.par.chunk := by simpa [State.writerFull] using hroom
  cases he : s.enc.wr.err with
  | true =>
    refine ⟨⟨WriteFrame.refl s, ⟨[], by simp [s.sink_prefix]⟩, List.prefix_refl _, fun h => by simp [he] at h, fun h => ?_⟩,
      fun h => ?_, fun h => by simp at h, hlt.le⟩
    · show s.enc.wr.buf.length ≤ _
      omega
    · exact absurd h.2 (by simp [he])
  | false =>
    obtain ⟨h1, h2, h3⟩ := drainIfFull_written (s.putByte b)
    have hput : Written [b] .ok s (s.putByte b) :=
      ⟨rfl, ⟨[b], by simp [State.emitted]⟩, List.prefix_refl _, fun h _ => by simpa using h, fun h => by simp; omega⟩
    have hbuf : (s.putByte b).enc.wr.buf.length ≤ s.par.chunk := by simp; omega
    have hall := hput.append h1 hbuf
    refine ⟨by simpa using hall, fun h => by simpa using h2 ⟨h.1, by simp [he]⟩, by simpa using h3, ?_⟩
    have := h1.bounded hbuf
    simpa using this

/-- `emit` (43_encoder.md rule R215): the bytes are handed over in order; all of them when the sink is open. -/
theorem writeBytes_written (bs : List Byte) (s : State) (hroom : ¬ s.writerFull) :
    Written bs (writeBytes bs s).1 s (writeBytes bs s).2 ∧
    (s.sinkOpen → (writeBytes bs s).1 = .ok ∧ (writeBytes bs s).2.sinkOpen) ∧
    ((writeBytes bs s).1 = .ok → ¬ (writeBytes bs s).2.writerFull) ∧
    (writeBytes bs s).2.enc.wr.buf.length ≤ s.par.chunk := by
  induction bs generalizing s with
  | nil =>
    have hlt : s.enc.wr.buf.length < s.par.chunk := by simpa [State.writerFull] using hroom
    exact ⟨⟨WriteFrame.refl s, ⟨[], by simp [writeBytes, s.sink_prefix]⟩, List.prefix_refl _, fun h _ => h, fun h => by simpa [writeBytes] using h⟩,
      fun h => ⟨rfl, h⟩, fun _ => hroom, hlt.le⟩
  | cons b bs ih =>
    obtain ⟨h1, h2, h3, h4⟩ := writeU8_written b s hroom
    simp only [writeBytes]
    split
    · next t he =>
      rw [he] at h1 h2 h3 h4
      obtain ⟨k1, k2, k3, k4⟩ := ih t (h3 rfl)
      have hpar : t.par = s.par := by have := h1.frame; simp only at this; rw [this]
      exact ⟨h1.append k1 h4, fun h => k2 (h2 h).2, k3, by rw [← hpar]; exact k4⟩
    all_goals
      next t he =>
      rw [he] at h1 h2 h4
      obtain ⟨p, hp, ep, kp, pp, np, -⟩ := h1.taken
      have hlt : s.enc.wr.buf.length < s.par.chunk := by simpa [State.writerFull] using hroom
      refine ⟨⟨h1.frame, ⟨p, hp.trans ⟨bs, rfl⟩, ep, kp, pp, np, by simp⟩, h1.grows, h1.clean, fun h => ?_⟩,
        fun h => absurd (h2 h).1 (by simp), by simp, h4⟩
      show t.enc.wr.buf.length ≤ _
      have : t.enc.wr.buf.length ≤ s.par.chunk := h4
      omega

/-- `WR.flush` (rule R140): when it answers `ok` the buffer is empty. -/
theorem flush_written (s : State) : Written [] (flush s).1 s (flush s).2 ∧
    (s.sinkOpen → (flush s).1 = .ok ∧ (flush s).2.sinkOpen) ∧
    ((flush s).1 = .ok → (flush s).2.enc.wr.buf = []) := by
  unfold flush
  cases he : s.enc.wr.err with
  | true =>
    refine ⟨⟨WriteFrame.refl s, ⟨[], by simp [s.sink_prefix]⟩, List.prefix_refl _, fun h => by simp [he] at h, fun h => by simpa using h⟩,
      fun h => absurd h.2 (by simp [he]), fun h => by simp at h⟩
  | false => exact drain_written s

/-! ## A sink that grants some offers -/

/-- What the offer after the last grant comes to. -/
def SinkTail.outcome : SinkTail → WriteOutcome
  | .silent => .waiting
  | .failed _ => .failed

/-- How many bytes of that offer the sink takes. -/
def SinkTail.kept : SinkTail → Nat
  | .silent => 0
  | .failed kept => kept

/-- The offer after the last grant (rule R137). -/
theorem drain_stop {s : State} (hb : s.enc.wr.buf ≠ []) (he : s.enc.wr.err = false) (hg : s.sink.grants = some 0) :
    ∃ t, drain s = (s.sink.tail.outcome, t) ∧ t.sink.bytes = s.sink.bytes ++ s.enc.wr.buf.take s.sink.tail.kept ∧
      t.enc.sent = s.enc.sent := by
  unfold drain
  rw [if_neg hb, if_neg (by simp [he]), hg]
  cases hf : s.sink.tail with
  | silent => exact ⟨s, rfl, by simp [SinkTail.kept], rfl⟩
  | failed kept => exact ⟨_, rfl, rfl, rfl⟩

/-- A granted offer (rule R137). -/
theorem drain_grant {s : State} {n : Nat} (hb : s.enc.wr.buf ≠ []) (he : s.enc.wr.err = false)
    (hg : s.sink.grants = some (n + 1)) :
    ∃ t, drain s = (.ok, t) ∧ t.par = s.par ∧ t.enc.wr = ⟨[], false⟩ ∧ t.enc.sent = s.enc.sent ∧
      t.sink = { s.sink with bytes := s.sink.bytes ++ s.enc.wr.buf, grants := some n } := by
  unfold drain
  rw [if_neg hb, if_neg (by simp [he]), hg]
  exact ⟨_, rfl, rfl, by simp [he], rfl, rfl⟩

/-- Writing when the sink grants `n` offers more (rules R137 and R138): where the bytes fill `n + 1` chunks the sink has
`n` of them and what it keeps of the next, and the writing stops there; where they fill `n`, all are taken and the rest
stands in the buffer. -/
theorem writeBytes_granted (bs : List Byte) {s : State} {n : Nat} (hroom : s.enc.wr.buf.length < s.par.chunk)
    (he : s.enc.wr.err = false) (hg : s.sink.grants = some n) :
    ((n + 1) * s.par.chunk ≤ (s.enc.wr.buf ++ bs).length → ∃ t, writeBytes bs s = (s.sink.tail.outcome, t) ∧
      t.sink.bytes = s.sink.bytes ++ (s.enc.wr.buf ++ bs).take (n * s.par.chunk + min s.sink.tail.kept s.par.chunk) ∧
      t.enc.sent = s.enc.sent + ((n + 1) * s.par.chunk - s.enc.wr.buf.length)) ∧
    (n * s.par.chunk ≤ (s.enc.wr.buf ++ bs).length → (s.enc.wr.buf ++ bs).length < (n + 1) * s.par.chunk →
      ∃ t, writeBytes bs s = (.ok, t) ∧ t.sink.bytes = s.sink.bytes ++ (s.enc.wr.buf ++ bs).take (n * s.par.chunk) ∧
      t.enc.wr = ⟨(s.enc.wr.buf ++ bs).drop (n * s.par.chunk), false⟩ ∧ t.sink.grants = some 0 ∧
      t.sink.tail = s.sink.tail ∧ t.enc.sent = s.enc.sent + bs.length) := by
  induction bs generalizing s n with
  | nil =>
    have hmul : s.par.chunk ≤ (n + 1) * s.par.chunk := Nat.le_mul_of_pos_left _ (Nat.succ_pos n)
    simp only [List.append_nil]
    refine ⟨fun h => absurd hroom (by omega), fun h1 _ => ?_⟩
    have hn : n = 0 := by
      rcases n with _ | n
      · rfl
      · have : s.par.chunk ≤ (n + 1) * s.par.chunk := Nat.le_mul_of_pos_left _ (Nat.succ_pos n)
        omega
    subst hn
    exact ⟨s, rfl, by simp, by simp [← he], hg, rfl, rfl⟩
  | cons b bs ih =>
    have hput : writeU8 b s = drainIfFull (s.putByte b) := by unfold writeU8; rw [if_neg (by simp [he])]
    have hlist : (s.putByte b).enc.wr.buf ++ bs = s.enc.wr.buf ++ b :: bs := by simp
    by_cases hfull : s.enc.wr.buf.length + 1 < s.par.chunk
    · have hw : writeU8 b s = (.ok, s.putByte b) := by
        rw [hput]
        unfold drainIfFull
        rw [if_neg (by simp; omega)]
      obtain ⟨i1, i2⟩ := ih (s := s.putByte b) (n := n) (by simpa using hfull) (by simpa using he) (by simpa using hg)
      rw [hlist] at i1 i2
      simp only [writeBytes, hw]
      refine ⟨fun h => ?_, fun h1 h2 => ?_⟩
      · obtain ⟨t, t1, t2, t3⟩ := i1 h
        have hmul : s.par.chunk ≤ (n + 1) * s.par.chunk := Nat.le_mul_of_pos_left _ (Nat.succ_pos n)
        refine ⟨t, by simpa using t1, t2, ?_⟩
        rw [t3]
        simp only [putByte_enc_sent, putByte_par, putByte_enc_wr, List.length_append, List.length_singleton]
        omega
      · obtain ⟨t, t1, t2, t3, t4, t5, t6⟩ := i2 h1 h2
        refine ⟨t, by rw [t1], t2, t3, t4, t5, ?_⟩
        rw [t6]
        simp only [putByte_enc_sent, List.length_cons]
        omega
    · have hlen : (s.putByte b).enc.wr.buf.length = s.par.chunk := by simp; omega
      have hne : (s.putByte b).enc.wr.buf ≠ [] := by simp
      have hw : writeU8 b s = drain (s.putByte b) := by
        rw [hput]
        unfold drainIfFull
        rw [if_pos (by rw [hlen]; rfl)]
      cases n with
      | zero =>
        obtain ⟨t, t1, t2, t3⟩ := drain_stop hne (by simpa using he) (by simpa using hg)
        simp only [writeBytes, hw, t1]
        refine ⟨fun _ => ⟨t, ?_, ?_, ?_⟩, fun _ h2 => ?_⟩
        · show _ = (s.sink.tail.outcome, t)
          simp only [putByte_sink]
          cases s.sink.tail <;> rfl
        · rw [t2, ← hlist, List.take_append_of_le_length (by omega)]
          simp only [Nat.zero_mul, Nat.zero_add, ← hlen, putByte_sink]
          rw [← List.take_take, List.take_length]
        · rw [t3]
          simp only [putByte_enc_sent]
          omega
        · rw [← hlist, List.length_append, hlen] at h2
          omega
      | succ n =>
        obtain ⟨u, d, up, uw, us, uk⟩ := drain_grant hne (by simpa using he) (by simpa using hg)
        rw [d] at hw
        have up : u.par = s.par := up
        have us : u.enc.sent = s.enc.sent + 1 := us
        have uk1 : u.sink.bytes = s.sink.bytes ++ (s.putByte b).enc.wr.buf := by rw [uk]; rfl
        have uk2 : u.sink.tail = s.sink.tail := by rw [uk]; rfl
        have hc : 0 < s.par.chunk := by simp [Params.chunk]
        obtain ⟨i1, i2⟩ := ih (s := u) (n := n) (by simp [uw, up, hc]) (by simp [uw]) (by simp [uk])
        simp only [uw, up, us, uk1, uk2, List.nil_append, List.length_nil, Nat.sub_zero] at i1 i2
        have hm : (n + 1 + 1) * s.par.chunk = s.par.chunk + (n + 1) * s.par.chunk := by rw [Nat.succ_mul, Nat.add_comm]
        have hm' : (n + 1) * s.par.chunk = s.par.chunk + n * s.par.chunk := by rw [Nat.succ_mul, Nat.add_comm]
        have htake : ∀ k, ((s.putByte b).enc.wr.buf ++ bs).take (s.par.chunk + k) =
            (s.putByte b).enc.wr.buf ++ bs.take k := by
          intro k
          rw [← hlen, List.take_length_add_append]
        have hdrop : ∀ k, ((s.putByte b).enc.wr.buf ++ bs).drop (s.par.chunk + k) = bs.drop k := by
          intro k
          rw [← hlen, List.drop_length_add_append]
        rw [← hlist, List.length_append, hlen, hm, hm']
        simp only [writeBytes, hw]
        refine ⟨fun h => ?_, fun h1 h2 => ?_⟩
        · obtain ⟨t, t1, t2, t3⟩ := i1 (by omega)
          refine ⟨t, t1, ?_, ?_⟩
          · rw [t2, Nat.add_assoc, htake, List.append_assoc]
          · rw [t3]
            simp at hlen
            omega
        · obtain ⟨t, t1, t2, t3, t4, t5, t6⟩ := i2 (by omega) (by omega)
          refine ⟨t, t1, ?_, by rw [hdrop]; exact t3, t4, t5, ?_⟩
          · rw [t2, htake, List.append_assoc]
          · rw [t6]
            simp only [List.length_cons]
            omega

end Sys2Proof.Machine
end

