-- ==== Sys2Proof/Laws/Encoder.lean ====
section
/-! SUPPORT. The encoder: which effect a pixel has, case by case, and what a step of ENC comes to. -/

namespace Sys2Proof.Machine

/-! ## The effect of a pixel -/

/-- A pixel equal to the previous one below the cap: the run grows (43_encoder.md rule R216). -/
theorem pixelEffect_extend {prev cur : Pixel} {run : BitVec 6} {cache : Cache} (h : cur = prev)
    (hr : run + 1#6 ≠ runMax) : pixelEffect prev run cache cur = ⟨[], prev, run + 1#6, cache⟩ := by
  simp [pixelEffect, signals, eqPrevSignal, h, extendRun, hr]

/-- A pixel equal to the previous one at the cap: RUN 62 (rule R217). -/
theorem pixelEffect_cap {prev cur : Pixel} {run : BitVec 6} {cache : Cache} (h : cur = prev)
    (hr : run + 1#6 = runMax) : pixelEffect prev run cache cur = ⟨[.run 61#6], prev, 0#6, cache⟩ := by
  simp [pixelEffect, signals, eqPrevSignal, h, extendRun, hr]
  rfl

/-- Any other pixel: the run flushed, then its own token; the cache then holds the pixel in its slot (rules R218 to
R224). -/
theorem pixelEffect_other {prev cur : Pixel} {run : BitVec 6} {cache : Cache} (h : cur ≠ prev) :
    pixelEffect prev run cache cur =
      ⟨flushRun run ++ [chooseToken (signals prev cache cur) cur], cur, 0#6, cacheStore cache (hash cur) cur⟩ := by
  have hg : (signals prev cache cur).eqPrev = false := by simp [signals, eqPrevSignal, h]
  unfold pixelEffect emitPixel
  simp only [hg]
  by_cases hh : cacheLookup cache (hash cur) = cur
  · have : cacheStore cache (hash cur) cur = cache := by
      have := cacheStore_self cache (hash cur)
      rwa [hh] at this
    simp [signals, hitSignal, hh, this]
  · simp [signals, hitSignal, hh]

/-- The run counter stays at most 61 between steps (rules R25 and R217). -/
theorem pixelEffect_run_le {prev cur : Pixel} {run : BitVec 6} {cache : Cache} (h : run.toNat ≤ 61) :
    (pixelEffect prev run cache cur).run.toNat ≤ 61 := by
  by_cases hc : cur = prev
  · by_cases hr : run + 1#6 = runMax
    · rw [pixelEffect_cap hc hr]; simp
    · rw [pixelEffect_extend hc hr]
      have hne : (run + 1#6).toNat ≠ 62 := fun e => hr (BitVec.eq_of_toNat_eq e)
      have : (run + 1#6).toNat = run.toNat + 1 := by
        rw [BitVec.toNat_add]
        simp
        omega
      show (run + 1#6).toNat ≤ 61
      omega
  · rw [pixelEffect_other hc]; simp

/-- After a pixel, `PREV` is that pixel (rules R24 and R224). -/
@[simp] theorem pixelEffect_prev (prev cur : Pixel) (run : BitVec 6) (cache : Cache) :
    (pixelEffect prev run cache cur).prev = cur := by
  by_cases hc : cur = prev
  · by_cases hr : run + 1#6 = runMax
    · rw [pixelEffect_cap hc hr, hc]
    · rw [pixelEffect_extend hc hr, hc]
  · rw [pixelEffect_other hc]

/-- The end of the buffer changes tokens and run counter only (rule R225). -/
@[simp] theorem pixelEffectAt_prev (last : Bool) (prev cur : Pixel) (run : BitVec 6) (cache : Cache) :
    (pixelEffectAt last prev run cache cur).prev = cur := by
  cases last <;> simp [pixelEffectAt, endEffect]

@[simp] theorem pixelEffectAt_cache (last : Bool) (prev cur : Pixel) (run : BitVec 6) (cache : Cache) :
    (pixelEffectAt last prev run cache cur).cache = (pixelEffect prev run cache cur).cache := by
  cases last <;> simp [pixelEffectAt, endEffect]

theorem pixelEffectAt_run_le {last : Bool} {prev cur : Pixel} {run : BitVec 6} {cache : Cache} (h : run.toNat ≤ 61) :
    (pixelEffectAt last prev run cache cur).run.toNat ≤ 61 ∧
      (last = true → (pixelEffectAt last prev run cache cur).run = 0#6) := by
  cases last
  · exact ⟨pixelEffect_run_le h, by simp⟩
  · simp [pixelEffectAt, endEffect]

/-- The cache after a pixel: unchanged when the pixel extends a run, else with the pixel in its slot. -/
theorem pixelEffect_cache (prev cur : Pixel) (run : BitVec 6) (cache : Cache) :
    (pixelEffect prev run cache cur).cache = if cur = prev then cache else cacheStore cache (hash cur) cur := by
  by_cases hc : cur = prev
  · rw [if_pos hc]
    by_cases hr : run + 1#6 = runMax
    · rw [pixelEffect_cap hc hr]
    · rw [pixelEffect_extend hc hr]
  · rw [if_neg hc, pixelEffect_other hc]

/-! ## Handing bytes over -/

/-- What handing over the bytes of a step comes to: a part of what was still to be sent, all of it when the outcome is
`ok`. -/
structure Sent (bytes : List Byte) (o : WriteOutcome) (s t : State) : Prop where
  frame : WriteFrame s t
  taken : ∃ pre, pre <+: bytes.drop s.enc.sent ∧ (o ≠ .failed → t.emitted = s.emitted ++ pre) ∧
    t.sink.bytes <+: s.emitted ++ pre ∧ t.enc.epos = s.enc.epos + pre.length ∧ t.enc.sent = s.enc.sent + pre.length ∧
    (o = .ok → pre = bytes.drop s.enc.sent)
  grows : s.sink.bytes <+: t.sink.bytes
  clean : s.enc.wr.err = false → o ≠ .failed → t.enc.wr.err = false
  bounded : s.enc.wr.buf.length ≤ s.par.chunk → t.enc.wr.buf.length ≤ s.par.chunk
  opened : s.sinkOpen → t.sinkOpen

/-- `handOver`, said once; with an open sink every byte is taken. -/
theorem handOver_sent (bytes : List Byte) (s : State) : Sent bytes (handOver bytes s).1 s (handOver bytes s).2 ∧
    (s.sinkOpen → (handOver bytes s).1 = .ok) := by
  obtain ⟨h1, h2, h3⟩ := drainIfFull_written s
  unfold handOver
  obtain ⟨p, hp, ep, kp, pp, np, -⟩ := h1.taken
  have hp0 : p = [] := List.prefix_nil.mp hp
  subst hp0
  cases hd : drainIfFull s with
  | mk o s1 =>
    rw [hd] at h1 h2 h3 ep kp pp np
    simp only [List.append_nil, List.length_nil, Nat.add_zero] at ep kp pp np
    have hpar : s1.par = s.par := by have := h1.frame; simp only at this; rw [this]
    have hstop : o ≠ .ok → Sent bytes o s s1 ∧ (s.sinkOpen → o = .ok) := by
      intro hne
      exact ⟨⟨h1.frame, ⟨[], by simp, fun h => by simp [ep h], by simpa using kp, by simp [pp], by simp [np],
        fun h => absurd h hne⟩, h1.grows, h1.clean, fun h => by simpa using h1.bounded h,
        fun h => absurd (h2 h).1 hne⟩, fun h => (h2 h).1⟩
    cases o with
    | failed => exact hstop (by simp)
    | waiting => exact hstop (by simp)
    | ok =>
      obtain ⟨k1, k2, k3, k4⟩ := writeBytes_written (bytes.drop s1.enc.sent) s1 (h3 rfl)
      obtain ⟨q, hq, eq, kq, pq, nq, oq⟩ := k1.taken
      have ep := ep (by simp)
      refine ⟨⟨h1.frame.trans k1.frame, ⟨q, np ▸ hq, fun h => by rw [eq h, ep], by rwa [ep] at kq,
        by rw [pq, pp], by rw [nq, np], fun h => by rw [oq h, np]⟩,
        h1.grows.trans k1.grows, fun h hne => k1.clean (h1.clean h (by simp)) hne, fun _ => by rw [← hpar]; exact k4,
        fun h => (k2 (h2 h).2).2⟩, fun h => (k2 (h2 h).2).1⟩

/-- `emitThen`, said once: the bytes are handed over and `k` goes on, or the sink failed, or the step waits. With an open
sink it is the first. -/
theorem emitThen_cases (bytes : List Byte) (k : State → Result) (s : State) :
    (∃ u, emitThen bytes k s = k u ∧ Sent bytes .ok s u) ∨
    (¬ s.sinkOpen ∧ ∃ u, emitThen bytes k s = .next (raiseEnc .ioSink u) ∧ Sent bytes .failed s u) ∨
    (¬ s.sinkOpen ∧ ∃ u, emitThen bytes k s = .next u ∧ Sent bytes .waiting s u) := by
  obtain ⟨h1, h2⟩ := handOver_sent bytes s
  unfold emitThen
  cases hd : handOver bytes s with
  | mk o u =>
    rw [hd] at h1 h2
    cases o with
    | ok => exact .inl ⟨u, rfl, h1⟩
    | failed => exact .inr (.inl ⟨fun h => absurd (h2 h) (by simp), u, rfl, h1⟩)
    | waiting => exact .inr (.inr ⟨fun h => absurd (h2 h) (by simp), u, rfl, h1⟩)

/-- The token of a pixel, row by row of the table of 43_encoder.md rule R214. -/
theorem chooseToken_split (g : Signals) (cur : Pixel) :
    (g.hit = true ∧ chooseToken g cur = .index g.idx) ∨
    (g.aSame = true ∧ g.diffOk = true ∧
      chooseToken g cur = .diff ((g.dr + diffBias).setWidth 2) ((g.dg + diffBias).setWidth 2) ((g.db +
      diffBias).setWidth 2)) ∨
    (g.aSame = true ∧ g.lumaOk = true ∧
      chooseToken g cur = .luma ((g.dg + lumaGreenBias).setWidth 6) ((g.drg + lumaRelBias).setWidth 4) ((g.dbg +
      lumaRelBias).setWidth 4)) ∨
    (g.aSame = true ∧ chooseToken g cur = .rgb cur.r cur.g cur.b) ∨ chooseToken g cur = .rgba cur.r cur.g cur.b cur.a
      := by
  unfold chooseToken
  split_ifs <;> simp_all

/-- The token of a pixel is a well-formed token, never a RUN, and at most 5 bytes long, 4 when alpha is the same. -/
theorem chooseToken_cases (g : Signals) (cur : Pixel) :
   (chooseToken g cur).record = .token ∧ (chooseToken g cur).wellFormed = true ∧ tokenPixels (chooseToken g cur) = 1 ∧
     (∀ n, chooseToken g cur ≠ .run n) ∧ (encode (chooseToken g cur)).length ≤ 5 ∧ (g.aSame = true →
     (encode (chooseToken g cur)).length ≤ 4) := by
  unfold chooseToken
  split_ifs <;> simp_all [Instr.record, Instr.wellFormed, tokenPixels, encode]

/-- A flushed run: its tokens, its pixels and its bytes (rule R218). -/
theorem flushRun_cases (run : BitVec 6) (h : run.toNat ≤ 62) : (∀ i ∈ flushRun run, i.record = .token ∧
    i.wellFormed = true) ∧ ((flushRun run).map tokenPixels).sum = run.toNat ∧
    (encodeAll (flushRun run)).length = if run = 0#6 then 0 else 1 := by
  unfold flushRun
  split
  · next e => subst e; simp [encodeAll]
  · next hne =>
    have hn : run.toNat ≠ 0 := fun e => hne (BitVec.eq_of_toNat_eq e)
    have : (run - 1#6).toNat = run.toNat - 1 := by
      rw [BitVec.toNat_sub]; simp; omega
    simp [runToken, Instr.record, Instr.wellFormed, tokenPixels, encodeAll, encode, this]
    omega

/-- The bytes of two sequences of tokens. -/
theorem encodeAll_append (a b : List Instr) : encodeAll (a ++ b) = encodeAll a ++ encodeAll b := by simp [encodeAll]

/-- The run counter below its cap does not wrap. -/
theorem run_add_one {run : BitVec 6} (h : run.toNat ≤ 61) : (run + 1#6).toNat = run.toNat + 1 := by
  rw [BitVec.toNat_add]; simp; omega

/-- The tokens of one pixel: well-formed, as many pixels as the run has gained, and their bytes (rule R227). -/
theorem pixelEffectAt_cases (last : Bool) (prev : Pixel) (run : BitVec 6) (cache : Cache) (cur : Pixel) (h : run.toNat
    ≤ 61) :
    let f := pixelEffectAt last prev run cache cur
    (∀ i ∈ f.tokens, i.record = .token ∧ i.wellFormed = true) ∧
      (f.tokens.map tokenPixels).sum + f.run.toNat = run.toNat + 1 ∧ f.run.toNat ≤ 61 ∧
    (encodeAll f.tokens).length + (if f.run = 0#6 then 0 else 1) ≤ 5 + (if run = 0#6 then 0 else 1) ∧
    (prev.a = 255#8 → cur.a = 255#8 →
      (encodeAll f.tokens).length + (if f.run = 0#6 then 0 else 1) ≤ 4 + (if run = 0#6 then 0 else 1)) ∧
    (last = true → f.run = 0#6) := by
  have base : let f := pixelEffect prev run cache cur
    (∀ i ∈ f.tokens, i.record = .token ∧ i.wellFormed = true) ∧
      (f.tokens.map tokenPixels).sum + f.run.toNat = run.toNat + 1 ∧ f.run.toNat ≤ 61 ∧
    (encodeAll f.tokens).length + (if f.run = 0#6 then 0 else 1) ≤ 5 + (if run = 0#6 then 0 else 1) ∧
    (prev.a = 255#8 → cur.a = 255#8 →
      (encodeAll f.tokens).length + (if f.run = 0#6 then 0 else 1) ≤ 4 + (if run = 0#6 then 0 else 1)) := by
    dsimp only
    by_cases hc : cur = prev
    · by_cases hr : run + 1#6 = runMax
      · have := run_add_one h
        rw [hr] at this
        rw [pixelEffect_cap hc hr]
        refine ⟨by simp [Instr.record, Instr.wellFormed],
          by (have e62 : runMax.toNat = 62 := rfl); (have e61 : (61#6).toNat = 61 := rfl); simp only [List.map_cons,
          List.map_nil, tokenPixels, List.sum_cons, List.sum_nil, e61]; (have e0 : (0#6).toNat = 0 := rfl); omega,
          by simp, by simp [encodeAll, encode]; omega, by simp [encodeAll, encode]; omega⟩
      · have := run_add_one h
        have hle := pixelEffect_run_le (prev := prev) (cur := cur) (cache := cache) h
        rw [pixelEffect_extend hc hr] at hle ⊢
        refine ⟨by simp, by simp only [List.map_nil, List.sum_nil]; omega, hle, ?_, fun _ _ => ?_⟩
          <;> simp only [encodeAll, List.flatMap_nil, List.length_nil] <;> split_ifs <;> omega
    · rw [pixelEffect_other hc]
      obtain ⟨f1, f2, f3⟩ := flushRun_cases run (by omega)
      obtain ⟨c1, c2, c3, c4, c5, c6⟩ := chooseToken_cases (signals prev cache cur) cur
      refine ⟨?_, by simp [f2, c3], by simp, ?_, fun ha hb => ?_⟩
      · intro i hi
        rcases List.mem_append.mp hi with hi | hi
        · exact f1 i hi
        · rw [List.mem_singleton.mp hi]; exact ⟨c1, c2⟩
      · simp only [encodeAll_append, List.length_append, f3]
        simp [encodeAll]; omega
      · have := c6 (by simp [signals, ha, hb])
        simp only [encodeAll_append, List.length_append, f3]
        simp [encodeAll]; omega
  obtain ⟨b1, b2, b3, b4, b5⟩ := base
  cases last with
  | false => exact ⟨b1, b2, b3, b4, b5, by simp⟩
  | true =>
    obtain ⟨f1, f2, f3⟩ := flushRun_cases (pixelEffect prev run cache cur).run (by omega)
    simp only [pixelEffectAt, endEffect, if_true]
    refine ⟨?_, by simp [f2]; omega, by simp, ?_, fun ha hb => ?_, by simp⟩
    · intro i hi
      rcases List.mem_append.mp hi with hi | hi
      · exact b1 i hi
      · exact f1 i hi
    · simp only [encodeAll_append, List.length_append, f3]; simp; exact b4
    · simp only [encodeAll_append, List.length_append, f3]; simp; exact b5 ha hb

/-- The decoder resolves the token of a pixel to that pixel (44_decoder.md rule R283). -/
theorem resolved_chooseToken (d : Dec) (cur : Pixel) : resolved (chooseToken (signals d.prev d.cache cur) cur) d = cur
    := by
  rcases chooseToken_split (signals d.prev d.cache cur) cur with ⟨h1, e⟩ | ⟨ha, h2, e⟩ | ⟨ha, h3, e⟩ | ⟨ha, e⟩
    | e <;> rw [e] <;> simp only [signals, hitSignal, diffOkSignal, lumaOkSignal, Bool.and_eq_true,
    decide_eq_true_eq] at *
  · exact h1
  · simp only [resolved, diffPixel, diffDelta_field h2.1.1, diffDelta_field h2.1.2, diffDelta_field h2.2,
      add_sub_self, ← ha]
  · simp only [resolved, lumaPixel, lumaGreenDelta_field h3.1.1, lumaRelDelta_field h3.1.2, lumaRelDelta_field h3.2,
      BitVec.add_assoc, add_sub_self, ← ha]
  · simp only [resolved, rgbPixel, ← ha]
  · rfl

/-- Both caches are the same after the token of a pixel (44_decoder.md rule R283). -/
theorem storeIf_chooseToken (d : Dec) (cur : Pixel) : storeIf (tokenStores (chooseToken (signals d.prev d.cache cur)
    cur)) cur d.cache = cacheStore d.cache (hash cur) cur := by
  rcases chooseToken_split (signals d.prev d.cache cur) cur with ⟨h1, e⟩ | ⟨ha, h2, e⟩ | ⟨ha, h3, e⟩ | ⟨ha, e⟩
    | e <;> rw [e]
  · simp only [signals, hitSignal, decide_eq_true_eq] at h1
    have := cacheStore_self d.cache (hash cur)
    rw [h1] at this
    exact this.symm
  all_goals rfl

/-- With an open sink the bytes are handed over and the step goes on. -/
theorem emitThen_open (bytes : List Byte) (k : State → Result) {s : State} (h : s.sinkOpen) :
    ∃ u, emitThen bytes k s = k u ∧ Sent bytes .ok s u ∧ u.sinkOpen := by
  rcases emitThen_cases bytes k s with ⟨u, h1, h2⟩ | ⟨h1, -⟩ | ⟨h1, -⟩
  · exact ⟨u, h1, h2, h2.opened h⟩
  · exact absurd h h1
  · exact absurd h h1

/-- All bytes that were still to be handed over. -/
theorem Sent.full {bytes : List Byte} {s u : State} (h : Sent bytes .ok s u) :
    u.emitted = s.emitted ++ bytes.drop s.enc.sent ∧ u.enc.epos = s.enc.epos + (bytes.drop s.enc.sent).length := by
  obtain ⟨pre, _, e1, _, e2, _, e3⟩ := h.taken
  have := e3 rfl
  subst this
  exact ⟨e1 (by simp), e2⟩

/-- What handing bytes over leaves alone, field by field. -/
theorem Sent.same {bytes o} {s u : State} (h : Sent bytes o s u) : u.par = s.par ∧ u.dec = s.dec ∧ u.pixin = s.pixin ∧
    u.pixout = s.pixout ∧ u.enc.cfg = s.enc.cfg ∧ u.enc.phase = s.enc.phase ∧ u.enc.pix = s.enc.pix ∧
    u.enc.npix = s.enc.npix ∧ u.enc.cache = s.enc.cache ∧ u.enc.run = s.enc.run ∧ u.enc.prev = s.enc.prev ∧
    u.enc.status = s.enc.status := by
  have hf := h.frame
  refine ⟨?_, ?_, ?_, ?_, ?_, ?_, ?_, ?_, ?_, ?_, ?_, ?_⟩ <;> rw [hf]

/-- While bytes are handed over the step in progress stays what it is. -/
theorem Sent.stepBytes {bytes o} {s u : State} (h : Sent bytes o s u) : u.stepBytes? = s.stepBytes? := by
  have hf := h.frame
  rw [hf]
  rfl

/-- The flush after all bytes were handed over (43_encoder.md rule R226). -/
theorem Sent.flushed {bytes o} {s u v : State} (h : Sent bytes .ok s u) (w : Written [] o u v)
    (ho : u.sinkOpen → v.sinkOpen) : Sent bytes o s v := by
  obtain ⟨e1, e2⟩ := h.full
  obtain ⟨p, hp, -, -, e3, e4, e5⟩ := h.taken
  obtain ⟨q, hq, f1, f2, f3, f4, -⟩ := w.taken
  have hq0 : q = [] := List.prefix_nil.mp hq
  have hp0 := e5 rfl
  subst hq0
  subst hp0
  have hpar : u.par = s.par := h.same.1
  simp only [List.append_nil, List.length_nil, Nat.add_zero] at f1 f2 f3 f4
  refine ⟨h.frame.trans w.frame, ⟨_, hp, fun hne => by rw [f1 hne, e1], by rwa [e1] at f2, by rw [f3, e3], by rw [f4, e4],
    fun _ => rfl⟩, h.grows.trans w.grows, fun he hne => w.clean (h.clean he (by simp)) hne, fun hb => ?_,
    fun h' => ho (h.opened h')⟩
  have := w.bounded (by rw [hpar]; exact h.bounded hb)
  simpa [hpar] using this

/-- What a step of ENC comes to, said once: nothing, outside a call; else its bytes are handed over and the sink failed, or
the step waits, or all are taken and the header phase ends, the pixel's effect is written, or the call is done. -/
theorem encStep_cases {s t : State} (h : encStep s = .next t) :
    (s.stepBytes? = none ∧ s.enc.phase.inCall = false ∧ t = s) ∨
    ∃ bytes o u, s.stepBytes? = some bytes ∧ Sent bytes o s u ∧
      (o = .failed ∧ t = raiseEnc .ioSink u ∨ o = .waiting ∧ t = u ∨
       o = .ok ∧ s.enc.phase = .header ∧ t = u.withEnc { u.enc with phase := .body, sent := 0 } ∨
       o = .ok ∧ s.enc.phase = .body ∧ (∃ f l, t = commitPixel f l u) ∨
       o = .ok ∧ s.enc.phase = .trailer ∧ u.enc.wr.buf = [] ∧ t = finishEnc u) := by
  have go : ∀ bytes k, s.stepBytes? = some bytes → emitThen bytes k s = .next t →
      (∀ u, Sent bytes .ok s u → k u = .next t → ∃ o v, Sent bytes o s v ∧
        (o = .failed ∧ t = raiseEnc .ioSink v ∨ o = .waiting ∧ t = v ∨
         o = .ok ∧ s.enc.phase = .header ∧ t = v.withEnc { v.enc with phase := .body, sent := 0 } ∨
         o = .ok ∧ s.enc.phase = .body ∧ (∃ f l, t = commitPixel f l v) ∨
         o = .ok ∧ s.enc.phase = .trailer ∧ v.enc.wr.buf = [] ∧ t = finishEnc v)) →
      ∃ bytes o u, s.stepBytes? = some bytes ∧ Sent bytes o s u ∧
      (o = .failed ∧ t = raiseEnc .ioSink u ∨ o = .waiting ∧ t = u ∨
       o = .ok ∧ s.enc.phase = .header ∧ t = u.withEnc { u.enc with phase := .body, sent := 0 } ∨
       o = .ok ∧ s.enc.phase = .body ∧ (∃ f l, t = commitPixel f l u) ∨
       o = .ok ∧ s.enc.phase = .trailer ∧ u.enc.wr.buf = [] ∧ t = finishEnc u) := by
    intro bytes k hb hh hk
    rcases emitThen_cases bytes k s with ⟨u, he, hs⟩ | ⟨-, u, he, hs⟩ | ⟨-, u, he, hs⟩ <;> rw [he] at hh
    · obtain ⟨o, v, hv⟩ := hk u hs hh
      exact ⟨bytes, o, v, hb, hv⟩
    · exact ⟨bytes, _, u, hb, hs, .inl ⟨rfl, (next_inj hh).symm⟩⟩
    · exact ⟨bytes, _, u, hb, hs, .inr (.inl ⟨rfl, (next_inj hh).symm⟩)⟩
  unfold encStep at h
  split at h
  · next hph =>
    exact .inr (go _ _ (by simp [State.stepBytes?, hph]) h fun u hs hu =>
      ⟨_, u, hs, .inr (.inr (.inl ⟨rfl, hph, (next_inj hu).symm⟩))⟩)
  · next hph =>
    unfold encPixelStep at h
    split at h
    · next hlt =>
      split at h
      · cases h
      · cases h
      · cases h
      · next cur hf =>
        exact .inr (go _ _ (by simp [State.stepBytes?, hph, hlt, hf]) h fun u hs hu =>
          ⟨_, u, hs, .inr (.inr (.inr (.inl ⟨rfl, hph, _, _, (next_inj hu).symm⟩)))⟩)
    · cases h
  · next hph =>
    refine .inr (go _ _ (by simp [State.stepBytes?, hph]) h fun u hs hu => ?_)
    obtain ⟨w, wo, wb⟩ := flush_written u
    unfold flushThenFinish at hu
    split at hu <;> (rename_i x hv; rw [hv] at w wo wb; have ht := (next_inj hu).symm)
    · exact ⟨_, _, hs.flushed w fun h => (wo h).2, .inl ⟨rfl, ht⟩⟩
    · exact ⟨_, _, hs.flushed w fun h => (wo h).2, .inr (.inl ⟨rfl, ht⟩)⟩
    · exact ⟨_, _, hs.flushed w fun h => (wo h).2, .inr (.inr (.inr (.inr ⟨rfl, hph, wb rfl, ht⟩)))⟩
  all_goals
    next hph => exact .inl ⟨by simp [State.stepBytes?, hph], by rw [hph]; rfl, (next_inj h).symm⟩

/-- `handOver` when the sink grants `n` offers more: where the bytes fill `n + 1` chunks the sink has `n` of them and what
it keeps of the next, and the step stops there; where they fill `n`, all are taken and the rest stands in the buffer. -/
theorem handOver_granted (bytes : List Byte) {s : State} {n : Nat} (hroom : s.enc.wr.buf.length ≤ s.par.chunk)
    (he : s.enc.wr.err = false) (hg : s.sink.grants = some n) :
    let left := bytes.drop s.enc.sent
    ((n + 1) * s.par.chunk ≤ (s.enc.wr.buf ++ left).length → ∃ u, handOver bytes s = (s.sink.tail.outcome, u) ∧
      u.sink.bytes = s.sink.bytes ++ (s.enc.wr.buf ++ left).take (n * s.par.chunk + min s.sink.tail.kept s.par.chunk) ∧
      u.enc.sent = s.enc.sent + ((n + 1) * s.par.chunk - s.enc.wr.buf.length)) ∧
    (n * s.par.chunk ≤ (s.enc.wr.buf ++ left).length → (s.enc.wr.buf ++ left).length < (n + 1) * s.par.chunk →
      ∃ u, handOver bytes s = (.ok, u) ∧
      u.sink.bytes = s.sink.bytes ++ (s.enc.wr.buf ++ left).take (n * s.par.chunk) ∧
      u.enc.wr = ⟨(s.enc.wr.buf ++ left).drop (n * s.par.chunk), false⟩ ∧ u.sink.grants = some 0 ∧
      u.sink.tail = s.sink.tail ∧ u.enc.sent = s.enc.sent + left.length) := by
  intro left
  by_cases hfull : s.par.chunk ≤ s.enc.wr.buf.length
  · have hlen : s.enc.wr.buf.length = s.par.chunk := by omega
    have hc : 0 < s.par.chunk := by simp [Params.chunk]
    have hne : s.enc.wr.buf ≠ [] := fun e => by rw [e] at hlen; simp at hlen; omega
    have hd : drainIfFull s = drain s := by unfold drainIfFull; rw [if_pos hfull]
    cases n with
    | zero =>
      obtain ⟨t, t1, t2, t3⟩ := drain_stop hne he hg
      have hh : handOver bytes s = (s.sink.tail.outcome, t) := by
        unfold handOver
        rw [hd, t1]
        cases s.sink.tail <;> rfl
      refine ⟨fun _ => ⟨t, hh, ?_, ?_⟩, fun _ h2 => ?_⟩
      · rw [t2, List.take_append_of_le_length (by omega)]
        simp only [Nat.zero_mul, Nat.zero_add, ← hlen]
        rw [← List.take_take, List.take_length]
      · omega
      · rw [List.length_append] at h2
        omega
    | succ n =>
      obtain ⟨u, d, up, uw, us, uk⟩ := drain_grant hne he hg
      have uk1 : u.sink.bytes = s.sink.bytes ++ s.enc.wr.buf := by rw [uk]
      have uk2 : u.sink.tail = s.sink.tail := by rw [uk]
      have hh : handOver bytes s = writeBytes left u := by
        unfold handOver
        rw [hd, d]
        simp only [us]
        rfl
      obtain ⟨i1, i2⟩ := writeBytes_granted left (s := u) (n := n) (by simp [uw, up, hc]) (by simp [uw]) (by simp [uk])
      simp only [uw, up, us, uk1, uk2, List.nil_append, List.length_nil, Nat.sub_zero] at i1 i2
      have hm : (n + 1 + 1) * s.par.chunk = s.par.chunk + (n + 1) * s.par.chunk := by rw [Nat.succ_mul, Nat.add_comm]
      have hm' : (n + 1) * s.par.chunk = s.par.chunk + n * s.par.chunk := by rw [Nat.succ_mul, Nat.add_comm]
      have htake : ∀ k, (s.enc.wr.buf ++ left).take (s.par.chunk + k) = s.enc.wr.buf ++ left.take k := by
        intro k
        rw [← hlen, List.take_length_add_append]
      have hdrop : ∀ k, (s.enc.wr.buf ++ left).drop (s.par.chunk + k) = left.drop k := by
        intro k
        rw [← hlen, List.drop_length_add_append]
      rw [List.length_append, hlen, hm, hm', hh]
      refine ⟨fun h => ?_, fun h1 h2 => ?_⟩
      · obtain ⟨t, t1, t2, t3⟩ := i1 (by omega)
        refine ⟨t, t1, ?_, by omega⟩
        rw [t2, Nat.add_assoc, htake, List.append_assoc]
      · obtain ⟨t, t1, t2, t3, t4, t5, t6⟩ := i2 (by omega) (by omega)
        refine ⟨t, t1, ?_, by rw [hdrop]; exact t3, t4, t5, t6⟩
        rw [t2, htake, List.append_assoc]
  · have hh : handOver bytes s = writeBytes left s := by
      unfold handOver drainIfFull
      rw [if_neg hfull]
    rw [hh]
    exact writeBytes_granted left (by omega) he hg

/-- A step in progress is one of a call. -/
theorem stepBytes_inCall {s : State} {bytes : List Byte} (hb : s.stepBytes? = some bytes) :
    s.enc.phase.inCall = true := by
  unfold State.stepBytes? at hb
  split at hb <;> rename_i hph <;> rw [hph] <;> first | rfl | cases hb

/-- A step of a call hands over the bytes in progress; in the trailer phase it then flushes. -/
theorem encStep_emits {s : State} {bytes : List Byte} (hb : s.stepBytes? = some bytes) :
    ∃ k, encStep s = emitThen bytes k s ∧ (s.enc.phase = .trailer → k = flushThenFinish) := by
  unfold State.stepBytes? at hb
  split at hb <;> rename_i hph
  · cases hb
    exact ⟨_, by unfold encStep; rw [hph]; rfl, by simp [hph]⟩
  · split at hb
    · next hlt =>
      split at hb
      · next cur hf =>
        cases hb
        exact ⟨_, by unfold encStep; rw [hph]; simp only [encPixelStep]; rw [if_pos hlt, hf], by simp [hph]⟩
      all_goals cases hb
    · cases hb
  · cases hb
    exact ⟨_, by unfold encStep; rw [hph]; rfl, fun _ => rfl⟩
  all_goals cases hb

/-- A step of ENC that makes the offer after the last grant: it fails or waits there, as the plan of the sink says, and
leaves its registers; the sink has the granted chunks and what it keeps of that offer. -/
theorem encStep_stop {s : State} {bytes : List Byte} {n : Nat} (hb : s.stepBytes? = some bytes)
    (he : s.enc.wr.err = false) (hroom : s.enc.wr.buf.length ≤ s.par.chunk) (hg : s.sink.grants = some n)
    (hm : s.offersMore (bytes.drop s.enc.sent) n) :
    ∃ u, Sent bytes s.sink.tail.outcome s u ∧
      encStep s = (match s.sink.tail with
        | .failed _ => .next (raiseEnc .ioSink u)
        | .silent => .next u) ∧
      u.sink.bytes = s.sink.bytes ++
        (s.enc.wr.buf ++ bytes.drop s.enc.sent).take (n * s.par.chunk + min s.sink.tail.kept s.par.chunk) ∧
      u.enc.sent = s.enc.sent +
        ((bytes.drop s.enc.sent).take ((n + 1) * s.par.chunk - s.enc.wr.buf.length)).length := by
  obtain ⟨g1, g2⟩ := handOver_granted bytes hroom he hg
  obtain ⟨hs, -⟩ := handOver_sent bytes s
  obtain ⟨k, hk, hkt⟩ := encStep_emits hb
  rw [hk]
  unfold emitThen
  by_cases hfull : (n + 1) * s.par.chunk ≤ (s.enc.wr.buf ++ bytes.drop s.enc.sent).length
  · obtain ⟨u, u1, u2, u3⟩ := g1 hfull
    rw [u1] at hs ⊢
    refine ⟨u, hs, by cases s.sink.tail <;> rfl, u2, ?_⟩
    rw [u3, List.length_take, Nat.min_eq_left (by rw [List.length_append] at hfull; omega)]
  · obtain ⟨hph, hlt⟩ := hm.resolve_left hfull
    obtain ⟨u, u1, u2, u3, u4, u5, u6⟩ := g2 hlt.le (by omega)
    rw [u1] at hs ⊢
    have hue : u.enc.wr.err = false := by rw [u3]
    have hne : u.enc.wr.buf ≠ [] := fun e => by
      have := congrArg List.length (u3 ▸ e)
      simp only [List.length_drop, List.length_nil] at this
      omega
    obtain ⟨v, v1, v2, v3⟩ := drain_stop hne hue u4
    have hfl : flush u = (s.sink.tail.outcome, v) := by
      unfold flush
      rw [if_neg (by simp [hue]), v1, u5]
    obtain ⟨w, wo, -⟩ := flush_written u
    rw [hfl] at w wo
    simp only [List.length_append, Nat.succ_mul] at hfull
    refine ⟨v, hs.flushed w fun h => (wo h).2, ?_, ?_, ?_⟩
    · simp only [hkt hph, flushThenFinish, hfl]
      cases s.sink.tail <;> rfl
    · rw [v2, u2, u3, u5, List.append_assoc, ← List.take_add]
      congr 1
      rcases Nat.le_total s.sink.tail.kept s.par.chunk with hle | hle
      · rw [Nat.min_eq_left hle]
      · rw [List.take_of_length_le, List.take_of_length_le] <;> simp only [List.length_append] <;> omega
    · rw [v3, u6, List.take_of_length_le]
      rw [Nat.succ_mul]
      omega

end Sys2Proof.Machine
end

