-- ==== Sys2Proof/Laws/Reader.lean ====
section
/-! SUPPORT. The laws of RD and of the fetch: what reading changes, and what it reads in terms of the unread bytes alone,
whatever `CHUNK` and the answers of the source (40_byte_stream.md rules R133 and R144). -/

namespace Sys2Proof.Machine

/-! ## What reading changes -/

/-- Two states that differ at most in RD, `DEC.SPOS`, the bytes of the unit in progress and the source. -/
def ReadFrame (s t : State) : Prop :=
  t = { s with dec := { s.dec with rd := t.dec.rd, spos := t.dec.spos, pend := t.dec.pend }, src := t.src }

theorem ReadFrame.refl (s : State) : ReadFrame s s := rfl

theorem ReadFrame.trans {s t u : State} (h1 : ReadFrame s t) (h2 : ReadFrame t u) : ReadFrame s u := by
  unfold ReadFrame at *
  rw [h2, h1]

theorem ReadFrame.withPend {s t : State} (h : ReadFrame s t) (bs : List Byte) : ReadFrame s (t.withPend bs) := by
  unfold ReadFrame State.withPend State.withDec at *
  rw [h]

theorem ReadFrame.takeByte {s t : State} (h : ReadFrame s t) : ReadFrame s t.takeByte := by
  unfold ReadFrame State.takeByte State.withDec at *
  rw [h]

/-- `RD.fill` and the byte after it change RD, `DEC.SPOS` and the source only. -/
theorem fillAndRead_frame (s : State) : ReadFrame s (fillAndRead s).2 := by
  unfold fillAndRead
  split <;> rfl

/-- `RD.read_u8` changes RD, `DEC.SPOS` and the source only. -/
theorem readU8_frame (s : State) : ReadFrame s (readU8 s).2 := by
  unfold readU8
  split
  · exact fillAndRead_frame s
  · split
    · rfl
    · split
      · rfl
      · exact (ReadFrame.refl s).takeByte

/-- The state a fetch ends in. -/
def Fetched.state : Fetched → State
  | .instr _ t => t
  | .error _ t => t
  | .waiting t => t

/-- A fetch changes RD, `DEC.SPOS`, the bytes of the unit in progress and the source only. -/
theorem fetchFrom_frame (k : Record) (fuel : Nat) (bs : List Byte) (s : State) :
    ReadFrame s (fetchFrom k fuel bs s).state := by
  induction fuel generalizing bs s with
  | zero =>
    unfold fetchFrom
    split
    · split <;> exact (ReadFrame.refl s).withPend _
    · exact (ReadFrame.refl s).withPend _
  | succ fuel ih =>
    simp only [fetchFrom]
    split
    · split <;> exact (ReadFrame.refl s).withPend _
    · have hf := readU8_frame s
      split
      · next b s' he => rw [he] at hf; exact hf.trans (ih _ _)
      · next s' he => rw [he] at hf; exact hf.withPend _
      · next s' he => rw [he] at hf; exact hf.withPend _
      · next s' he => rw [he] at hf; exact hf.withPend _

theorem fetch_frame (k : Record) (s : State) : ReadFrame s (fetch k s).state := fetchFrom_frame _ _ _ _

/-! ## One byte, in terms of the unread bytes -/

/-- An open reader with an unread byte hands over the first one (rules R133 and R144). -/
theorem readU8_byte {s : State} (ho : s.readerOpen) {b : Byte} {us : List Byte} (hu : s.unread = b :: us) :
    ∃ t, readU8 s = (.byte b, t) ∧ t.unread = us ∧ t.readerOpen ∧ t.dec.spos = s.dec.spos + 1 ∧
      t.src.tail = s.src.tail := by
  obtain ⟨h1, h2⟩ := ho
  unfold readU8
  by_cases hd : s.dec.rd.buf.drop s.dec.rd.pos = []
  · have hs : s.src.bytes = b :: us := by simpa [State.unread, hd] using hu
    rw [if_pos ⟨hd, h1, h2⟩]
    unfold fillAndRead Source.request
    rw [hs]
    refine ⟨_, rfl, ?_, ⟨by simpa using h1, by simpa using h2⟩, by simp, by simp⟩
    simp [State.unread]
  · rw [if_neg (by simp [hd]), if_neg (by simp [h2]), if_neg (by simp [h1])]
    obtain ⟨c, cs, hc⟩ := List.exists_cons_of_ne_nil hd
    have hbc : c = b ∧ cs ++ s.src.bytes = us := by
      have : c :: (cs ++ s.src.bytes) = b :: us := by simpa [State.unread, hc] using hu
      exact List.cons.inj this
    have hg : s.dec.rd.buf.getD s.dec.rd.pos 0#8 = b := by
      have : (s.dec.rd.buf.drop s.dec.rd.pos)[0]? = some c := by rw [hc]; rfl
      rw [List.getElem?_drop] at this
      simpa [List.getD_eq_getElem?_getD, hbc.1] using congrArg (·.getD 0#8) this
    refine ⟨_, by rw [hg], ?_, ⟨by simpa using h1, by simpa using h2⟩, by simp, by simp⟩
    have : s.dec.rd.buf.drop (s.dec.rd.pos + 1) = cs := by
      rw [← List.drop_drop, hc]; rfl
    simp [State.unread, this, hbc.2]

/-- An open reader without an unread byte answers as the source does (rules R131 to R133). -/
theorem readU8_end {s : State} (ho : s.readerOpen) (hu : s.unread = []) :
    readU8 s =
      match s.src.tail with
      | .silent => (.waiting, s)
      | .ended => (.ended, s.withDec { s.dec with rd := { s.dec.rd with buf := [], pos := 0, eof := true } })
      | .failed => (.failed, s.withDec { s.dec with rd := { s.dec.rd with err := true } }) := by
  obtain ⟨h1, h2⟩ := List.append_eq_nil_iff.mp hu
  unfold readU8
  rw [if_pos ⟨h1, ho.1, ho.2⟩]
  unfold fillAndRead Source.request
  rw [h2]
  cases s.src.tail <;> rfl

/-! ## The bytes of a unit -/

/-- The unit `k` as it is read off a list of bytes: the bytes read, the rest, and whether the unit is whole or refused. -/
def scan (k : Record) : Nat → List Byte → List Byte → List Byte × List Byte × Bool
  | fuel, bs, us =>
    if bytesNeeded k bs ≤ bs.length then (bs, us, true)
    else
      match fuel, us with
      | 0, us => (bs, us, false)
      | _, [] => (bs, [], false)
      | fuel + 1, u :: us => scan k fuel (bs ++ [u]) us

/-- Bytes made up to the longest instruction always decode. -/
theorem decodeRead_isSome (k : Record) (bs : List Byte) (h : 0 < bs.length) : (decodeRead k bs).isSome := by
  unfold decodeRead padded longestInstr
  rcases k with _ | _ | _
  · have : ∃ x, decode .header (bs ++ List.replicate 14 0#8) = .ok x := by
      have hl : 14 ≤ (bs ++ List.replicate 14 0#8).length := by simp
      generalize bs ++ List.replicate 14 0#8 = l at hl
      rcases l with _ | ⟨_, _ | ⟨_, _ | ⟨_, _ | ⟨_, _ | ⟨_, _ | ⟨_, _ | ⟨_, l⟩⟩⟩⟩⟩⟩⟩ <;>
        try (simp at hl; done)
      rcases l with _ | ⟨_, _ | ⟨_, _ | ⟨_, _ | ⟨_, _ | ⟨_, _ | ⟨_, _ | ⟨_, l⟩⟩⟩⟩⟩⟩⟩ <;>
        first | exact ⟨_, rfl⟩ | (simp at hl; done)
    obtain ⟨x, hx⟩ := this
    rw [hx]; rfl
  · obtain ⟨t, ts, rfl⟩ := List.exists_cons_of_ne_nil (List.ne_nil_of_length_pos h)
    have hl : 4 ≤ (ts ++ List.replicate 14 0#8).length := by simp
    show (match decodeToken (t :: (ts ++ List.replicate 14 0#8)) with
      | .ok (i, _) => some i | .error _ => none).isSome
    generalize ts ++ List.replicate 14 0#8 = l at hl
    obtain ⟨a, b, c, d, l, rfl⟩ : ∃ a b c d l', l = a :: b :: c :: d :: l' := by
      rcases l with _ | ⟨a, _ | ⟨b, _ | ⟨c, _ | ⟨d, l⟩⟩⟩⟩ <;> simp at hl
      exact ⟨a, b, c, d, l, rfl⟩
    have : ∃ x, decodeToken (t :: a :: b :: c :: d :: l) = .ok x := by
      unfold decodeToken decodeTagged
      simp only
      split_ifs <;> exact ⟨_, rfl⟩
    obtain ⟨x, hx⟩ := this
    rw [hx]; rfl
  · have hl : 8 ≤ (bs ++ List.replicate 14 0#8).length := by simp
    generalize bs ++ List.replicate 14 0#8 = l at hl
    rcases l with _ | ⟨_, _ | ⟨_, _ | ⟨_, _ | ⟨_, _ | ⟨_, _ | ⟨_, _ | ⟨_, _ | ⟨_, l⟩⟩⟩⟩⟩⟩⟩⟩ <;>
      first | (simp at hl; done) | rfl

/-- A unit read to its end has at least one byte. -/
theorem bytesNeeded_pos (k : Record) (bs : List Byte) : 0 < bytesNeeded k bs := by
  cases k with
  | header => simp only [bytesNeeded, headerNeed]; split_ifs <;> omega
  | token =>
    cases bs with
    | nil => simp [bytesNeeded]
    | cons t _ => simp only [bytesNeeded, tokenLength]; split_ifs <;> omega
  | trailer => simp [bytesNeeded]

/-- What a fetch comes to when the unread bytes hold the unit whole, or enough of it to refuse it. -/
theorem fetchFrom_whole {k : Record} {fuel : Nat} {bs got rest : List Byte} {s : State} (ho : s.readerOpen)
    (hs : scan k fuel bs s.unread = (got, rest, true)) :
    ∃ i t, fetchFrom k fuel bs s = .instr i t ∧ decodeRead k got = some i ∧ ReadFrame s t ∧ t.unread = rest ∧
      t.readerOpen ∧ t.dec.spos + bs.length = s.dec.spos + got.length ∧ t.dec.pend = [] ∧
      t.src.tail = s.src.tail := by
  induction fuel generalizing bs s with
  | zero =>
    unfold scan at hs
    unfold fetchFrom
    split at hs
    · next hn =>
      injection hs with h1 h2
      injection h2 with h2 _
      subst h1; subst h2
      obtain ⟨i, hi⟩ := Option.isSome_iff_exists.mp (decodeRead_isSome k bs (lt_of_lt_of_le (bytesNeeded_pos k bs) hn))
      rw [if_pos hn, hi]
      exact ⟨i, _, rfl, rfl, (ReadFrame.refl s).withPend _, rfl, ho, rfl, rfl, rfl⟩
    · simp at hs
  | succ fuel ih =>
    unfold scan at hs
    simp only [fetchFrom]
    split at hs
    · next hn =>
      injection hs with h1 h2
      injection h2 with h2 _
      subst h1; subst h2
      obtain ⟨i, hi⟩ := Option.isSome_iff_exists.mp (decodeRead_isSome k bs (lt_of_lt_of_le (bytesNeeded_pos k bs) hn))
      rw [if_pos hn, hi]
      exact ⟨i, _, rfl, rfl, (ReadFrame.refl s).withPend _, rfl, ho, rfl, rfl, rfl⟩
    · next hn =>
      rw [if_neg hn]
      cases hu : s.unread with
      | nil => rw [hu] at hs; simp at hs
      | cons b us =>
        rw [hu] at hs
        obtain ⟨t, ht, hr, hto, hsp, htl⟩ := readU8_byte ho hu
        have hf := readU8_frame s
        rw [ht] at hf ⊢
        obtain ⟨i, v, h1, h2, h3, h4, h5, h6, h7, h8⟩ := ih hto (by rw [hr]; exact hs)
        refine ⟨i, v, h1, h2, hf.trans h3, h4, h5, ?_, h7, h8.trans htl⟩
        simp at h6
        omega

/-- What a fetch comes to when the unread bytes end inside the unit. -/
theorem fetchFrom_short {k : Record} {fuel : Nat} {bs got : List Byte} {s : State} (ho : s.readerOpen)
    (hs : scan k fuel bs s.unread = (got, [], false)) (hfuel : s.unread.length < fuel) :
    ∃ t, ReadFrame s t ∧ t.dec.spos + bs.length = s.dec.spos + got.length ∧ t.src.tail = s.src.tail ∧ t.unread = [] ∧
      fetchFrom k fuel bs s =
        match s.src.tail with
        | .silent => .waiting (t.withPend got)
        | .ended => .error (truncation k) (t.withPend [])
        | .failed => .error .ioSource (t.withPend []) := by
  induction fuel generalizing bs s with
  | zero => omega
  | succ fuel ih =>
    unfold scan at hs
    simp only [fetchFrom]
    split at hs
    · simp at hs
    · next hn =>
      rw [if_neg hn]
      cases hu : s.unread with
      | nil =>
        rw [hu] at hs
        have hg : bs = got := by simpa using congrArg (·.1) hs
        subst hg
        have hf := readU8_frame s
        have hb : s.dec.rd.buf.drop s.dec.rd.pos = [] ∧ s.src.bytes = [] := List.append_eq_nil_iff.mp hu
        rw [readU8_end ho hu] at hf ⊢
        cases ht : s.src.tail <;> rw [ht] at hf
        · exact ⟨s, ReadFrame.refl s, rfl, ht, hu, rfl⟩
        · exact ⟨_, hf, rfl, ht, by simp [State.unread, hb], rfl⟩
        · exact ⟨_, hf, rfl, ht, by simp [State.unread, hb], rfl⟩
      | cons b us =>
        rw [hu] at hs hfuel
        obtain ⟨t, ht, hr, hto, hsp, htl⟩ := readU8_byte ho hu
        have hf := readU8_frame s
        rw [ht] at hf ⊢
        obtain ⟨v, h1, h2, h3, h4, h5⟩ := ih hto (by rw [hr]; exact hs) (by simpa [hr] using hfuel)
        refine ⟨v, hf.trans h1, ?_, h3.trans htl, h4, ?_⟩
        · simp at h2
          omega
        · rw [← htl]; exact h5

end Sys2Proof.Machine
end

