-- ==== Sys2Proof/Laws/Words.lean ====
section
/-! SUPPORT. The bytes of words and of tokens: big-endian words as numbers,
  and the fields of a tag byte (20_memory.md rule
R67; 30_encoding.md rules R96 to R99). -/

namespace Sys2Proof.Machine

/-- A byte below other bits, as a number. -/
theorem append_byte_toNat {n : Nat} (x : BitVec n) (b : Byte) : (x ++ b).toNat = x.toNat * 256 + b.toNat := by
  rw [BitVec.toNat_append, ← Nat.shiftLeft_add_eq_or_of_lt b.isLt, Nat.shiftLeft_eq]

/-- Four big-endian bytes as a number (40_byte_stream.md rule R134). -/
theorem wordOfBytes_toNat (b0 b1 b2 b3 : Byte) :
    (wordOfBytes b0 b1 b2 b3).toNat = b0.toNat * 2 ^ 24 + b1.toNat * 2 ^ 16 + b2.toNat * 2 ^ 8 + b3.toNat := by
  show (b0 ++ b1 ++ b2 ++ b3).toNat = _
  simp only [append_byte_toNat]; omega

/-- Eight bits of a word, as a number. -/
theorem extract_toNat {n : Nat} (x : BitVec n) (s : Nat) : (x.extractLsb' s 8).toNat = x.toNat / 2 ^ s % 256 := by
  rw [BitVec.extractLsb'_toNat, Nat.shiftRight_eq_div_pow]

/-- The bytes of the word of four bytes are those four. -/
theorem bytesOfWord_wordOfBytes (b0 b1 b2 b3 : Byte) : bytesOfWord (wordOfBytes b0 b1 b2 b3) = [b0,b1,b2,b3] := by
  simp only [bytesOfWord, List.cons.injEq, and_true]
  refine ⟨?_, ?_, ?_, ?_⟩ <;> apply BitVec.eq_of_toNat_eq <;> rw [extract_toNat, wordOfBytes_toNat] <;> omega

/-- The word of the bytes of a word is that word. -/
theorem wordOfBytes_bytesOfWord (w : Word) : 
  wordOfBytes (w.extractLsb' 24 8) (w.extractLsb' 16 8) (w.extractLsb' 8 8) (w.extractLsb' 0 8) = w := by
  apply BitVec.eq_of_toNat_eq
  simp only [wordOfBytes_toNat, extract_toNat]
  omega

/-- Eight bytes, the first most significant, as a number. -/
theorem trailerOfBytes_toNat (b0 b1 b2 b3 b4 b5 b6 b7 : Byte) :
    (trailerOfBytes b0 b1 b2 b3 b4 b5 b6 b7).toNat =
      ((((((b0.toNat * 256 + b1.toNat) * 256 + b2.toNat) * 256 + b3.toNat) * 256 + b4.toNat) * 256 + b5.toNat) * 256 +
        b6.toNat) * 256 + b7.toNat := by
  show (b0 ++ b1 ++ b2 ++ b3 ++ b4 ++ b5 ++ b6 ++ b7).toNat = _
  simp only [append_byte_toNat]

/-- The bytes of the number of eight bytes are those eight. -/
theorem bytesOfTrailer_trailerOfBytes (b0 b1 b2 b3 b4 b5 b6 b7 : Byte) :
    bytesOfTrailer (trailerOfBytes b0 b1 b2 b3 b4 b5 b6 b7) = [b0,b1,b2,b3,b4,b5,b6,b7] := by
  simp only [bytesOfTrailer, List.cons.injEq, and_true]
  refine ⟨?_, ?_, ?_, ?_, ?_, ?_, ?_, ?_⟩ <;> apply BitVec.eq_of_toNat_eq <;> rw [extract_toNat,
    trailerOfBytes_toNat] <;> omega

/-- The number of the bytes of a 64-bit number is that number. -/
theorem trailerOfBytes_bytesOfTrailer (t : BitVec 64) :
    trailerOfBytes (t.extractLsb' 56 8) (t.extractLsb' 48 8) (t.extractLsb' 40 8) (t.extractLsb' 32 8)
      (t.extractLsb' 24 8) (t.extractLsb' 16 8) (t.extractLsb' 8 8) (t.extractLsb' 0 8) = t := by
  apply BitVec.eq_of_toNat_eq
  simp only [trailerOfBytes_toNat, extract_toNat]
  omega

/-- A byte is its two top bits and the other six. -/
theorem byte_split2 (t : Byte) : (t.extractLsb' 6 2 ++ t.extractLsb' 0 6 : BitVec 8) = t := by
  revert t; decide +revert

/-- A byte is its four pairs of bits. -/
theorem byte_split4 (t : Byte) : (t.extractLsb' 6 2 ++ t.extractLsb' 4 2 ++ t.extractLsb' 2 2 ++ t.extractLsb' 0 2 :
    BitVec 8) = t := by
  revert t; decide +revert

/-- A byte is its two halves. -/
theorem byte_splitN (t : Byte) : (t.extractLsb' 4 4 ++ t.extractLsb' 0 4 : BitVec 8) = t := by
  revert t; decide +revert

/-- The byte of an INDEX token and its field (rule R96). -/
theorem index_byte : ∀ x : BitVec 6, (0b00#2 ++ x : Byte) ≠ 0xFE#8 ∧ (0b00#2 ++ x : Byte) ≠ 0xFF#8 ∧
    tagBits (0b00#2 ++ x) = 0b00#2 ∧
    (0b00#2 ++ x : Byte).extractLsb' 0 6 = x := by decide

/-- The byte of a DIFF token and its fields (rule R97). -/
theorem diff_byte : ∀ x y z : BitVec 2, (0b01#2 ++ x ++ y ++ z : Byte) ≠ 0xFE#8 ∧
    (0b01#2 ++ x ++ y ++ z : Byte) ≠ 0xFF#8 ∧ tagBits (0b01#2 ++ x ++ y ++ z) = 0b01#2 ∧
    (0b01#2 ++ x ++ y ++ z : Byte).extractLsb' 4 2 = x ∧ (0b01#2 ++ x ++ y ++ z : Byte).extractLsb' 2 2 = y ∧
      (0b01#2 ++ x ++ y ++ z : Byte).extractLsb' 0 2 = z := by decide

/-- The first byte of a LUMA token and its field (rule R98). -/
theorem luma_byte : ∀ x : BitVec 6, (0b10#2 ++ x : Byte) ≠ 0xFE#8 ∧ (0b10#2 ++ x : Byte) ≠ 0xFF#8 ∧
    tagBits (0b10#2 ++ x) = 0b10#2 ∧
    (0b10#2 ++ x : Byte).extractLsb' 0 6 = x := by decide

/-- The second byte of a LUMA token and its fields (rule R98). -/
theorem rel_byte : ∀ x y : BitVec 4, (x ++ y : Byte).extractLsb' 4 4 = x ∧
    (x ++ y : Byte).extractLsb' 0 4 = y := by decide

/-- The byte of a RUN token and its field: below 62 it is neither 0xFE nor 0xFF (rule R99). -/
theorem run_byte : ∀ x : BitVec 6, x.toNat ≤ 61 → (0b11#2 ++ x : Byte) ≠ 0xFE#8 ∧ (0b11#2 ++ x : Byte) ≠ 0xFF#8 ∧
    tagBits (0b11#2 ++ x) = 0b11#2 ∧
    (0b11#2 ++ x : Byte).extractLsb' 0 6 = x := by decide

end Sys2Proof.Machine
end

