-- ==== Sys2Proof/Laws/Fetch.lean ====
section
/-! SUPPORT. The bytes a unit takes: how `scan` reads them,
  and that RD stays within its bounds (40_byte_stream.md rules R132 and R133; 41_header_trailer.md rules R162 and
  R166; 44_decoder.md rule R277). -/

namespace Sys2Proof.Machine

/-- No unit is longer than the header record. -/
theorem bytesNeeded_le (k : Record) (bs : List Byte) : bytesNeeded k bs ≤ 14 := by
  cases k with
  | header => simp only [bytesNeeded, headerNeed]; split_ifs <;> omega
  | token =>
    cases bs with
    | nil => simp [bytesNeeded]
    | cons t _ => simp only [bytesNeeded, tokenLength]; split_ifs <;> omega
  | trailer => simp [bytesNeeded]

/-- Fuel beyond the longest unit makes no difference. -/
theorem fetchFrom_fuel (k : Record) (f1 f2 : Nat) (bs : List Byte) (s : State) (h1 : 14 ≤ bs.length + f1) (h2 : 14 ≤
    bs.length + f2) :
    fetchFrom k f1 bs s = fetchFrom k f2 bs s := by
  induction f1 generalizing f2 bs s with
  | zero =>
    have := bytesNeeded_le k bs
    unfold fetchFrom
    rw [if_pos (by omega), if_pos (by omega)]
  | succ f1 ih =>
    cases f2 with
    | zero =>
      have := bytesNeeded_le k bs
      unfold fetchFrom
      rw [if_pos (by omega), if_pos (by omega)]
    | succ f2 =>
      simp only [fetchFrom]
      split
      · rfl
      · split
        · apply ih <;> simp <;> omega
        all_goals rfl

/-- One more byte of a unit that is not whole. -/
theorem scan_cons (k : Record) (fuel : Nat) (bs : List Byte) (u : Byte) (us : List Byte) (h : bs.length < bytesNeeded
    k bs) :
    scan k (fuel + 1) bs (u :: us) = scan k fuel (bs ++ [u]) us := by
  conv => lhs; unfold scan
  rw [if_neg (by omega)]

/-- No byte left and the unit not whole. -/
theorem scan_nil (k : Record) (fuel : Nat) (bs : List Byte) (h : bs.length < bytesNeeded k bs) :
    scan k fuel bs [] = (bs, [], false) := by
  unfold scan
  rw [if_neg (by omega)]; cases fuel <;> rfl

/-- The unit is whole, or refused. -/
theorem scan_done (k : Record) (fuel : Nat) (bs us : List Byte) (h : bytesNeeded k bs ≤ bs.length) :
    scan k fuel bs us = (bs, us, true) := by
  unfold scan
  rw [if_pos h]

/-- Several bytes in a row, none of which ends the unit before its last. -/
theorem scan_steps (k : Record) (fuel : Nat) (bs us vs : List Byte)
    (h : ∀ j < us.length, bs.length + j < bytesNeeded k (bs ++ us.take j)) :
    scan k (fuel + us.length) bs (us ++ vs) = scan k fuel (bs ++ us) vs := by
  induction us generalizing bs with
  | nil => simp
  | cons u us ih =>
    rw [List.length_cons, ← Nat.add_assoc, List.cons_append, scan_cons _ _ _ _ _ (by simpa using h 0 (by simp)), ih]
    · simp
    · intro j hj
      have := h (j + 1) (by simpa using hj)
      simp only [List.take_succ_cons] at this
      simp; omega

/-- The bytes of a unit as far as it is read: no part of them before the last ends it. -/
structure UnitBytes (k : Record) (us : List Byte) : Prop where
  more : ∀ j < us.length, j < bytesNeeded k (us.take j)
  le : us.length ≤ 14

/-- A unit is read to its end and no further. -/
theorem scan_unit {k : Record} {us : List Byte} (h : UnitBytes k us) (hd : bytesNeeded k us ≤ us.length) (vs : List
    Byte) :
    scan k longestInstr [] (us ++ vs) = (us, vs, true) := by
  have := scan_steps k (14 - us.length) [] us vs (by simpa using h.more)
  rw [Nat.sub_add_cancel h.le] at this
  exact this.trans (scan_done _ _ _ _ hd)

/-- A unit cut short is read as far as it goes. -/
theorem scan_cut {k : Record} {us : List Byte} (h : UnitBytes k us) (hd : us.length < bytesNeeded k us) :
    scan k longestInstr [] us = (us, [], false) := by
  have := scan_steps k (14 - us.length) [] us [] (by simpa using h.more)
  rw [Nat.sub_add_cancel h.le, List.append_nil] at this
  exact this.trans (scan_nil _ _ _ hd)

/-- A word that is not zero has a byte that is not zero. -/
theorem bytesOfWord_ne {w : Word} (h : w ≠ 0#32) : bytesOfWord w ≠ [0#8,0#8,0#8,0#8] := by
  intro e
  apply h
  have : bytesOfWord w = bytesOfWord 0#32 := e.trans rfl
  have hw := wordOfBytes_bytesOfWord w
  simp only [bytesOfWord, List.cons.injEq, and_true] at this
  obtain ⟨a,b,c,d⟩ := this
  rw [a,b,c,d] at hw
  exact hw.symm.trans (wordOfBytes_bytesOfWord 0#32)

/-- The same, byte by byte. -/
theorem bytes_not_all_zero {w : Word} (h : w ≠ 0#32) : ¬ (w.extractLsb' 24 8 = 0#8 ∧ w.extractLsb' 16 8 = 0#8 ∧
    w.extractLsb' 8 8 = 0#8 ∧ w.extractLsb' 0 8 = 0#8) := by
  rintro ⟨a, b, c, d⟩
  exact bytesOfWord_ne h (by simp only [bytesOfWord, a, b, c, d])

/-- The bytes of a token, whole or cut short. -/
theorem token_unit (t : Byte) (rest : List Byte) (h : (t :: rest).length ≤ tokenLength t) : UnitBytes .token (t ::
    rest) := by
  have h5 : tokenLength t ≤ 5 := by unfold tokenLength; split_ifs <;> omega
  refine ⟨fun j hj => ?_, by omega⟩
  cases j with
  | zero => simp [bytesNeeded]
  | succ j => simp only [List.take_succ_cons, bytesNeeded]; omega

/-- The bytes of a trailer, whole or cut short. -/
theorem trailer_unit (us : List Byte) (h : us.length ≤ 8) : UnitBytes .trailer us :=
  ⟨fun j hj => by simp only [bytesNeeded]; omega, by omega⟩

/-- A header is read on as long as its fields are accepted (rules R162 and R163). -/
theorem header_more (w h : Word) (c cs : Byte) (j : Nat) (hj : j < 14) (hw : 8 ≤ j → w ≠ 0#32) (hh : 12 ≤ j →
    h ≠ 0#32) (hc : 13 ≤ j → c = 3#8 ∨ c = 4#8) :
    j < bytesNeeded .header ((encode (.header magicWord w h c cs)).take j) := by
  have a1 : 8 ≤ j → _ := fun e => bytes_not_all_zero (hw e)
  have a2 : 12 ≤ j → _ := fun e => bytes_not_all_zero (hh e)
  have a3 : 13 ≤ j → ¬ (¬ c = 3#8 ∧ ¬ c = 4#8) := fun e x => (hc e).elim x.1 x.2
  clear hw hh hc
  interval_cases j <;> simp [encode, bytesOfWord, bytesNeeded, headerNeed] <;> simp only [Nat.le_refl,
    Nat.reduceLeDiff, forall_const] at a1 a2 a3 <;> (try rw [if_neg a1]) <;> (try rw [if_neg a2]) <;> (try rw [if_neg
    a3]) <;> (try simp)

/-- The bytes of a header, whole or cut short, whose fields so far are accepted. -/
theorem header_unit (w h : Word) (c cs : Byte) (us : List Byte) (hw : 9 ≤ us.length → w ≠ 0#32) (hh : 13 ≤ us.length →
    h ≠ 0#32) (hc : 14 ≤ us.length → c = 3#8 ∨ c = 4#8)
    (hp : us <+: encode (.header magicWord w h c cs)) : UnitBytes .header us := by
  have hl : us.length ≤ 14 := hp.length_le
  refine ⟨fun j hj => ?_, hl⟩
  have := header_more w h c cs j (by omega) (fun _ => hw (by omega)) (fun _ => hh (by omega)) (fun _ => hc (by omega))
  rw [List.prefix_iff_eq_take.mp hp, List.take_take, Nat.min_eq_left (by omega)]
  exact this

/-- A token or a trailer that does not decode is cut short. -/
theorem decode_error_short {k : Record} {us : List Byte} (hk : k ≠ .header) (h : ∃ e, decode k us = .error e) :
    UnitBytes k us ∧ us.length < bytesNeeded k us := by
  obtain ⟨e, h⟩ := h
  cases k with
  | header => exact absurd rfl hk
  | trailer =>
    have hl : us.length < 8 := by
      rcases us with _ | ⟨_, _ | ⟨_, _ | ⟨_, _ | ⟨_, _ | ⟨_, _ | ⟨_, _ | ⟨_, _ | ⟨_, us⟩⟩⟩⟩⟩⟩⟩⟩ <;>
        first | (simp; done) | cases h
    exact ⟨trailer_unit us (by omega), hl⟩
  | token =>
    cases us with
    | nil => exact ⟨⟨by simp, by simp⟩, by simp [bytesNeeded]⟩
    | cons t us =>
      have hl : (t :: us).length < tokenLength t := by
        simp only [decode, decodeToken, decodeTagged] at h
        unfold tokenLength
        split_ifs at h ⊢ <;> rcases us with _ | ⟨_, _ | ⟨_, _ | ⟨_, _ | ⟨_, us⟩⟩⟩⟩ <;>
          first | (simp; done) | cases h
      exact ⟨token_unit t us hl.le, hl⟩

/-- Bytes that are cut short are a first part of a unit that wants more (60_exceptions.md rule R309, item 2). -/
theorem cutShort_unit {k : Record} {us : List Byte} (h : cutShort k us) :
    UnitBytes k us ∧ us.length < bytesNeeded k us := by
  cases k with
  | token => exact decode_error_short (by simp) h
  | trailer => exact decode_error_short (by simp) h
  | header =>
    rcases h with hl | ⟨hl, w, hh, c, cs, ⟨-, h1, h2, h3⟩, hp⟩
    · have need : ∀ bs : List Byte, bs.length < 4 → bytesNeeded .header bs = 4 := fun bs hb => if_pos hb
      refine ⟨⟨fun j hj => ?_, by omega⟩, by rw [need us hl]; exact hl⟩
      rw [need _ (by rw [List.length_take]; omega)]
      omega
    · refine ⟨header_unit w hh c cs us (fun _ => h1) (fun _ => h2) (fun _ => h3) hp, ?_⟩
      have := header_more w hh c cs us.length hl (fun _ => h1) (fun _ => h2) (fun _ => h3)
      rwa [← List.prefix_iff_eq_take.mp hp] at this

/-- The length of a token is that of its encoding (rules R100 and R102). -/
theorem tokenLength_encode (i : Instr) (hi : i.record = .token) (hw : i.wellFormed = true) :
    ∃ t us, encode i = t :: us ∧ tokenLength t = (t :: us).length := by
  cases i with
  | rgb => exact ⟨_, _, rfl, rfl⟩
  | rgba => exact ⟨_, _, rfl, rfl⟩
  | index x =>
    have h := index_byte x
    exact ⟨_, _, rfl, by unfold tokenLength; rw [if_neg h.1, if_neg h.2.1, h.2.2.1]; rfl⟩
  | diff x y z =>
    have h := diff_byte x y z
    exact ⟨_, _, rfl, by unfold tokenLength; rw [if_neg h.1, if_neg h.2.1, h.2.2.1]; rfl⟩
  | luma x y z =>
    have h := luma_byte x
    exact ⟨_, _, rfl, by unfold tokenLength; rw [if_neg h.1, if_neg h.2.1, h.2.2.1]; rfl⟩
  | run x =>
    have h := run_byte x (of_decide_eq_true hw)
    exact ⟨_, _, rfl, by unfold tokenLength; rw [if_neg h.1, if_neg h.2.1, h.2.2.1]; rfl⟩
  | header => cases hi
  | trailer => cases hi

/-- The encoding of an instruction is read whole. -/
theorem scan_encode (i : Instr) (rest : List Byte) (h : i.record = .token →
    i.wellFormed = true) (hr : readToTheEnd i) :
    scan i.record longestInstr [] (encode i ++ rest) = (encode i, rest, true) := by
  cases i with
  | header m w hh c cs =>
    obtain ⟨rfl, h1, h2, h3⟩ := hr
    refine scan_unit (header_unit w hh c cs _ (fun _ => h1) (fun _ => h2) (fun _ => h3) (List.prefix_refl _)) ?_ _
    exact bytesNeeded_le .header (encode (.header magicWord w hh c cs))
  | trailer t => exact scan_unit (trailer_unit _ (by rfl)) (by rfl) _
  | _ =>
    obtain ⟨t, us, e1, e2⟩ := tokenLength_encode _ rfl (h rfl)
    rw [e1]
    exact scan_unit (token_unit t us e2.ge) e2.le _

/-- A fetch ends in the truncation error of its unit or in the error of the source. -/
theorem fetchFrom_error (k : Record) (fuel : Nat) (bs : List Byte) (s : State) (e : Err) (t : State) (h : fetchFrom k
    fuel bs s = .error e t) : e = truncation k ∨ e = .ioSource := by
  induction fuel generalizing bs s with
  | zero =>
    unfold fetchFrom at h
    split at h
    · split at h <;> cases h; exact .inl rfl
    · cases h
  | succ fuel ih =>
    simp only [fetchFrom] at h
    split at h
    · split at h <;> cases h; exact .inl rfl
    · split at h
      · exact ih _ _ h
      · cases h; exact .inl rfl
      · cases h; exact .inr rfl
      · cases h

/-- What reading leaves alone, field by field. -/
theorem ReadFrame.same {s t : State} (h : ReadFrame s t) : t.par = s.par ∧ t.enc = s.enc ∧ t.pixin = s.pixin ∧
    t.pixout = s.pixout ∧ t.sink = s.sink ∧ t.dec.phase = s.dec.phase ∧ t.dec.status = s.dec.status ∧
    t.dec.req = s.dec.req ∧ t.dec.hdr = s.dec.hdr ∧ t.dec.och = s.dec.och ∧ t.dec.npix = s.dec.npix ∧
    t.dec.wcur = s.dec.wcur ∧ t.dec.prev = s.dec.prev ∧ t.dec.cache = s.dec.cache := by
  refine ⟨?_, ?_, ?_, ?_, ?_, ?_, ?_, ?_, ?_, ?_, ?_, ?_, ?_, ?_⟩ <;> rw [h]

/-- RD within its bounds, and open: `POS <= LIM <= CHUNK` (10_state.md rule R35). -/
def RdOk (s : State) : Prop := s.dec.rd.pos ≤ s.dec.rd.buf.length ∧ s.dec.rd.buf.length ≤ s.par.chunk ∧ s.readerOpen

/-- A read that does not fail keeps RD within its bounds. -/
theorem readU8_rdOk {s : State} (h : RdOk s) : ((∃ b, (readU8 s).1 = .byte b) ∨ (readU8 s).1 = .waiting) →
    RdOk (readU8 s).2 := by
  obtain ⟨h1, h2, h3, h4⟩ := h
  unfold readU8
  split
  · next hc =>
    unfold fillAndRead Source.request
    split
    · next hh =>
      split at hh
      · split at hh <;> cases hh
      · cases hh
        intro _
        refine ⟨by simp [State.takeByte, State.withDec], ?_, by simpa using h3, by simpa using h4⟩
        simp [State.takeByte, State.withDec, Params.chunk]
    · simp
    · simp
    · intro _; exact ⟨h1, h2, h3, h4⟩
  · next hc =>
    rw [if_neg (by simp [h4]), if_neg (by simp [h3])]
    intro _
    refine ⟨?_, h2, h3, h4⟩
    have : s.dec.rd.buf.drop s.dec.rd.pos ≠ [] := by simp_all
    have := List.drop_eq_nil_iff.not.mp this
    simp
    omega

/-- A fetch that does not fail keeps RD within its bounds. -/
theorem fetchFrom_rdOk (k : Record) (fuel : Nat) (bs : List Byte) {s : State} (h : RdOk s) :
    (∀ i t, fetchFrom k fuel bs s = .instr i t → RdOk t) ∧ (∀ t, fetchFrom k fuel bs s = .waiting t → RdOk t) := by
  induction fuel generalizing bs s with
  | zero =>
    unfold fetchFrom
    split
    · split <;> constructor <;> intros <;> (try contradiction)
      · next hh => cases hh; exact h
    · constructor <;> intros <;> (try contradiction)
      next hh => cases hh; exact h
  | succ fuel ih =>
    simp only [fetchFrom]
    split
    · split <;> constructor <;> intros <;> (try contradiction)
      · next hh => cases hh; exact h
    · have hr := readU8_rdOk h
      split
      · next b s' he => rw [he] at hr; exact ih _ (hr (.inl ⟨b, rfl⟩))
      · constructor <;> intros <;> contradiction
      · constructor <;> intros <;> contradiction
      · next s' he =>
        rw [he] at hr
        constructor <;> intros <;> (try contradiction)
        next hh => cases hh; exact hr (.inr rfl)

/-- `DEC.SPOS` does not move backwards (10_state.md rule R30). -/
theorem ReadFrame.spos_le (k : Record) (fuel : Nat) (bs : List Byte) (s : State) : s.dec.spos ≤ (fetchFrom k fuel bs
    s).state.dec.spos := by
  have r : ∀ s : State, s.dec.spos ≤ (readU8 s).2.dec.spos := by
    intro s
    unfold readU8 fillAndRead
    split_ifs <;> (try split) <;> simp
  induction fuel generalizing bs s with
  | zero =>
    unfold fetchFrom
    split
    · split <;> exact Nat.le_refl _
    · exact Nat.le_refl _
  | succ fuel ih =>
    simp only [fetchFrom]
    split
    · split <;> exact Nat.le_refl _
    · have := r s
      split <;> (rename_i hh; rw [hh] at this)
      · exact this.trans (ih _ _)
      all_goals exact this

end Sys2Proof.Machine
end

