-- ==== Sys2Proof/Laws/Step.lean ====
section
/-! SUPPORT. What a step of the machine is on an engine's turn, and runs of several steps. -/

namespace Sys2Proof.Machine

/-- On DEC's turn a step is one of DEC. -/
theorem step_dec {s : State} (h : s.decTurn) (hc : s.dec.phase.inCall = true) : step s = decStep { s with turn := .enc
    } := by
  unfold step
  rw [h.1]
  simp only [State.nextEngine, h.2, hc]
  rfl

/-- On ENC's turn a step is one of ENC. -/
theorem step_enc {s : State} (h : s.encTurn) (hc : s.enc.phase.inCall = true) : step s = encStep { s with turn := .dec
    } := by
  unfold step
  rw [h.1]
  simp only [State.nextEngine, h.2, hc]
  rfl

/-- With only ENC in a call a step is one of ENC. -/
theorem step_enc_alone {s : State} (h : s.agenda = []) (hd : s.dec.phase.inCall = false) (hc : s.enc.phase.inCall =
    true) :
    ∃ u, step s = encStep u ∧ u = { s with turn := .dec } := by
  refine ⟨_, ?_, rfl⟩
  unfold step
  rw [h]
  simp only [State.nextEngine, hc, hd]
  cases s.turn <;> rfl

/-- With only DEC in a call a step is one of DEC. -/
theorem step_dec_alone {s : State} (h : s.agenda = []) (hd : s.enc.phase.inCall = false) (hc : s.dec.phase.inCall =
    true) :
    ∃ u, step s = decStep u ∧ u = { s with turn := .enc } := by
  refine ⟨_, ?_, rfl⟩
  unfold step
  rw [h]
  simp only [State.nextEngine, hc, hd]
  cases s.turn <;> rfl

/-- A unit and its phase. -/
theorem recordPhase_record? (k : Record) : (recordPhase k).record? = some k := by cases k <;> rfl

/-- DEC reads units in a call only. -/
theorem recordPhase_inCall (k : Record) : (recordPhase k).inCall = true := by cases k <;> rfl

/-- A step of DEC on a unit cut short, by what the source then answers. -/
theorem step_short {s : State} {k : Record} (hn : s.readsNext k) (hu : UnitBytes k s.unread) (hd : s.unread.length <
    bytesNeeded k s.unread) :
    ∃ t, ReadFrame s t ∧ t.dec.spos = s.dec.spos + s.unread.length ∧ t.unread = [] ∧
      step s = match s.src.tail with
        | .silent => .next ({ t with turn := .enc }.withPend s.unread)
        | .ended => .next (raiseDec (truncation k) ({ t with turn := .enc }.withPend []))
        | .failed => .next (raiseDec .ioSource ({ t with turn := .enc }.withPend [])) := by
  obtain ⟨ht, hph, hp, ho⟩ := hn
  have hc : s.dec.phase.inCall = true := by rw [hph]; exact recordPhase_inCall _
  have hle := bytesNeeded_le k s.unread
  obtain ⟨t, h1, h2, h3, h4, h5⟩
    := fetchFrom_short (s := { s with turn := .enc }) (k := k) (bs := []) (fuel := longestInstr) ho (scan_cut hu hd)
    (by unfold longestInstr; exact lt_of_lt_of_le hd hle)
  refine ⟨{ t with turn := s.turn }, ?_, h2, h4, ?_⟩
  · unfold ReadFrame at h1 ⊢
    rw [h1]
  · have hturn : t.turn = .enc := by rw [h1]
    have heq : ({ ({ t with turn := s.turn } : State) with turn := .enc } : State) = t := by
      cases t; simp at hturn; subst hturn; rfl
    have hrec : ({ s with turn := .enc } : State).dec.phase.record? = some k := by
      rw [← recordPhase_record? k]
      exact congrArg _ hph
    rw [heq, step_dec ht hc]
    unfold decStep
    rw [hrec]
    simp only
    unfold fetch
    rw [show ({ s with turn := .enc } : State).dec.pend = [] from hp, h5]
    show _ = match s.src.tail with | .silent => _ | .ended => _ | .failed => _
    cases s.src.tail <;> rfl

/-- The first step of a run of any machine. -/
theorem machine_run_succ (M : Host.Core) {n : Nat} {s t : M.State} (h : M.step s = .next t) : M.run (n+1) s = M.run n
    t := by
  simp only [Host.Core.run, h]

/-- A run after a run of any machine. -/
theorem machine_run_add (M : Host.Core) {n m : Nat} {s t : M.State} (h : M.run n s = .next t) : M.run (n + m) s =
    M.run m t := by
  induction n generalizing s with
  | zero =>
    simp only [Host.Core.run] at h
    injection h with h
    rw [h, Nat.zero_add]
  | succ n ih =>
    rw [Nat.succ_add]
    simp only [Host.Core.run] at h ⊢
    split at h
    · next u hu => exact ih h
    · cases h
    · cases h

/-- The first step of a run. -/
theorem run_succ {n : Nat} {s t : State} (h : step s = .next t) : Sys2Proof.core.run (n+1) s = Sys2Proof.core.run n t
    :=
  machine_run_succ Sys2Proof.core h

/-- A run after a run. -/
theorem run_add {n m : Nat} {s t : State} (h : Sys2Proof.core.run n s = .next t) : Sys2Proof.core.run (n + m) s =
    Sys2Proof.core.run m t :=
  machine_run_add Sys2Proof.core h

end Sys2Proof.Machine
end

