-- ==== Sys2Proof/Laws/Invariant.lean ====
section
/-! SUPPORT. The invariant of Safety.lean: what it depends on, and its parts under the shared operations. -/

namespace Sys2Proof.Machine

/-- The invariant of ENC depends on the parameters, ENC and the bytes of the sink. -/
theorem EncInv.congr {s t : State} (h : EncInv s) (hp : t.par = s.par) (he : t.enc = s.enc)
    (hs : t.sink.bytes = s.sink.bytes) : EncInv t := by
  obtain ⟨h1,h2,h3,h4,h5,h6,h7,h8,h9,h10,h11⟩ := h
  constructor <;> simp only [State.emitted, hp, he, hs] <;> assumption

/-- The invariant of DEC depends on the parameters and DEC. -/
theorem DecInv.congr {s t : State} (h : DecInv s) (hp : t.par = s.par) (he : t.dec = s.dec) : DecInv t := by
  obtain ⟨h1,h2,h3,h4,h5,h6,h7,h8,h9,h10,h11⟩ := h
  constructor <;> simp only [State.forcesAlpha, State.readerOpen, hp, he] <;> assumption

/-- The order of turns is no matter of the invariant. -/
theorem inv_turns {s : State} (h : s.Inv) (a : List Turn) (g : Engine) : State.Inv { s with agenda := a, turn := g } :=
  ⟨h.enc.congr rfl rfl rfl, h.dec.congr rfl rfl, h.pixin, h.pixout⟩

/-- Outside a call ENC need only agree with its status. -/
theorem EncInv.out {s : State} (h : StatusInv s.enc.phase s.enc.status) (hc : s.enc.phase.inCall = false) : EncInv s
    := by
  have h1 : s.enc.phase ≠ .header := fun e => by rw [e] at hc; cases hc
  have h2 : s.enc.phase ≠ .body := fun e => by rw [e] at hc; cases hc
  have h3 : s.enc.phase ≠ .trailer := fun e => by rw [e] at hc; cases hc
  constructor <;> simp_all

/-- Outside a call DEC need only agree with its status. -/
theorem DecInv.out {s : State} (h : StatusInv s.dec.phase s.dec.status) (hc : s.dec.phase.inCall = false) : DecInv s
    := by
  have h1 : s.dec.phase ≠ .header := fun e => by rw [e] at hc; cases hc
  have h2 : s.dec.phase ≠ .body := fun e => by rw [e] at hc; cases hc
  have h3 : s.dec.phase ≠ .trailer := fun e => by rw [e] at hc; cases hc
  constructor <;> simp_all

/-- After an error `STATUS` is the error's. -/
theorem statusInv_failed (e : Err) : StatusInv .failed e.status := ⟨rfl, by simp, fun _ => ⟨e, rfl⟩⟩

/-- An engine that is not busy is in no call. -/
theorem StatusInv.notBusy {ph : Phase} {st : Status} (h : StatusInv ph st) (hb : st.busy = false) : ph.inCall = false
    := by
  rw [← h.busy, hb]

/-- An error of ENC. -/
theorem raiseEnc_inv (e : Err) (s : State) : EncInv (raiseEnc e s) := EncInv.out (statusInv_failed e) rfl

/-- An error of DEC. -/
theorem raiseDec_inv (e : Err) (s : State) : DecInv (raiseDec e s) := DecInv.out (statusInv_failed e) rfl

/-- A call of ENC that ends well. -/
theorem finishEnc_inv {s : State} (h : EncInv s) (hp : s.enc.phase ≠ .failed) : EncInv (finishEnc s) :=
  EncInv.out ⟨rfl, fun _ => by simpa using h.status.clean hp, by simp⟩ rfl

/-- A call of DEC that ends well. -/
theorem finishDec_inv {s : State} (h : DecInv s) (hp : s.dec.phase ≠ .failed) : DecInv (finishDec s) :=
  DecInv.out ⟨rfl, fun _ => by simpa using h.status.clean hp, by simp⟩ rfl

/-- ENC after bytes were handed over. -/
theorem EncInv.sent {s u : State} {bytes : List Byte} {o : WriteOutcome} (h : EncInv s) (hs : Sent bytes o s u) (ho :
    o ≠ .failed) :
    EncInv u := by
  obtain ⟨p, -, ep, -, pp, -, -⟩ := hs.taken
  have hf := hs.frame
  have e1 : u.par = s.par := by rw [hf]
  have e2 : u.enc.cfg = s.enc.cfg := by rw [hf]
  have e3 : u.enc.phase = s.enc.phase := by rw [hf]
  have e4 : u.enc.status = s.enc.status := by rw [hf]
  have e5 : u.enc.prev = s.enc.prev := by rw [hf]
  have e6 : u.enc.run = s.enc.run := by rw [hf]
  have e7 : u.enc.cache = s.enc.cache := by rw [hf]
  have e8 : u.enc.pix = s.enc.pix := by rw [hf]
  have e9 : u.enc.npix = s.enc.npix := by rw [hf]
  obtain ⟨h1,h2,h3,h4,h5,h6,h7,h8,h9,h10,h11⟩ := h
  constructor
  · simpa only [e3, e4] using h1
  · simpa only [e1, e2, e3] using h2
  · simpa only [e2, e3, e9] using h3
  · simpa only [e3, e8, e6] using h4
  · simpa only [e3, e8, e9] using h5
  · simpa only [e3, e8, e9, e6] using h6
  · simpa only [e3, e6] using h7
  · simpa only [e3, e2, e5] using h8
  · simpa only [e3, e2, e7] using h9
  · rw [e3, e1]; intro hc; exact ⟨hs.bounded (h10 hc).1, hs.clean (h10 hc).2 ho⟩
  · rw [e3]; intro hc; rw [pp, h11 hc, ep ho]; simp

/-- The machine after bytes were handed over. -/
theorem Sent.inv {bytes o} {s u : State} (h : s.Inv) (hs : Sent bytes o s u) (ho : o ≠ .failed) : u.Inv := by
  obtain ⟨e1, e2, e3, e4, -⟩ := hs.same
  exact ⟨h.enc.sent hs ho, h.dec.congr e1 e2, e3 ▸ h.pixin, e4 ▸ h.pixout⟩

/-- The machine after a sink that failed. -/
theorem Sent.raise_inv {bytes o} {s u : State} (h : s.Inv) (hs : Sent bytes o s u) (e : Err) : (raiseEnc e u).Inv := by
  obtain ⟨e1, e2, e3, e4, -⟩ := hs.same
  exact ⟨raiseEnc_inv _ _, h.dec.congr e1 e2, e3 ▸ h.pixin, e4 ▸ h.pixout⟩

/-- The machine after bytes were read. -/
theorem ReadFrame.inv {s t : State} (hf : ReadFrame s t) (h : s.Inv) (hr : t.dec.phase.inCall = true →
    RdOk t) : t.Inv := by
  obtain ⟨e1, e2, e3, e4, e5, e6, e7, e8, e9, e10, e11, e12, e13, e14⟩ := hf.same
  refine ⟨h.enc.congr e1 e2 (by rw [e5]), ?_, e3 ▸ h.pixin, e4 ▸ h.pixout⟩
  obtain ⟨h1,h2,h3,h4,h5,h6,h7,h8,h9,h10,h11⟩ := h.dec
  constructor
  · simpa only [e6, e7] using h1
  · simpa only [e6, e8] using h2
  · simpa only [e1, e6, e8, e9] using h3
  · simpa only [e6, e8, e9, e10] using h4
  · simpa only [e6, e9, e11] using h5
  · simpa only [e6, e12, e13, e14] using h6
  · simpa only [e6, e12, e11] using h7
  · simpa only [e6, e12, e11] using h8
  · simpa only [e6, State.forcesAlpha, e9, e1, e13] using h9
  · simpa only [e6, State.forcesAlpha, e9, e1, e14] using h10
  · exact hr

/-- `start` of an encode. -/
theorem startEnc_inv {s : State} (h : s.Inv) : (startEnc s).Inv := by
  have hpi := h.pixin; have hpo := h.pixout
  unfold startEnc
  split
  · exact h
  · simp only
    split
    · exact ⟨raiseEnc_inv _ _, h.dec.congr rfl rfl, hpi, hpo⟩
    · next hn =>
      refine ⟨⟨⟨rfl, by simp [callResetEnc], by simp⟩, fun _ => hn, fun _ => rfl, fun _ => ⟨rfl, rfl⟩, by simp,
        by simp,
        fun _ => by simp [callResetEnc], fun _ _ => rfl, fun _ _ i => .inr (cacheLookup_cacheReset i),
        fun _ => ⟨Nat.zero_le _, rfl⟩, fun _ => rfl⟩,
        h.dec.congr rfl rfl, hpi, hpo⟩

/-- `start` of a decode. -/
theorem startDec_inv {s : State} (h : s.Inv) : (startDec s).Inv := by
  have hpi := h.pixin; have hpo := h.pixout
  unfold startDec
  split
  · exact h
  · simp only
    split
    · exact ⟨h.enc.congr rfl rfl rfl, raiseDec_inv _ _, hpi, hpo⟩
    · next hn =>
      refine ⟨h.enc.congr rfl rfl rfl, ⟨⟨rfl, by simp [callResetDec], by simp⟩, fun _ => ?_, by simp, by simp,
        by simp, fun _ => ⟨rfl, rfl, rfl⟩, by simp, by simp,
        by simp, by simp, fun _ => ⟨Nat.le_refl _, Nat.zero_le _, rfl, rfl⟩⟩, hpi, hpo⟩
      change s.dec.req = _ ∨ s.dec.req = _ ∨ s.dec.req = _
      change ¬ (s.dec.req ≠ _ ∧ s.dec.req ≠ _ ∧ s.dec.req ≠ _) at hn
      tauto

/-- Every action of the host. -/
theorem hostStep_inv {a : HostAct} {s t : State} (h : s.Inv) (ht : hostStep a s = .next t) : t.Inv := by
  have hpi := h.pixin; have hpo := h.pixout
  have cfg : ∀ f, writeCfg f s = .next t → t.Inv := by
    intro f ht
    unfold writeCfg at ht
    split at ht
    · cases ht
    · next hb =>
      cases next_inj ht
      have := h.enc.status.notBusy (by simpa using hb)
      exact ⟨EncInv.out h.enc.status this, h.dec.congr rfl rfl, hpi, hpo⟩
  cases a with
  | startEnc => cases next_inj ht; exact startEnc_inv h
  | startDec => cases next_inj ht; exact startDec_inv h
  | abortEnc =>
    cases next_inj ht
    exact ⟨EncInv.out ⟨rfl, fun _ => ⟨rfl, rfl⟩, by simp [abortEnc, deadEnc]⟩ rfl, h.dec.congr rfl rfl, hpi, hpo⟩
  | abortDec =>
    cases next_inj ht
    exact ⟨h.enc.congr rfl rfl rfl, DecInv.out ⟨rfl, fun _ => ⟨rfl, rfl⟩, by simp [abortDec, deadDec]⟩ rfl, hpi, hpo⟩
  | hardReset =>
    cases next_inj ht
    exact ⟨EncInv.out ⟨rfl, fun _ => ⟨rfl, rfl⟩, by simp [hardReset, deadEnc]⟩ rfl,
      DecInv.out ⟨rfl, fun _ => ⟨rfl, rfl⟩, by simp [hardReset, deadDec]⟩ rfl, hpi, hpo⟩
  | cfgWidth v =>
    simp only [hostStep] at ht
    exact cfg _ ht
  | cfgHeight v =>
    simp only [hostStep] at ht
    exact cfg _ ht
  | cfgCh v =>
    simp only [hostStep] at ht
    exact cfg _ ht
  | cfgCs v =>
    simp only [hostStep] at ht
    exact cfg _ ht
  | cfgLen v =>
    simp only [hostStep] at ht
    exact cfg _ ht
  | req v =>
    simp only [hostStep, writeReq] at ht
    split at ht
    · cases ht
    · next hb =>
      cases next_inj ht
      have := h.dec.status.notBusy (by simpa using hb)
      exact ⟨h.enc.congr rfl rfl rfl, DecInv.out h.dec.status this, hpi, hpo⟩
  | pixin a bs =>
    simp only [hostStep, writePixin] at ht
    split at ht
    · cases ht
    · cases next_inj ht
      exact ⟨h.enc.congr rfl rfl rfl, h.dec.congr rfl rfl, memWrite_wf hpi _ _, hpo⟩
  | source _ => cases next_inj ht; exact ⟨h.enc.congr rfl rfl rfl, h.dec.congr rfl rfl, hpi, hpo⟩
  | feed _ _ => cases next_inj ht; exact ⟨h.enc.congr rfl rfl rfl, h.dec.congr rfl rfl, hpi, hpo⟩
  | sink _ _ => cases next_inj ht; exact ⟨h.enc.congr rfl rfl rfl, h.dec.congr rfl rfl, hpi, hpo⟩

/-- Of three channels the pixel fetched has alpha 255 (43_encoder.md rule R212). -/
theorem fetchPixel_alpha {s : State} {cur : Pixel} (h : fetchPixel s = .pixel cur) (hc : s.enc.cfg.ch = 3#8) : cur.a =
    255#8 := by
  simp only [fetchPixel, hc] at h
  split at h
  · cases h
  · split at h
    · cases h
    · next v hv =>
      have hl := (memRead_eq_some.mp hv).1
      split at h
      · cases h
      · next p hp =>
        cases h
        rcases v with _ | ⟨_, _ | ⟨_, _ | ⟨_, _ | ⟨_, _⟩⟩⟩⟩ <;> simp at hl
        cases hp; rfl

/-- A configuration that passes the checks has a pixel (43_encoder.md rule R211). -/
theorem encUsageError_pos {c : Cfg} {m : Nat} (h : encUsageError c m = none) : 0 < c.width.toNat * c.height.toNat := by
  unfold encUsageError at h
  split at h
  · cases h
  · next hn =>
    push Not at hn
    have h1 : 0 < c.width.toNat := Nat.pos_of_ne_zero fun e => hn.1 (BitVec.eq_of_toNat_eq e)
    have h2 : 0 < c.height.toNat := Nat.pos_of_ne_zero fun e => hn.2 (BitVec.eq_of_toNat_eq e)
    exact Nat.mul_pos h1 h2

end Sys2Proof.Machine
end

