-- ==== Sys2Proof/Laws/PerInstr.lean ====
section
/-! SUPPORT. What is said of every instruction as syntax, one lemma per constructor. -/

namespace Sys2Proof.Laws.EncodedLength

/-- The length in bytes spec/opcode_table.json gives each row (30_encoding.md rules R91, R92 and R94 to R99). -/
def tableLength : Instr → Nat
  | .rgb _ _ _ => 4
  | .rgba _ _ _ _ => 5
  | .index _ => 1
  | .diff _ _ _ => 1
  | .luma _ _ _ => 2
  | .run _ => 1
  | .header _ _ _ _ _ => 14
  | .trailer _ => 8

/-- An instruction is encoded in as many bytes as the table gives its row, at least one and never more than the header
record takes. -/
def Statement (i : Instr) : Prop :=
  (encode i).length = tableLength i ∧ 0 < tableLength i ∧ tableLength i ≤ longestInstr

/-- The proof, the same for every constructor. -/
theorem of_length {i : Instr} (n : Nat) (h : (encode i).length = n) (ht : tableLength i = n) (h0 : 0 < n)
    (hl : n ≤ 14) : Statement i := by
  unfold Statement longestInstr
  omega

theorem rgb (r g b : Byte) : Statement (.rgb r g b) := of_length 4 rfl rfl (by decide) (by decide)
theorem rgba (r g b a : Byte) : Statement (.rgba r g b a) := of_length 5 rfl rfl (by decide) (by decide)
theorem index (idx : Slot) : Statement (.index idx) := of_length 1 rfl rfl (by decide) (by decide)
theorem diff (dr2 dg2 db2 : BitVec 2) : Statement (.diff dr2 dg2 db2) := of_length 1 rfl rfl (by decide) (by decide)
theorem luma (dg32 : BitVec 6) (drg8 dbg8 : BitVec 4) : Statement (.luma dg32 drg8 dbg8) :=
  of_length 2 rfl rfl (by decide) (by decide)
theorem run (n1 : BitVec 6) : Statement (.run n1) := of_length 1 rfl rfl (by decide) (by decide)
theorem header (magic width height : Word) (channels colorspace : Byte) :
    Statement (.header magic width height channels colorspace) := of_length 14 rfl rfl (by decide) (by decide)
theorem trailer (bytes : BitVec 64) : Statement (.trailer bytes) := of_length 8 rfl rfl (by decide) (by decide)

end Sys2Proof.Laws.EncodedLength
end

