-- ==== Sys2Proof/Tests/Slice0.lean ====
section
/-! SUPPORT. Tests of the model, each expected value taken from the spec's tables (30_encoding.md) and vectors
(95_test_vectors.md), and for every statement with hypotheses a witness that meets them. -/

namespace Sys2Proof.Tests

open Sys2Proof.Machine

/-! ## Small states -/

/-- The next state of a step, if there is one. -/
def nextOf : Result → Option State
  | .next t => some t
  | .fault _ => none
  | .refused _ => none

/-- DEC in a call, in a phase, with a header of `npix` x 1 pixels of `ch` channels. -/
def decIn (ph : Phase) (ch : Byte) (npix : Nat) : Dec :=
  { State.reset.dec with
    phase := ph, status := ⟨true, 0#3, 0#4⟩, hdr := ⟨BitVec.ofNat 32 npix, 1#32, ch, 0#8⟩, och := ch, npix := npix }

/-- DEC about to read the unit `k`, the source holding `bytes`. -/
def reading (k : Record) (bytes : List Byte) (tail : SrcTail) : State :=
  { State.reset with
    par := ⟨3, 2 ^ 31 - 1, .force⟩, dec := decIn (recordPhase k) 4#8 2, src := ⟨bytes, [], tail⟩ }

/-- DEC in the token phase, with a policy for 3-channel alpha. -/
def body (ch : Byte) (npix : Nat) (alpha : Alpha3) : State :=
  { State.reset with par := ⟨3, 2 ^ 31 - 1, alpha⟩, dec := decIn .body ch npix }

/-- ENC in a call on a `w` x 1 image, the sink answering `grants` offers and failing after them. -/
def encoding (ph : Phase) (ch : Byte) (w : Nat) (pixin : List Byte) (grants : Option Nat) : State :=
  { State.reset with
    par := ⟨0, 2 ^ 31 - 1, .force⟩
    enc := { State.reset.enc with
      cfg := ⟨BitVec.ofNat 32 w, 1#32, ch, 0#8, w * ch.toNat⟩, phase := ph, status := ⟨true, 0#3, 0#4⟩, npix := w }
    pixin := memWrite [] 0 pixin
    sink := ⟨[], grants, .failed 0⟩
    turn := .enc }

/-- The same with a sink that answers `grants` offers and then as `tail` says, WR holding chunks of `chunk` bytes. -/
def offering (chunk : Nat) (ph : Phase) (w : Nat) (pixin : List Byte) (grants : Nat) (tail : SinkTail) : State :=
  { encoding ph 3#8 w pixin none with
    par := ⟨chunk - 1, 2 ^ 31 - 1, .force⟩
    sink := ⟨[], some grants, tail⟩ }

/-- A state with one turn of the host to come. -/
def asked (a : HostAct) (s : State) : State := { s with agenda := [.host a] }

/-! ## Well-formedness: ill-formed terms are refused -/

theorem test_wf_run : (Instr.run 61#6).wellFormed = true ∧ (Instr.run 62#6).wellFormed = false ∧
    (Instr.run 63#6).wellFormed = false := by decide
theorem test_wf_header : (Instr.header magicWord 0#32 0#32 9#8 9#8).wellFormed = true ∧
    (Instr.header 0x716F6967#32 1#32 1#32 3#8 0#8).wellFormed = false := by decide
theorem test_wf_trailer : (Instr.trailer trailerWord).wellFormed = true ∧ (Instr.trailer 0#64).wellFormed = false := by
  decide

/-! ## Decoding: words written out from 30_encoding.md -/

theorem test_decode_rgb : decode .token [0b11111110#8, 0b00000001#8, 0b00000010#8, 0b00000011#8] =
    .ok (.rgb 1#8 2#8 3#8, []) := by decide
theorem test_decode_rgba : decode .token [0b11111111#8, 0b00000001#8, 0b00000010#8, 0b00000011#8, 0b00000100#8] =
    .ok (.rgba 1#8 2#8 3#8 4#8, []) := by decide
theorem test_decode_index : decode .token [0b00111000#8] = .ok (.index 56#6, []) := by decide
theorem test_decode_diff : decode .token [0b01011011#8] = .ok (.diff 1#2 2#2 3#2, []) := by decide
theorem test_decode_luma : decode .token [0b10011010#8, 0b10001001#8] = .ok (.luma 26#6 8#4 9#4, []) := by decide
theorem test_decode_run : decode .token [0b11000101#8] = .ok (.run 5#6, []) := by decide
theorem test_decode_header : decode .header
    [0x71#8, 0x6F#8, 0x69#8, 0x66#8, 0#8, 0#8, 0#8, 2#8, 0#8, 0#8, 1#8, 0#8, 3#8, 1#8] =
    .ok (.header magicWord 2#32 256#32 3#8 1#8, []) := by decide
theorem test_decode_trailer : decode .trailer [0#8, 0#8, 0#8, 0#8, 0#8, 0#8, 0#8, 1#8, 7#8] =
    .ok (.trailer trailerWord, [7#8]) := by decide
/-- Table words: bytes from the low end for tokens, big-endian words for HEADER, one number for TRAILER. -/
theorem test_table_words :
    decodeTableWord 8 0x09 = some (.index 9#6) ∧ decodeTableWord 16 0xA8A0 = some (.luma 32#6 10#4 8#4) ∧
    decodeTableWord 8 0xFE = some (.rgb 0#8 0#8 0#8) ∧ decodeTableWord 40 0x04030201FF = some (.rgba 1#8 2#8 3#8 4#8) ∧
    decodeTableWord 32 0x716F6966 = some (.header magicWord 0#32 0#32 0#8 0#8) ∧
    decodeTableWord 64 1 = some (.trailer trailerWord) := by decide

/-! ## One step, from the vectors -/

/-- Vector E-6, first token. -/
theorem test_rgb : (nextOf (exec (.rgb 100#8 100#8 100#8) (body 4#8 1 .force))).map
    (fun t => (t.dec.prev, cacheLookup t.dec.cache 17#6, t.dec.wcur, t.dec.phase)) =
    some (⟨100#8, 100#8, 100#8, 255#8⟩, ⟨100#8, 100#8, 100#8, 255#8⟩, 1, .trailer) := by decide
/-- Vector X-2a. -/
theorem test_rgba_force : (nextOf (exec (.rgba 1#8 2#8 3#8 7#8) (body 3#8 1 .force))).map
    (fun t => (t.dec.prev, cacheLookup t.dec.cache 23#6, t.pixout)) =
    some (⟨1#8, 2#8, 3#8, 255#8⟩, ⟨1#8, 2#8, 3#8, 255#8⟩, [(0, 1#8), (1, 2#8), (2, 3#8)]) := by decide
/-- Vector X-2b. -/
theorem test_rgba_keep : (nextOf (exec (.rgba 1#8 2#8 3#8 7#8) (body 3#8 1 .keep))).map
    (fun t => (t.dec.prev, cacheLookup t.dec.cache 47#6)) =
    some (⟨1#8, 2#8, 3#8, 7#8⟩, ⟨1#8, 2#8, 3#8, 7#8⟩) := by decide
/-- Vector X-3a: a cold slot in a 3-channel stream. -/
theorem test_index_force : (nextOf (exec (.index 5#6) (body 3#8 1 .force))).map
    (fun t => (t.dec.prev, cacheLookup t.dec.cache 5#6)) =
    some (⟨0#8, 0#8, 0#8, 255#8⟩, ⟨0#8, 0#8, 0#8, 0#8⟩) := by decide
/-- Vector X-8, one of its eight tokens. -/
theorem test_index_cold : (nextOf (exec (.index 1#6) (body 4#8 8 .force))).map
    (fun t => (t.dec.prev, t.dec.wcur, t.pixout)) =
    some (⟨0#8, 0#8, 0#8, 0#8⟩, 1, [(0, 0#8), (1, 0#8), (2, 0#8), (3, 0#8)]) := by decide
/-- Vector E-7, first token: DIFF -1, 0, 1 on black wraps. -/
theorem test_diff_wraps : (nextOf (exec (.diff 1#2 2#2 3#2) (body 4#8 3 .force))).map
    (fun t => (t.dec.prev, cacheLookup t.dec.cache 57#6)) =
    some (⟨255#8, 0#8, 1#8, 255#8⟩, ⟨255#8, 0#8, 1#8, 255#8⟩) := by decide
/-- Vector X-4: DIFF 0, 0, 0 stores. -/
theorem test_diff_stores : (nextOf (exec (.diff 2#2 2#2 2#2) (body 4#8 1 .force))).map
    (fun t => cacheLookup t.dec.cache 53#6) = some ⟨0#8, 0#8, 0#8, 255#8⟩ := by decide
/-- Vector X-5. -/
theorem test_luma_low : (nextOf (exec (.luma 0#6 0#4 0#4) (body 4#8 1 .force))).map
    (fun t => (t.dec.prev, cacheLookup t.dec.cache 5#6)) =
    some (⟨216#8, 224#8, 216#8, 255#8⟩, ⟨216#8, 224#8, 216#8, 255#8⟩) := by decide
/-- Vector X-6. -/
theorem test_luma_high : (nextOf (exec (.luma 63#6 15#4 15#4) (body 4#8 1 .force))).map (fun t => t.dec.prev) =
    some ⟨38#8, 31#8, 38#8, 255#8⟩ := by decide
/-- Vector X-1: the surplus of a run is dropped. -/
theorem test_run_surplus : (nextOf (step (reading .token [0xC5#8] .ended))).map
    (fun t => (t.dec.wcur, t.dec.phase, t.dec.spos, memReadByte t.pixout 7, memReadByte t.pixout 8)) =
    some (2, .trailer, 1, some 255#8, none) := by decide
/-- Vector E-3's token: RUN 62 stores nothing. -/
theorem test_run_stores_nothing : (nextOf (exec (.run 61#6) (body 4#8 63 .force))).map
    (fun t => (t.dec.wcur, t.dec.phase, cacheLookup t.dec.cache 53#6)) =
    some (62, .body, ⟨0#8, 0#8, 0#8, 0#8⟩) := by decide
/-- Vector ER-10: a product of 2147483646 passes the size check. -/
theorem test_header_size_ok : (nextOf (exec (.header magicWord 715827882#32 1#32 3#8 0#8) (reading .header [] .ended))).map
    (fun t => (t.dec.phase, t.dec.npix, t.dec.och)) = some (.body, 715827882, 3#8) := by decide
/-- Vector ER-4: a width of zero is refused after 8 bytes. -/
theorem test_header_width : (nextOf (step (reading .header
    [0x71#8, 0x6F#8, 0x69#8, 0x66#8, 0#8, 0#8, 0#8, 0#8, 0#8, 0#8, 0#8, 1#8] .ended))).map
    (fun t => (t.dec.phase, t.dec.status, t.dec.spos)) = some (.failed, ⟨false, 1#3, 2#4⟩, 8) := by decide
/-- Vector ER-3: the last byte of the trailer is 00. -/
theorem test_trailer_corrupt : (nextOf (step (reading .trailer [0#8, 0#8, 0#8, 0#8, 0#8, 0#8, 0#8, 0#8] .ended))).map
    (fun t => (t.dec.phase, t.dec.status)) = some (.failed, ⟨false, 3#3, 1#4⟩) := by decide
/-- Vector ER-20: a trailer that is cut short and wrong is cut short. -/
theorem test_trailer_short : (nextOf (step (reading .trailer [0#8, 0#8, 0#8, 0#8, 0#8, 9#8] .ended))).map
    (fun t => (t.dec.phase, t.dec.status, t.dec.spos)) = some (.failed, ⟨false, 2#3, 3#4⟩, 6) := by decide

/-! ## The encoder, from the vectors -/

/-- Vector E-1. -/
theorem test_encode_luma_run : encodeAll (tokensOf [⟨10#8, 10#8, 10#8, 255#8⟩, ⟨10#8, 10#8, 10#8, 255#8⟩]) =
    [0xAA#8, 0x88#8, 0xC0#8] := by decide
/-- Vector E-10. -/
theorem test_encode_hit : encodeAll (tokensOf [⟨100#8, 100#8, 100#8, 255#8⟩, ⟨100#8, 100#8, 100#8, 254#8⟩,
      ⟨100#8, 100#8, 100#8, 255#8⟩]) =
    [0xFE#8, 0x64#8, 0x64#8, 0x64#8, 0xFF#8, 0x64#8, 0x64#8, 0x64#8, 0xFE#8, 0x11#8] := by decide

/-- Vector B-13: the sink fails on the first offer, made by the 16th byte; it keeps nothing. -/
theorem test_sink_fails : (nextOf (step { offering 16 .body 2 [10#8, 10#8, 10#8, 10#8, 10#8, 10#8] 0 (.failed 0) with
      enc := { (offering 16 .body 2 [10#8, 10#8, 10#8, 10#8, 10#8, 10#8] 0 (.failed 0)).enc with
        wr := ⟨encode (.header magicWord 2#32 1#32 3#8 0#8), false⟩, epos := 14 } })).map
    (fun t => (t.enc.phase, t.enc.status, t.sink.bytes, t.enc.epos)) =
    some (.failed, ⟨false, 5#3, 2#4⟩, [], 16) := by decide
/-- 93_implementation_defined.md U9: a sink that fails may have a first part of what was offered. -/
theorem test_sink_keeps_part : (nextOf (step (offering 4 .header 1 [] 2 (.failed 3)))).map
    (fun t => (t.enc.phase, t.sink.bytes)) =
    some (.failed, [0x71#8, 0x6F#8, 0x69#8, 0x66#8, 0#8, 0#8, 0#8, 1#8, 0#8, 0#8, 0#8]) := by decide

/-! ## The table words run as the first instruction after reset -/

theorem test_fetch_run : (nextOf (step (State.reset.withFetchWord 8 0xC1))).map
    (fun t => (t.dec.prev, t.dec.wcur)) = some (prevInit, 2) := by decide
theorem test_fetch_header : (nextOf (step (State.reset.withFetchWord 32 0x716F6966))).map
    (fun t => (t.dec.phase, t.dec.status)) = some (.failed, ⟨false, 1#3, 2#4⟩) := by decide
theorem test_fetch_trailer : (nextOf (step (State.reset.withFetchWord 64 1))).map
    (fun t => (t.dec.phase, t.dec.status)) = some (.done, ⟨false, 0#3, 0#4⟩) := by decide

/-! ## Witnesses: every statement's hypotheses are met -/

/-- The first bytes at the ends of every range of rule R100. -/
theorem witness_FirstByteSelectsToken :
    ([0x00#8, 0x3F#8, 0x40#8, 0x7F#8, 0x80#8, 0xBF#8, 0xC0#8, 0xFD#8, 0xFE#8, 0xFF#8] : List Byte).map
      (fun t => match decode .token [t, 0#8, 0#8, 0#8, 0#8] with
        | .ok (i, rest) => some (i.mnemonic, rest.length)
        | .error _ => none) =
    [some ("INDEX", 4), some ("INDEX", 4), some ("DIFF", 4), some ("DIFF", 4), some ("LUMA", 3), some ("LUMA", 3),
     some ("RUN", 4), some ("RUN", 4), some ("RGB", 1), some ("RGBA", 0)] := by decide
theorem witness_DecodeOfEncode : (Instr.run 0#6).wellFormed = true ∧ (Instr.run 61#6).wellFormed = true ∧
    (Instr.header magicWord 1#32 1#32 3#8 0#8).wellFormed = true ∧ (Instr.trailer trailerWord).wellFormed = true := by
  decide
theorem witness_EncodeOfDecode : decode .token [0xFD#8, 5#8] = .ok (.run 61#6, [5#8]) ∧
    decode .trailer [1#8, 2#8, 3#8, 4#8, 5#8, 6#8, 7#8, 8#8] = .ok (.trailer 0x0102030405060708#64, []) := by decide
theorem witness_OnlyShortUnitsRejected : (∃ e, decode .token [0x80#8] = .error e) ∧
    (∃ e, decode .token [0xFE#8, 1#8, 2#8] = .error e) ∧ (∃ e, decode .trailer [0#8] = .error e) ∧
    (∃ e, decode .header [0x71#8] = .error e) := ⟨⟨_, rfl⟩, ⟨_, rfl⟩, ⟨_, rfl⟩, ⟨_, rfl⟩⟩
theorem witness_HashIsWeightedSum : prevInit.a = 255#8 := by decide
theorem witness_CacheStoreThenLookup : (0#6 : Slot) ≠ 63#6 := by decide
theorem witness_RgbResult : (body 3#8 1 .force).tokenReady ∧ (body 4#8 2 .keep).tokenReady := by decide
theorem witness_RgbaResult : (body 3#8 1 .keep).tokenReady ∧ (body 4#8 2 .force).tokenReady := by decide
theorem witness_IndexResult : (body 3#8 1 .force).tokenReady ∧ (body 4#8 2 .keep).tokenReady := by decide
theorem witness_DiffResult : (body 3#8 1 .force).tokenReady ∧ (body 4#8 2 .keep).tokenReady := by decide
theorem witness_LumaResult : (body 3#8 1 .force).tokenReady ∧ (body 4#8 2 .keep).tokenReady := by decide
theorem witness_RunResult : (body 3#8 1 .force).tokenReady ∧ (body 4#8 63 .keep).tokenReady := by decide
theorem witness_TokenFrame : (∃ t, exec (.rgb 1#8 2#8 3#8) (body 4#8 2 .force) = .next t) ∧
    (∃ t, exec (.index 5#6) (body 4#8 2 .force) = .next t) ∧ tokenStores (.index 5#6) = false ∧
    (∃ t, exec (.run 61#6) (body 3#8 2 .force) = .next t) := ⟨⟨_, rfl⟩, ⟨_, rfl⟩, rfl, ⟨_, rfl⟩⟩
theorem witness_TokensThatStore : (∃ t, exec (.diff 0#2 1#2 2#2) (body 4#8 1 .force) = .next t) ∧
    (∃ t, exec (.run 0#6) (body 4#8 1 .force) = .next t) := ⟨⟨_, rfl⟩, ⟨_, rfl⟩⟩
theorem witness_TokenPixelCount : (∃ t, exec (.luma 1#6 2#4 3#4) (body 4#8 1 .force) = .next t) ∧
    (∀ n, Instr.luma 1#6 2#4 3#4 ≠ .run n) ∧ (∃ t, exec (.run 61#6) (body 4#8 1 .force) = .next t) :=
  ⟨⟨_, rfl⟩, fun _ h => (by cases h), ⟨_, rfl⟩⟩
theorem witness_ThreeChannelAlpha : (body 3#8 1 .force).forcesAlpha ∧ ¬ (body 3#8 1 .keep).forcesAlpha ∧
    ¬ (body 4#8 1 .force).forcesAlpha ∧ (body 4#8 1 .force).dec.och = 4#8 ∧ tokenStores (.rgba 1#8 2#8 3#8 7#8) = true ∧
    (∃ t, exec (.rgba 1#8 2#8 3#8 7#8) (body 3#8 1 .force) = .next t) ∧
    (∃ t, exec (.index 5#6) (body 3#8 1 .keep) = .next t) ∧
    (∃ t, exec (.rgb 1#8 2#8 3#8) (body 4#8 1 .force) = .next t) :=
  ⟨by decide, by decide, by decide, rfl, rfl, ⟨_, rfl⟩, ⟨_, rfl⟩, ⟨_, rfl⟩⟩
theorem witness_HeaderAccepted : (reading .header [] .ended).dec.phase = .header ∧ (1#32 : Word) ≠ 0#32 ∧
    (1#32 : Word).toNat * (1#32 : Word).toNat * max (3#8 : Byte).toNat (3#8 : Byte).toNat ≤
      (reading .header [] .ended).par.pixbufMax := by decide
/-- Row 0 and each of the six checks of rule R163, the size at its bound and one above. -/
theorem witness_HeaderChecksInOrder :
    (asked .startDec { State.reset with dec := { State.reset.dec with req := 5#8 } }).agenda = [.host .startDec] ∧
    State.reset.dec.status.busy = false ∧ (5#8 : Byte) ≠ 0#8 ∧ (5#8 : Byte) ≠ 3#8 ∧ (5#8 : Byte) ≠ 4#8 ∧
    (reading .header [] .ended).dec.phase = .header ∧ (0x716F6967#32 : Word) ≠ magicWord ∧
    ((5#8 : Byte) ≠ 3#8 ∧ (5#8 : Byte) ≠ 4#8) ∧ ((2#8 : Byte) ≠ 0#8 ∧ (2#8 : Byte) ≠ 1#8) ∧
    (reading .header [] .ended).par.pixbufMax < (715827883#32 : Word).toNat * 1 * 3 ∧
    (715827882#32 : Word).toNat * 1 * 3 ≤ (reading .header [] .ended).par.pixbufMax := by decide
theorem witness_HeaderRefusedAsRead_magic :
    (reading .header [0x71#8, 0x6F#8, 0x69#8, 0x67#8, 9#8] .ended).readsNext .header ∧
    wordOfBytes 0x71#8 0x6F#8 0x69#8 0x67#8 ≠ magicWord ∧
    (reading .header [0x71#8, 0x6F#8, 0x69#8, 0x67#8, 9#8] .ended).unread =
      [0x71#8, 0x6F#8, 0x69#8, 0x67#8] ++ [9#8] := by decide
theorem witness_HeaderRefusedAsRead_width :
    (reading .header (bytesOfWord magicWord ++ bytesOfWord 0#32 ++ [9#8]) .ended).readsNext .header ∧
    (reading .header (bytesOfWord magicWord ++ bytesOfWord 0#32 ++ [9#8]) .ended).unread =
      bytesOfWord magicWord ++ bytesOfWord 0#32 ++ [9#8] := by decide
theorem witness_HeaderRefusedAsRead_height :
    (reading .header (bytesOfWord magicWord ++ bytesOfWord 1#32 ++ bytesOfWord 0#32) .ended).readsNext .header ∧
    (reading .header (bytesOfWord magicWord ++ bytesOfWord 1#32 ++ bytesOfWord 0#32) .ended).unread =
      bytesOfWord magicWord ++ bytesOfWord 1#32 ++ bytesOfWord 0#32 ++ [] := by decide
theorem witness_HeaderRefusedAsRead_channels :
    (reading .header (bytesOfWord magicWord ++ bytesOfWord 1#32 ++ bytesOfWord 1#32 ++ [5#8]) .ended).readsNext .header ∧
    (reading .header (bytesOfWord magicWord ++ bytesOfWord 1#32 ++ bytesOfWord 1#32 ++ [5#8]) .ended).unread =
      bytesOfWord magicWord ++ bytesOfWord 1#32 ++ bytesOfWord 1#32 ++ [5#8] ++ [] := by decide
theorem witness_HeaderRefusedAsRead_colorspace :
    (reading .header (bytesOfWord magicWord ++ bytesOfWord 1#32 ++ bytesOfWord 1#32 ++ [3#8, 2#8]) .ended).readsNext
      .header ∧
    (reading .header (bytesOfWord magicWord ++ bytesOfWord 1#32 ++ bytesOfWord 1#32 ++ [3#8, 2#8]) .ended).unread =
      bytesOfWord magicWord ++ bytesOfWord 1#32 ++ bytesOfWord 1#32 ++ [3#8, 2#8] ++ [] := by decide
theorem witness_TrailerIsCompared : (reading .trailer [] .ended).dec.phase = .trailer ∧ (0#64 : BitVec 64) ≠ 1#64 := by
  decide
theorem witness_OutOfPhaseStops : ¬ State.reset.tokenReady ∧ State.reset.dec.phase ≠ .header ∧
    State.reset.dec.phase ≠ .trailer ∧ ¬ (body 4#8 0 .force).tokenReady := by decide
theorem witness_StepRunsDecodedInstruction : (reading .token [0x80#8, 0#8, 7#8] .silent).readsNext .token ∧
    decode .token (reading .token [0x80#8, 0#8, 7#8] .silent).unread = .ok (.luma 0#6 0#4 0#4, [7#8]) ∧
    readToTheEnd (.luma 0#6 0#4 0#4) ∧ readToTheEnd (.header magicWord 1#32 1#32 3#8 9#8) ∧
    (reading .header (encode (.header magicWord 1#32 1#32 3#8 9#8)) .ended).readsNext .header :=
  ⟨by decide, by decide, trivial, ⟨rfl, by decide, by decide, .inl rfl⟩, by decide⟩
theorem witness_TokenPhaseIsTotal : (reading .token [] .failed).decTurn ∧ (reading .token [] .failed).tokenReady := by
  decide
/-- The source ends where a tag is wanted, and inside a token. -/
theorem witness_TruncatedToken : (reading .token [] .ended).readsNext .token ∧
    (reading .token [] .ended).src.tail = .ended ∧ (∃ e, decode .token (reading .token [] .ended).unread = .error e) ∧
    (reading .token [0xFF#8, 1#8, 2#8, 3#8] .ended).readsNext .token ∧
    (∃ e, decode .token (reading .token [0xFF#8, 1#8, 2#8, 3#8] .ended).unread = .error e) :=
  ⟨by decide, rfl, ⟨_, rfl⟩, by decide, ⟨_, rfl⟩⟩
/-- A header cut short before its last byte, before its magic is whole though already wrong, and before any byte. -/
theorem witness_TruncatedRecord : (reading .trailer [0#8, 9#8] .ended).readsNext .trailer ∧
    (reading .trailer [0#8, 9#8] .ended).src.tail = .ended ∧
    (reading .trailer [0#8, 9#8] .ended).unread.length < 8 ∧
    (reading .header ((encode (.header magicWord 1#32 1#32 3#8 0#8)).take 13) .ended).readsNext .header ∧
    headerCutShort (reading .header ((encode (.header magicWord 1#32 1#32 3#8 0#8)).take 13) .ended).unread ∧
    headerCutShort (reading .header [9#8, 9#8, 9#8] .ended).unread ∧
    headerCutShort (reading .header [] .ended).unread :=
  ⟨by decide, rfl, by decide, by decide,
    .inr ⟨by decide, 1#32, 1#32, 3#8, 0#8, ⟨rfl, by decide, by decide, .inl rfl⟩, by decide⟩, .inl (by decide),
    .inl (by decide)⟩
/-- Vector B-14, where the header's first byte is wanted; and inside a header, a token and a trailer. -/
theorem witness_FailingSource : (reading .header [] .failed).readsNext .header ∧
    cutShort .header (reading .header [] .failed).unread ∧
    cutShort .header (reading .header [9#8, 9#8, 9#8] .failed).unread ∧
    (reading .token [0xFE#8] .failed).readsNext .token ∧ (reading .token [0xFE#8] .failed).src.tail = .failed ∧
    cutShort .token (reading .token [0xFE#8] .failed).unread ∧
    (reading .trailer [0#8] .failed).readsNext .trailer ∧ cutShort .trailer (reading .trailer [0#8] .failed).unread :=
  ⟨by decide, .inl (by decide), .inl (by decide), by decide, rfl, ⟨_, rfl⟩, by decide, ⟨_, rfl⟩⟩
theorem witness_WaitingStepKeepsRegisters : (reading .token [0xFE#8] .silent).readsNext .token ∧
    (reading .token [0xFE#8] .silent).src.tail = .silent ∧
    cutShort .token (reading .token [0xFE#8] .silent).unread ∧
    (reading .header [0x71#8] .silent).readsNext .header ∧
    cutShort .header (reading .header [0x71#8] .silent).unread := ⟨by decide, rfl, ⟨_, rfl⟩, by decide, .inl (by decide)⟩
/-- ENC waits in the middle of the header, at the very end of it, and in the flush. -/
theorem witness_WaitingStepKeepsRegisters_enc :
    (offering 4 .header 1 [] 2 .silent).encTurn ∧
    (offering 4 .header 1 [] 2 .silent).stepBytes? = some (encode (.header magicWord 1#32 1#32 3#8 0#8)) ∧
    (offering 4 .header 1 [] 2 .silent).enc.wr.err = false ∧
    (offering 4 .header 1 [] 2 .silent).enc.wr.buf.length ≤ (offering 4 .header 1 [] 2 .silent).par.chunk ∧
    (offering 4 .header 1 [] 2 .silent).sink.grants = some 2 ∧
    (offering 4 .header 1 [] 2 .silent).sink.tail = .silent ∧
    (offering 4 .header 1 [] 2 .silent).offersMore (encode (.header magicWord 1#32 1#32 3#8 0#8)) 2 ∧
    (offering 14 .header 1 [] 0 .silent).offersMore (encode (.header magicWord 1#32 1#32 3#8 0#8)) 0 ∧
    (offering 9 .trailer 1 [] 0 .silent).offersMore (encode (.trailer trailerWord)) 0 := by decide
theorem witness_WaitingLosesNothing : (reading .token [0xFE#8] .silent).readerOpen ∧
    (reading .token [0xFE#8] .silent).dec.pend = [] ∧
    ∃ t, fetch .token (reading .token [0xFE#8] .silent) = .waiting t := ⟨by decide, rfl, ⟨_, rfl⟩⟩
/-- The same bytes in the source, under another `CHUNK` and other answers. -/
theorem witness_ChunkIndependentFetch :
    (reading .token [0xFE#8, 1#8, 2#8, 3#8] .ended).readerOpen ∧
    (reading .token [0xFE#8, 1#8, 2#8, 3#8] .ended).unread =
      State.unread { reading .token [] .ended with
        par := ⟨0, 9, .keep⟩, src := ⟨[0xFE#8, 1#8, 2#8, 3#8], [0, 2, 0], .ended⟩ } := by decide
theorem witness_FetchedPixel : (encoding .body 4#8 1 [1#8, 2#8, 3#8, 4#8] none).enc.cfg.len = 4 ∧
    memReadByte (encoding .body 4#8 1 [1#8, 2#8, 3#8, 4#8] none).pixin 3 = some 4#8 ∧
    (encoding .body 3#8 1 [1#8, 2#8, 3#8] none).enc.cfg.len = 3 ∧
    memReadByte (encoding .body 3#8 1 [1#8, 2#8, 3#8] none).pixin 2 = some 3#8 := by decide
theorem witness_RangeTestsAreSigned : inLumaGreenRange 0xE0#8 = true ∧ inLumaGreenRange 31#8 = true := by decide
/-- A pixel for each row of the table of rule R214, against black: run, hit, small, luma, same alpha, other alpha. -/
theorem witness_TokenPriority :
    cacheLookup cacheReset (hash ⟨0#8, 0#8, 0#8, 0#8⟩) = ⟨0#8, 0#8, 0#8, 0#8⟩ ∧
    (⟨0#8, 0#8, 0#8, 0#8⟩ : Pixel) ≠ prevInit ∧
    cacheLookup cacheReset (hash ⟨1#8, 254#8, 0#8, 255#8⟩) ≠ ⟨1#8, 254#8, 0#8, 255#8⟩ ∧
    (1#8 - 0#8 : Byte).toInt = 1 ∧ (254#8 - 0#8 : Byte).toInt = -2 ∧
    (31#8 - 0#8 : Byte).toInt = 31 ∧ ((38#8 - 0#8) - (31#8 - 0#8) : Byte).toInt = 7 ∧
    ((23#8 - 0#8) - (31#8 - 0#8) : Byte).toInt = -8 ∧ ¬ (32#8 - 0#8 : Byte).toInt ≤ 31 ∧
    (⟨1#8, 1#8, 1#8, 254#8⟩ : Pixel).a ≠ prevInit.a := by decide
theorem witness_EncoderPixelStep : (encoding .body 3#8 1 [9#8, 9#8, 9#8] none).writesNext .body ∧
    (encoding .body 3#8 1 [9#8, 9#8, 9#8] none).sinkOpen ∧
    (encoding .body 3#8 1 [9#8, 9#8, 9#8] none).enc.pix < (encoding .body 3#8 1 [9#8, 9#8, 9#8] none).enc.npix ∧
    fetchPixel (encoding .body 3#8 1 [9#8, 9#8, 9#8] none) = .pixel ⟨9#8, 9#8, 9#8, 255#8⟩ := by decide
theorem witness_EncoderHeaderStep : (encoding .header 3#8 1 [] none).writesNext .header ∧
    (encoding .header 3#8 1 [] none).sinkOpen := by decide
theorem witness_EncoderFinish : (encoding .trailer 3#8 1 [] none).writesNext .trailer ∧
    (encoding .trailer 3#8 1 [] none).sinkOpen := by decide
theorem witness_FailingStepIsPrecise :
    (∃ t, engineStep .enc (encoding .body 3#8 1 [9#8, 9#8, 9#8] (some 1)) = .next t ∧ t.enc.phase = .failed) ∧
    (∃ t, engineStep .dec (reading .token [0xFE#8] .ended) = .next t ∧ t.dec.phase = .failed) :=
  ⟨⟨_, rfl, rfl⟩, ⟨_, rfl, rfl⟩⟩
/-- The failed offer is a whole chunk of the header, and what the flush offers. -/
theorem witness_FailingSink :
    (offering 4 .header 1 [] 2 (.failed 3)).encTurn ∧
    (offering 4 .header 1 [] 2 (.failed 3)).stepBytes? = some (encode (.header magicWord 1#32 1#32 3#8 0#8)) ∧
    (offering 4 .header 1 [] 2 (.failed 3)).enc.wr.err = false ∧
    (offering 4 .header 1 [] 2 (.failed 3)).enc.wr.buf.length ≤ (offering 4 .header 1 [] 2 (.failed 3)).par.chunk ∧
    (offering 4 .header 1 [] 2 (.failed 3)).sink.grants = some 2 ∧
    (offering 4 .header 1 [] 2 (.failed 3)).sink.tail = .failed 3 ∧
    (offering 4 .header 1 [] 2 (.failed 3)).offersMore (encode (.header magicWord 1#32 1#32 3#8 0#8)) 2 ∧
    (offering 9 .trailer 1 [] 0 (.failed 9)).stepBytes? = some (encode (.trailer trailerWord)) ∧
    (offering 9 .trailer 1 [] 0 (.failed 9)).offersMore (encode (.trailer trailerWord)) 0 := by decide
/-- The sink takes one byte and then does not answer well; outside a call there is no step in progress. -/
theorem witness_WriterKeepsOrder :
    (∃ t, engineStep .enc (encoding .body 3#8 1 [9#8, 9#8, 9#8] (some 1)) = .next t ∧ t.sink.bytes = [0xA9#8]) ∧
    (encoding .body 3#8 1 [9#8, 9#8, 9#8] (some 1)).stepBytes? = some [0xA9#8, 0x88#8] ∧
    (∃ t, engineStep .enc State.reset = .next t) ∧ State.reset.stepBytes? = none :=
  ⟨⟨_, rfl, rfl⟩, by decide, ⟨_, rfl⟩, by decide⟩
theorem witness_EncoderNeverEmits :
    Instr.index 0#6 ∈ (pixelEffectAt true prevInit 0#6 cacheReset ⟨0#8, 0#8, 0#8, 0#8⟩).tokens ∧
    Instr.run 0#6 ∈ (pixelEffectAt true prevInit 0#6 cacheReset prevInit).tokens := by decide
theorem witness_TokensCoverThePixels : Instr.run 0#6 ∈ tokensOf [prevInit] := by decide
theorem witness_StreamSizeBound : ∀ p ∈ [prevInit], p.a = 255#8 := by decide
/-- Vector E-4: 63 equal pixels. -/
theorem witness_AdjacentRunsAreCapped : (tokensOf (List.replicate 63 prevInit))[0]? = some (.run 61#6) ∧
    (tokensOf (List.replicate 63 prevInit))[0 + 1]? = some (.run 0#6) := by decide
theorem witness_LockStepPixel : (body 3#8 1 .force).tokenReady ∧ (body 3#8 1 .force).forcesAlpha ∧
    (body 3#8 1 .force).dec.prev.a = 255#8 ∧ (⟨1#8, 1#8, 1#8, 255#8⟩ : Pixel) ≠ (body 3#8 1 .force).dec.prev := by
  decide
theorem witness_TokensRoundTrip : (body 3#8 1 .force).dec.phase = .body ∧ (body 3#8 1 .force).dec.prev = prevInit ∧
    (body 3#8 1 .force).dec.cache = cacheReset ∧ (body 3#8 1 .force).dec.wcur = 0 ∧
    (body 3#8 1 .force).dec.npix = [prevInit].length ∧ (body 3#8 1 .force).forcesAlpha ∧
    ∀ p ∈ [prevInit], p.a = 255#8 := by decide
theorem witness_EncodeWritesTheStream :
    let s := encoding .header 3#8 1 [9#8, 9#8, 9#8] none
    s.agenda = [] ∧ s.dec.phase.inCall = false ∧ s.enc.phase = .header ∧ s.enc.sent = 0 ∧ s.sinkOpen ∧ s.emitted = [] ∧
    s.enc.prev = prevInit ∧ s.enc.run = 0#6 ∧ s.enc.cache = cacheReset ∧ s.enc.pix = 0 ∧ s.enc.npix = 1 ∧
    s.enc.cfg.len = 1 * s.enc.cfg.ch.toNat ∧ s.enc.cfg.ch = 3#8 ∧
    (∀ c < s.enc.cfg.ch.toNat, memReadByte s.pixin (0 * s.enc.cfg.ch.toNat + c) =
      (pixelBytes ⟨9#8, 9#8, 9#8, 255#8⟩ s.enc.cfg.ch.toNat)[c]?) := by decide
theorem witness_DecodeReadsTheStream :
    let s := reading .header (encode (.header magicWord 1#32 1#32 3#8 0#8) ++ encodeAll (tokensOf [prevInit]) ++
      encode (.trailer trailerWord) ++ [7#8]) .silent
    s.agenda = [] ∧ s.enc.phase.inCall = false ∧ s.dec.phase = .header ∧ s.dec.pend = [] ∧ s.readerOpen ∧
    s.dec.spos = 0 ∧ s.dec.prev = prevInit ∧ s.dec.cache = cacheReset ∧ s.dec.wcur = 0 ∧ s.dec.req = 0#8 ∧
    headerError s.par.pixbufMax s.dec.req magicWord 1#32 1#32 3#8 0#8 = none ∧
    (1#32 : Word).toNat * (1#32 : Word).toNat = [prevInit].length ∧ (∀ p ∈ [prevInit], p.a = 255#8) ∧
    s.unread = encode (.header magicWord 1#32 1#32 3#8 0#8) ++ encodeAll (tokensOf [prevInit]) ++
      encode (.trailer trailerWord) ++ [7#8] := by decide
/-- Each row of rule R211 at a value that fails it, and one configuration that passes. -/
theorem witness_EncStartChecks : (asked .startEnc State.reset).agenda = .host .startEnc :: [] ∧
    (asked .startEnc State.reset).enc.status.busy = false ∧
    encUsageError ⟨0#32, 1#32, 3#8, 0#8, 3⟩ 3 = some .usageDimensions ∧
    encUsageError ⟨1#32, 1#32, 5#8, 0#8, 3⟩ 3 = some .usageChannels ∧
    encUsageError ⟨1#32, 1#32, 3#8, 2#8, 3⟩ 3 = some .usageColorspace ∧
    encUsageError ⟨1#32, 1#32, 4#8, 0#8, 4⟩ 3 = some .usageSize ∧
    encUsageError ⟨1#32, 1#32, 3#8, 0#8, 4⟩ 3 = some .usageLength ∧
    encUsageError ⟨1#32, 1#32, 3#8, 0#8, 3⟩ 3 = none := by decide
theorem witness_DecStartChecks : (asked .startDec State.reset).agenda = .host .startDec :: [] ∧
    (asked .startDec State.reset).dec.status.busy = false ∧ (asked .startDec State.reset).dec.req = 0#8 ∧
    (asked .startDec { State.reset with dec := { State.reset.dec with req := 1#8 } }).agenda = .host .startDec :: [] ∧
    (asked .startDec { State.reset with dec := { State.reset.dec with req := 1#8 } }).dec.status.busy = false ∧
    ¬ ((1#8 : Byte) = 0#8 ∨ (1#8 : Byte) = 3#8 ∨ (1#8 : Byte) = 4#8) := by decide
theorem witness_CallResetValues : (asked .startEnc State.reset).agenda = .host .startEnc :: [] ∧
    (asked .startEnc State.reset).enc.status.busy = false ∧
    (asked .startDec State.reset).agenda = .host .startDec :: [] ∧
    (asked .startDec State.reset).dec.status.busy = false := by decide
theorem witness_AbortAndBusyStart : (asked .abortDec (body 4#8 1 .force)).agenda = .host .abortDec :: [] ∧
    (asked .abortEnc (encoding .body 3#8 1 [] none)).agenda = .host .abortEnc :: [] ∧
    (asked .startEnc (encoding .body 3#8 1 [] none)).enc.status.busy = true ∧
    (asked .startDec (body 4#8 1 .force)).dec.status.busy = true := by decide
theorem witness_ResetLeavesIdle : (asked .hardReset (body 4#8 1 .force)).agenda = .host .hardReset :: [] ∧
    State.reset.agenda = [] ∧ State.reset.enc.phase.inCall = false ∧ State.reset.dec.phase.inCall = false := by decide
theorem witness_ErrorsAreFinal :
    (∃ t, step { reading .token [] .ended with dec := decIn .failed 4#8 1 } = .next t) ∧
    (∃ t, step (asked .abortEnc (encoding .failed 3#8 1 [] none)) = .next t) := ⟨⟨_, rfl⟩, ⟨_, rfl⟩⟩
theorem witness_EngineFootprint : (∃ t, engineStep .dec (reading .token [0xC0#8] .ended) = .next t) ∧
    (∃ t, engineStep .enc (encoding .header 3#8 1 [] none) = .next t) := ⟨⟨_, rfl⟩, ⟨_, rfl⟩⟩
/-- Two states with the same DEC, source and `PIXOUT`, one with an encode in progress; and the other way round. -/
theorem witness_EnginesDoNotInterfere :
    let s := reading .token [0xC0#8] .ended
    let e := encoding .header 3#8 1 [] none
    ({ s with enc := e.enc } : State).dec = s.dec ∧ s.enc ≠ e.enc ∧ ({ e with dec := s.dec } : State).enc = e.enc ∧
    s.dec ≠ e.dec := by decide
theorem witness_CountersAdvance : (∃ t, engineStep .dec (reading .token [0xC0#8] .ended) = .next t) ∧
    (∃ t, engineStep .enc (encoding .body 3#8 1 [9#8, 9#8, 9#8] none) = .next t) := ⟨⟨_, rfl⟩, ⟨_, rfl⟩⟩

/-- A state in the middle of a decode that meets the invariant, and whose step answers a next state. -/
theorem witness_StepKeepsInvariant : (reading .token [0xC0#8] .ended).Inv ∧
    ∃ t, step (reading .token [0xC0#8] .ended) = .next t := by
  refine ⟨⟨EncInv.out ⟨rfl, fun _ => ⟨rfl, rfl⟩, fun h => by cases h⟩ rfl, ?_, by decide, by decide⟩, ⟨_, rfl⟩⟩
  exact ⟨⟨rfl, fun _ => ⟨rfl, rfl⟩, fun h => by cases h⟩, by decide, by decide, by decide, by decide, by decide,
    by decide, by decide, by decide, by decide, by decide⟩

end Sys2Proof.Tests
end

section
/-! SUPPORT. Every step keeps the invariant of Safety.lean: the steps of ENC, the instructions, the steps of DEC, and
then the machine. -/

namespace Sys2Proof.Machine

/-- `STATUS` of a call is the same in each of its phases (10_state.md rule R34). -/
theorem StatusInv.inCall {ph ph' : Phase} {st : Status} (h : StatusInv ph st) (hc : ph.inCall = true)
    (hc' : ph'.inCall = true) : StatusInv ph' st where
  busy := by rw [h.busy, hc, hc']
  clean _ := h.clean (by rintro rfl; cases hc)
  failed := by rintro rfl; cases hc'

/-- A store of an opaque pixel leaves no slot without alpha 255 but those never stored (42_pixel_cache.md rule R197). -/
theorem opaqueSlot_cacheStore {cache : Cache} {p : Pixel} (hc : ∀ i, opaqueSlot (cacheLookup cache i))
    (hp : opaquePixel p) (j i : Slot) : opaqueSlot (cacheLookup (cacheStore cache j p) i) := by
  rw [cacheLookup_cacheStore]
  split
  · exact .inl hp
  · exact hc i

/-! ## The steps of ENC -/

/-- A step that hands bytes over keeps the invariant when what follows the last byte does. -/
theorem emitThen_inv {bytes : List Byte} {k : State → Result} {s t : State} (h : s.Inv)
    (ht : emitThen bytes k s = .next t) (hk : ∀ u, Sent bytes .ok s u → k u = .next t → t.Inv) : t.Inv := by
  rcases emitThen_cases bytes k s with ⟨u, he, hs⟩ | ⟨-, u, he, hs⟩ | ⟨-, u, he, hs⟩ <;> rw [he] at ht
  · exact hk u hs ht
  · cases next_inj ht
    exact hs.raise_inv h _
  · cases next_inj ht
    exact hs.inv h (by simp)

/-- ENC after its header: a configuration that passed the checks has a first pixel (43_encoder.md rule R211). -/
theorem headerEnd_encInv {s : State} (h : EncInv s) (hp : s.enc.phase = .header) :
    EncInv (s.withEnc { s.enc with phase := .body, sent := 0 }) := by
  have hc : s.enc.phase.inCall = true := by rw [hp]; rfl
  have hfirst : s.enc.pix < s.enc.npix := by
    rw [(h.atHeader hp).1, h.npix hc]
    exact encUsageError_pos (h.cfg hc)
  exact ⟨h.status.inCall hc rfl, fun _ => h.cfg hc, fun _ => h.npix hc, by simp, fun _ => hfirst, by simp,
    fun _ => h.run hc, fun _ => h.prev3 hc, fun _ => h.cache3 hc, fun _ => h.writer hc, fun _ => h.epos hc⟩

/-- `write_header` keeps the invariant. -/
theorem encHeaderStep_inv {s t : State} (h : s.Inv) (hp : s.enc.phase = .header) (ht : encHeaderStep s = .next t) :
    t.Inv := by
  refine emitThen_inv h ht fun u hs hu => ?_
  cases next_inj hu
  have hi := hs.inv h (by simp)
  have hup : u.enc.phase = .header := by rw [hs.frame]; exact hp
  exact ⟨headerEnd_encInv hi.enc hup, hi.dec.congr rfl rfl, hi.pixin, hi.pixout⟩

/-- In 3-channel mode the effect of an opaque pixel leaves only opaque slots (42_pixel_cache.md rule R197). -/
theorem opaqueSlot_pixelEffect {prev cur : Pixel} {run : BitVec 6} {cache : Cache}
    (hc : ∀ i, opaqueSlot (cacheLookup cache i)) (hp : opaquePixel cur) (i : Slot) :
    opaqueSlot (cacheLookup (pixelEffect prev run cache cur).cache i) := by
  rw [pixelEffect_cache]
  split
  · exact hc i
  · exact opaqueSlot_cacheStore hc hp _ i

/-- ENC after a pixel: the last one ends the phase with an empty run (43_encoder.md rules R225 and R230). -/
theorem commitPixel_encInv {s : State} {cur : Pixel} (h : EncInv s) (hp : s.enc.phase = .body)
    (ha : s.enc.cfg.ch = 3#8 → opaquePixel cur) :
    EncInv (commitPixel (pixelEffectAt s.enc.atLast s.enc.prev s.enc.run s.enc.cache cur) s.enc.atLast s) := by
  have hc : s.enc.phase.inCall = true := by rw [hp]; rfl
  have hlt := h.atBody hp
  obtain ⟨hrun, hrun0⟩ := pixelEffectAt_run_le (last := s.enc.atLast) (prev := s.enc.prev) (cur := cur)
    (cache := s.enc.cache) (h.run hc)
  have hlast : s.enc.atLast = true ↔ s.enc.pix + 1 = s.enc.npix := decide_eq_true_iff
  have hphase : ∀ f, (commitPixel f s.enc.atLast s).enc.phase =
      if s.enc.atLast = true then .trailer else .body := fun f => by rw [commitPixel_enc_phase, hp]
  refine ⟨h.status.inCall hc ?_, fun _ => h.cfg hc, fun _ => h.npix hc, ?_, ?_, ?_, fun _ => hrun,
    fun _ h3 => ?_, fun _ h3 i => ?_, fun _ => h.writer hc, fun _ => h.epos hc⟩
  · rw [hphase]
    split <;> rfl
  · rw [hphase]
    split <;> simp
  · rw [hphase]
    split
    · simp
    · next hl =>
      intro _
      have : s.enc.pix + 1 ≠ s.enc.npix := fun e => hl (hlast.mpr e)
      show s.enc.pix + 1 < s.enc.npix
      omega
  · rw [hphase]
    split
    · next hl => exact fun _ => ⟨hlast.mp hl, hrun0 hl⟩
    · simp
  · rw [commitPixel_enc_prev, pixelEffectAt_prev]
    exact ha h3
  · rw [commitPixel_enc_cache, pixelEffectAt_cache]
    exact opaqueSlot_pixelEffect (h.cache3 hc h3) (ha h3) i

/-- `enc_step` keeps the invariant. -/
theorem encPixelStep_inv {s t : State} (h : s.Inv) (hp : s.enc.phase = .body) (ht : encPixelStep s = .next t) :
    t.Inv := by
  unfold encPixelStep at ht
  split at ht
  case isFalse => cases ht
  split at ht
  case h_4 cur hf =>
    refine emitThen_inv h ht fun u hs hu => ?_
    cases next_inj hu
    have hi := hs.inv h (by simp)
    obtain ⟨-, -, -, -, hcfg, hph, hpix, hnpix, hcache, hrun, hprev, -⟩ := hs.same
    have hlast : s.enc.atLast = u.enc.atLast := by simp only [Enc.atLast, hpix, hnpix]
    rw [hlast, ← hprev, ← hrun, ← hcache]
    have ha : u.enc.cfg.ch = 3#8 → opaquePixel cur := fun h3 => fetchPixel_alpha hf (hcfg ▸ h3)
    exact ⟨commitPixel_encInv hi.enc (hph.trans hp) ha, hi.dec.congr rfl rfl, hi.pixin, hi.pixout⟩
  all_goals cases ht

/-- `write_trailer` and `finish` keep the invariant: the flush is part of the same writing (43_encoder.md rule R226). -/
theorem encTrailerStep_inv {s t : State} (h : s.Inv) (hp : s.enc.phase = .trailer)
    (ht : encTrailerStep s = .next t) : t.Inv := by
  refine emitThen_inv h ht fun u hs hu => ?_
  obtain ⟨hw, ho, -⟩ := flush_written u
  have hsent := hs.flushed hw fun h => (ho h).2
  unfold flushThenFinish at hu
  split at hu <;> (rename_i v hv; rw [hv] at hsent; cases next_inj hu)
  · exact hsent.raise_inv h _
  · exact hsent.inv h (by simp)
  · have hi := hsent.inv h (by simp)
    obtain ⟨-, -, -, -, -, hph, -⟩ := hsent.same
    have hvp : v.enc.phase = .trailer := hph.trans hp
    exact ⟨finishEnc_inv hi.enc (by simp [hvp]), hi.dec.congr rfl rfl, hi.pixin, hi.pixout⟩

/-- Every step of ENC keeps the invariant. -/
theorem encStep_inv {s t : State} (h : s.Inv) (ht : encStep s = .next t) : t.Inv := by
  unfold encStep at ht
  split at ht
  case h_1 hp => exact encHeaderStep_inv h hp ht
  case h_2 hp => exact encPixelStep_inv h hp ht
  case h_3 hp => exact encTrailerStep_inv h hp ht
  all_goals
    cases next_inj ht
    exact h

/-! ## The instructions -/

/-- What a HEADER that answers a next state did (41_header_trailer.md rule R162). -/
theorem execHeader_next {magic w h : Word} {c cs : Byte} {s t : State} (ht : execHeader magic w h c cs s = .next t) :
    s.dec.phase = .header ∧ ((∃ e, t = raiseDec e s) ∨
      headerError s.par.pixbufMax s.dec.req magic w h c cs = none ∧ t = acceptHeader w h c cs s) := by
  unfold execHeader at ht
  split at ht
  · next hp =>
    split at ht <;> cases next_inj ht
    · exact ⟨hp, .inl ⟨_, rfl⟩⟩
    · next he => exact ⟨hp, .inr ⟨he, rfl⟩⟩
  · cases ht

/-- What a TRAILER that answers a next state did (41_header_trailer.md rule R166). -/
theorem execTrailer_next {b : BitVec 64} {s t : State} (ht : execTrailer b s = .next t) :
    s.dec.phase = .trailer ∧ (t = finishDec s ∨ t = raiseDec .corruptionTrailer s) := by
  unfold execTrailer at ht
  split at ht
  · next hp =>
    split at ht <;> cases next_inj ht
    · exact ⟨hp, .inl rfl⟩
    · exact ⟨hp, .inr rfl⟩
  · cases ht

/-- A header without a defect has the magic, pixels, and 3 or 4 channels (41_header_trailer.md rule R162). -/
theorem headerError_none {m : Nat} {req : Byte} {magic w h : Word} {c cs : Byte}
    (he : headerError m req magic w h c cs = none) :
    magic = magicWord ∧ 0 < w.toNat * h.toNat ∧ (c = 3#8 ∨ c = 4#8) := by
  unfold headerError at he
  split_ifs at he with hm hw hh hc
  have pos : ∀ x : Word, x ≠ 0#32 → 0 < x.toNat :=
    fun x hx => Nat.pos_of_ne_zero fun e => hx (BitVec.eq_of_toNat_eq e)
  exact ⟨not_not.mp hm, Nat.mul_pos (pos w hw) (pos h hh), or_iff_not_and_not.mpr hc⟩

/-- `OCH` of a legal `REQ` and a legal channel count is 3 or 4 (44_decoder.md rule R274). -/
theorem outputChannels_legal {req c : Byte} (hr : req = 0#8 ∨ req = 3#8 ∨ req = 4#8) (hc : c = 3#8 ∨ c = 4#8) :
    outputChannels req c = 3#8 ∨ outputChannels req c = 4#8 := by
  unfold outputChannels
  split
  · exact hc
  · exact hr.resolve_left ‹_›

/-- DEC after an accepted header. -/
theorem acceptHeader_decInv {s : State} {magic w h : Word} {c cs : Byte} (hi : DecInv s) (hp : s.dec.phase = .header)
    (he : headerError s.par.pixbufMax s.dec.req magic w h c cs = none) : DecInv (acceptHeader w h c cs s) := by
  have hc : s.dec.phase.inCall = true := by rw [hp]; rfl
  obtain ⟨rfl, hpos, hch⟩ := headerError_none he
  obtain ⟨hwcur, hprev, hcache⟩ := hi.atHeader hp
  refine ⟨hi.status.inCall hc rfl, fun _ => hi.req hc, fun _ => he,
    fun _ => ⟨rfl, outputChannels_legal (hi.req hc) hch⟩, fun _ => rfl, by simp, fun _ => ?_, by simp,
    fun _ _ => ?_, fun _ _ i => ?_, fun _ => hi.reader hc⟩
  · rw [acceptHeader_dec_wcur, hwcur]
    exact hpos
  · rw [acceptHeader_dec_prev, hprev]
    rfl
  · rw [acceptHeader_dec_cache, hcache]
    exact .inr (cacheLookup_cacheReset i)

/-- DEC after a token: the phase ends exactly when the last pixel is out (44_decoder.md rules R273 and R280). -/
theorem afterToken_decInv {s : State} (h : DecInv s) (hr : s.tokenReady) (p : Pixel) (store : Bool) (k : Nat) :
    DecInv (afterToken p store k s) := by
  obtain ⟨hp, hlt⟩ := hr
  have hc : s.dec.phase.inCall = true := by rw [hp]; rfl
  have hphase : (afterToken p store k s).dec.phase =
      if (afterToken p store k s).dec.wcur = s.dec.npix then .trailer else .body := rfl
  have hle : (afterToken p store k s).dec.wcur ≤ s.dec.npix := by
    show s.dec.wcur + min k (s.dec.npix - s.dec.wcur) ≤ s.dec.npix
    omega
  refine ⟨h.status.inCall hc ?_, fun _ => h.req hc, fun _ => h.hdr (.inl hp), fun _ => h.och (.inl hp),
    fun _ => h.npix (.inl hp), ?_, ?_, ?_, fun _ hf => alphaPolicy_forced hf p, fun _ hf i => ?_,
    fun _ => h.reader hc⟩
  · rw [hphase]
    split <;> rfl
  · rw [hphase]
    split <;> simp
  · rw [hphase]
    split
    · simp
    · next hne => exact fun _ => lt_of_le_of_ne hle hne
  · rw [hphase]
    split
    · next heq => exact fun _ => heq
    · simp
  · show opaqueSlot (cacheLookup (storeIf store (alphaPolicy s p) s.dec.cache) i)
    have hslots := h.cache3 (.inl hp) hf
    cases store
    · exact hslots i
    · exact opaqueSlot_cacheStore hslots (alphaPolicy_forced hf p) _ i

/-- A token keeps the invariant. -/
theorem exec_token_inv {i : Instr} (hk : i.record = .token) {s t : State} (h : s.Inv) (ht : exec i s = .next t) :
    t.Inv := by
  obtain ⟨hr, rfl⟩ := exec_token_next hk ht
  exact ⟨h.enc.congr rfl rfl rfl, afterToken_decInv h.dec hr _ _ _, h.pixin, outPixels_wf _ _ h.pixout⟩

/-- An error of DEC keeps the invariant, whatever bytes were read before it (60_exceptions.md rule R310). -/
theorem ReadFrame.raise_inv {s t : State} (hf : ReadFrame s t) (h : s.Inv) (e : Err) : (raiseDec e t).Inv := by
  obtain ⟨hpar, henc, hpixin, hpixout, hsink, -⟩ := hf.same
  exact ⟨h.enc.congr hpar henc (by rw [raiseDec_sink, hsink]), raiseDec_inv _ _, hpixin ▸ h.pixin,
    hpixout ▸ h.pixout⟩

/-- A header keeps the invariant. -/
theorem execHeader_inv {magic w h : Word} {c cs : Byte} {s t : State} (hi : s.Inv)
    (ht : execHeader magic w h c cs s = .next t) : t.Inv := by
  obtain ⟨hp, ⟨e, rfl⟩ | ⟨he, rfl⟩⟩ := execHeader_next ht
  · exact (ReadFrame.refl s).raise_inv hi e
  · exact ⟨hi.enc.congr rfl rfl rfl, acceptHeader_decInv hi.dec hp he, hi.pixin, List.Pairwise.nil⟩

/-- A trailer keeps the invariant. -/
theorem execTrailer_inv {b : BitVec 64} {s t : State} (h : s.Inv) (ht : execTrailer b s = .next t) : t.Inv := by
  obtain ⟨hp, rfl | rfl⟩ := execTrailer_next ht
  · exact ⟨h.enc.congr rfl rfl rfl, finishDec_inv h.dec (by simp [hp]), h.pixin, h.pixout⟩
  · exact (ReadFrame.refl s).raise_inv h _

/-- Every instruction keeps the invariant. -/
theorem exec_inv {i : Instr} {s t : State} (h : s.Inv) (ht : exec i s = .next t) : t.Inv := by
  cases i with
  | header => exact execHeader_inv h ht
  | trailer => exact execTrailer_inv h ht
  | _ => exact exec_token_inv rfl h ht

/-! ## The steps of DEC and of the machine -/

/-- DEC reads a unit in a call only (10_state.md rule R33). -/
theorem inCall_of_record? {ph : Phase} {k : Record} (h : ph.record? = some k) : ph.inCall = true := by
  cases ph with
  | header | body | trailer => rfl
  | idle | done | failed => cases h

/-- Reading a unit keeps the invariant, where the source has not ended or failed. -/
theorem fetch_inv {k : Record} {s : State} (h : s.Inv) (hc : s.dec.phase.inCall = true) :
    (∀ i t, fetch k s = .instr i t → t.Inv) ∧ (∀ t, fetch k s = .waiting t → t.Inv) := by
  obtain ⟨hinstr, hwait⟩ := fetchFrom_rdOk k longestInstr s.dec.pend (s := s) (h.dec.reader hc)
  have hf := fetch_frame k s
  refine ⟨fun i t ht => ?_, fun t ht => ?_⟩ <;> rw [ht] at hf
  · exact hf.inv h fun _ => hinstr i t ht
  · exact hf.inv h fun _ => hwait t ht

/-- Every step of DEC keeps the invariant. -/
theorem decStep_inv {s t : State} (h : s.Inv) (ht : decStep s = .next t) : t.Inv := by
  unfold decStep at ht
  split at ht
  · cases next_inj ht
    exact h
  · next k hk =>
    obtain ⟨hinstr, hwait⟩ := fetch_inv (k := k) h (inCall_of_record? hk)
    have hf := fetch_frame k s
    split at ht
    · next i u hu => exact exec_inv (hinstr i u hu) ht
    · next e u hu =>
      cases next_inj ht
      rw [hu] at hf
      exact hf.raise_inv h e
    · next u hu =>
      cases next_inj ht
      exact hwait _ hu

/-- Every step of an engine keeps the invariant. -/
theorem engineStep_inv {g : Engine} {s t : State} (h : s.Inv) (ht : engineStep g s = .next t) : t.Inv := by
  cases g with
  | enc => exact encStep_inv h ht
  | dec => exact decStep_inv h ht

/-- Settles O59: the host's actions and the steps of the two engines each keep the invariant, and the order of the turns
is no matter of it. -/
theorem stepKeepsInvariant : Obligations.StepKeepsInvariant := by
  unfold Obligations.StepKeepsInvariant
  intro s t h ht
  unfold step at ht
  split at ht
  · next a rest _ => exact hostStep_inv (inv_turns h rest s.turn) ht
  · next g rest _ => exact engineStep_inv (inv_turns h rest s.turn) ht
  · split at ht
    · next g _ => exact engineStep_inv (inv_turns h s.agenda g.other) ht
    · cases next_inj ht
      exact h

end Sys2Proof.Machine
end

section
/-! SUPPORT. How the counters move in a step of an engine (10_state.md rules R26, R29 and R30). -/

namespace Sys2Proof.Machine

/-- An instruction reads no byte and never moves the write cursor back (44_decoder.md rule R280). -/
theorem exec_counters {i : Instr} {s t : State} (ht : exec i s = .next t) :
    t.dec.spos = s.dec.spos ∧ s.dec.wcur ≤ t.dec.wcur := by
  cases i with
  | header =>
    obtain ⟨-, ⟨e, rfl⟩ | ⟨-, rfl⟩⟩ := execHeader_next ht <;> exact ⟨rfl, Nat.le_refl _⟩
  | trailer =>
    obtain ⟨-, rfl | rfl⟩ := execTrailer_next ht <;> exact ⟨rfl, Nat.le_refl _⟩
  | _ =>
    obtain ⟨-, rfl⟩ := exec_token_next rfl ht
    exact ⟨rfl, Nat.le_add_right _ _⟩

/-- Reading a unit never moves `DEC.SPOS` back and leaves the write cursor. -/
theorem fetch_counters (k : Record) (s : State) :
    s.dec.spos ≤ (fetch k s).state.dec.spos ∧ (fetch k s).state.dec.wcur = s.dec.wcur := by
  refine ⟨ReadFrame.spos_le _ _ _ _, ?_⟩
  rw [fetch_frame k s]

/-- A step of DEC never moves `DEC.SPOS` or `DEC.WCUR` back (10_state.md rules R29 and R30). -/
theorem decStep_counters {s t : State} (ht : decStep s = .next t) :
    s.dec.spos ≤ t.dec.spos ∧ s.dec.wcur ≤ t.dec.wcur := by
  unfold decStep at ht
  split at ht
  · cases next_inj ht
    exact ⟨Nat.le_refl _, Nat.le_refl _⟩
  · next k _ =>
    obtain ⟨hspos, hwcur⟩ := fetch_counters k s
    split at ht <;> (rename_i hu; rw [hu] at hspos hwcur)
    · obtain ⟨espos, lwcur⟩ := exec_counters ht
      exact ⟨espos ▸ hspos, hwcur ▸ lwcur⟩
    all_goals
      cases next_inj ht
      exact ⟨hspos, hwcur.ge⟩

/-- A step of ENC moves `ENC.PIX` by writing a pixel's effect, and by nothing else (10_state.md rule R26). -/
theorem encStep_pix {s t : State} (ht : encStep s = .next t) :
    t.enc.pix = s.enc.pix ∨ t.enc.pix = s.enc.pix + 1 ∧ s.enc.phase = .body := by
  rcases encStep_cases ht with ⟨-, -, rfl⟩ | ⟨bytes, o, u, -, hs, hcase⟩
  · exact .inl rfl
  have hpix : u.enc.pix = s.enc.pix := by rw [hs.frame]
  rcases hcase with ⟨-, rfl⟩ | ⟨-, rfl⟩ | ⟨-, -, rfl⟩ | ⟨-, hp, f, last, rfl⟩ | ⟨-, -, -, rfl⟩
  · exact .inl hpix
  · exact .inl hpix
  · exact .inl hpix
  · exact .inr ⟨congrArg (· + 1) hpix, hp⟩
  · exact .inl hpix

/-- Settles O58: of the steps of DEC only a read moves `DEC.SPOS` and only a token `DEC.WCUR`, both forward; of those of
ENC only a pixel's moves `ENC.PIX`. -/
theorem countersAdvance : Obligations.CountersAdvance := by
  unfold Obligations.CountersAdvance
  exact fun _ _ => ⟨decStep_counters, encStep_pix⟩

end Sys2Proof.Machine
end

section
/-! SUPPORT. The memory model of the block (20_memory.md): words in the stream, what a step of an engine touches and what
it depends on, and the order in which ENC hands its bytes over. -/

namespace Sys2Proof.Machine

/-! ## Words in the stream (rule R67) -/

/-- Settles O6: the two byte orders are inverse to each other. -/
theorem wordsAreBigEndian : Obligations.WordsAreBigEndian := by
  unfold Obligations.WordsAreBigEndian
  exact ⟨fun _ _ _ _ => ⟨wordOfBytes_toNat _ _ _ _, bytesOfWord_wordOfBytes _ _ _ _⟩,
    fun v => ⟨_, _, _, _, rfl, wordOfBytes_bytesOfWord v⟩⟩

/-! ## What a step of an engine touches (rules R60, R75 and R77) -/

/-- Two states that differ at most in DEC without `REQ`, in `PIXOUT` and in the source. -/
def DecFrame (s t : State) : Prop :=
  t = { s with dec := { t.dec with req := s.dec.req }, pixout := t.pixout, src := t.src }

theorem DecFrame.refl (s : State) : DecFrame s s := rfl

theorem DecFrame.trans {s t u : State} (h1 : DecFrame s t) (h2 : DecFrame t u) : DecFrame s u := by
  unfold DecFrame at *
  rw [h2, h1]

/-- Reading touches DEC and the source. -/
theorem ReadFrame.decFrame {s t : State} (h : ReadFrame s t) : DecFrame s t := by
  unfold ReadFrame at h
  unfold DecFrame
  rw [h]

/-- An instruction touches DEC and `PIXOUT`. -/
theorem exec_decFrame {i : Instr} {s t : State} (ht : exec i s = .next t) : DecFrame s t := by
  cases i with
  | header =>
    obtain ⟨-, ⟨e, rfl⟩ | ⟨-, rfl⟩⟩ := execHeader_next ht <;> rfl
  | trailer =>
    obtain ⟨-, rfl | rfl⟩ := execTrailer_next ht <;> rfl
  | _ =>
    obtain ⟨-, rfl⟩ := exec_token_next rfl ht
    rfl

/-- A step of DEC reads a unit and runs it. -/
theorem decStep_decFrame {s t : State} (ht : decStep s = .next t) : DecFrame s t := by
  unfold decStep at ht
  split at ht
  · cases next_inj ht
    exact DecFrame.refl s
  · next k _ =>
    have hf := (fetch_frame k s).decFrame
    split at ht <;> (rename_i hu; rw [hu] at hf)
    · exact hf.trans (exec_decFrame ht)
    · cases next_inj ht
      exact hf.trans rfl
    · cases next_inj ht
      exact hf

/-- Two states that differ at most in ENC without `CFG` and in the sink. -/
def EncFrame (s t : State) : Prop := t = { s with enc := { t.enc with cfg := s.enc.cfg }, sink := t.sink }

theorem EncFrame.refl (s : State) : EncFrame s s := rfl

theorem EncFrame.trans {s t u : State} (h1 : EncFrame s t) (h2 : EncFrame t u) : EncFrame s u := by
  unfold EncFrame at *
  rw [h2, h1]

/-- Writing touches ENC and the sink. -/
theorem WriteFrame.encFrame {s t : State} (h : WriteFrame s t) : EncFrame s t := by
  unfold WriteFrame at h
  unfold EncFrame
  rw [h]

/-- A step of ENC hands bytes over and then writes registers of ENC. -/
theorem encStep_encFrame {s t : State} (ht : encStep s = .next t) : EncFrame s t := by
  rcases encStep_cases ht with ⟨-, -, rfl⟩ | ⟨bytes, o, u, -, hs, hcase⟩
  · exact EncFrame.refl t
  refine hs.frame.encFrame.trans ?_
  rcases hcase with ⟨-, rfl⟩ | ⟨-, rfl⟩ | ⟨-, -, rfl⟩ | ⟨-, -, f, last, rfl⟩ | ⟨-, -, -, rfl⟩ <;> rfl

/-- Settles O56: each part of a step, reading and running or handing over and committing, stays in its engine's frame. -/
theorem engineFootprint : Obligations.EngineFootprint := by
  unfold Obligations.EngineFootprint
  exact fun _ _ => ⟨decStep_decFrame, encStep_encFrame⟩

/-! ## The order of the bytes ENC hands over (rules R65, R76 and R78) -/

/-- Settles O41: what was handed over is read off `Sent`, and what the step came to off the cases of ENC's step. -/
theorem writerKeepsOrder : Obligations.WriterKeepsOrder := by
  unfold Obligations.WriterKeepsOrder
  intro s t ht
  rcases encStep_cases ht with ⟨hnone, -, rfl⟩ | ⟨bytes, o, u, hbytes, hs, hcase⟩
  · exact ⟨fun _ => rfl, fun _ hb => nomatch hnone.symm.trans hb⟩
  refine ⟨fun hb => (nomatch hbytes.symm.trans hb), fun bytes' hb => ?_⟩
  obtain rfl : bytes = bytes' := Option.some.inj (hbytes.symm.trans hb)
  obtain ⟨taken, hpre, hemit, hsink, hepos, hsent, hall⟩ := hs.taken
  obtain ⟨-, hdec, -, -, -, hph, hpix, -, hcache, hrun, hprev, -⟩ := hs.same
  have hgrows := hs.grows
  refine ⟨taken, hpre, ?_⟩
  rcases hcase with ⟨-, rfl⟩ | ⟨rfl, rfl⟩ | ⟨rfl, -, rfl⟩ | ⟨rfl, hbody, f, last, rfl⟩ | ⟨rfl, -, hempty, rfl⟩
  · exact ⟨hepos, hgrows, hsink, .inl ⟨rfl, rfl⟩⟩
  · have hregs : s.sameRegisters t := ⟨hprev, hcache, hrun, hpix, by rw [hdec], by rw [hdec], by rw [hdec]⟩
    exact ⟨hepos, hgrows, hsink, .inr ⟨hemit (by simp), .inl ⟨hph, hs.stepBytes.trans hb, hregs, hsent⟩⟩⟩
  · exact ⟨hepos, hgrows, hsink, .inr ⟨hemit (by simp), .inr ⟨hall rfl, .inr ⟨rfl, rfl⟩⟩⟩⟩
  · have hcall : (commitPixel f last u).enc.phase.inCall = true := by
      rw [commitPixel_enc_phase, hph, hbody]
      cases last <;> rfl
    exact ⟨hepos, hgrows, hsink, .inr ⟨hemit (by simp), .inr ⟨hall rfl, .inr ⟨hcall, rfl⟩⟩⟩⟩
  · exact ⟨hepos, hgrows, hsink, .inr ⟨hemit (by simp), .inr ⟨hall rfl, .inl ⟨rfl, hempty⟩⟩⟩⟩

end Sys2Proof.Machine
end

section
/-! SUPPORT. What an engine does depends on nothing of the other (20_memory.md rule R77, 60_exceptions.md rule R318). An
engine's own part of a state is put in the place of that part of another state: each operation of the engine gives the same
answer there, and its next state is the next own part in that other state. -/

namespace Sys2Proof.Machine

/-- An outcome with its next state changed. -/
def mapNext (f : State → State) : Result → Result
  | .next s => .next (f s)
  | .fault e => .fault e
  | .refused e => .refused e

/-! ## DEC: what each of its operations does where its own part is put into another state -/

/-- `r` with the parameters, DEC, the source and `PIXOUT` of `s`. -/
def State.decInto (s r : State) : State := { r with par := s.par, dec := s.dec, src := s.src, pixout := s.pixout }

@[simp] theorem decInto_par (s r : State) : (s.decInto r).par = s.par := rfl
@[simp] theorem decInto_dec (s r : State) : (s.decInto r).dec = s.dec := rfl
@[simp] theorem decInto_src (s r : State) : (s.decInto r).src = s.src := rfl
@[simp] theorem decInto_pixout (s r : State) : (s.decInto r).pixout = s.pixout := rfl

/-- A state that agrees on DEC's part is the one with that part put in. -/
theorem decInto_eq_self {s r : State} (hpar : s.par = r.par) (hdec : s.dec = r.dec) (hsrc : s.src = r.src)
    (hpixout : s.pixout = r.pixout) : s.decInto r = r := by
  unfold State.decInto
  rw [hpar, hdec, hsrc, hpixout]

theorem fillAndRead_decInto (s r : State) :
    fillAndRead (s.decInto r) = ((fillAndRead s).1, (fillAndRead s).2.decInto r) := by
  unfold fillAndRead
  rw [decInto_src, decInto_par]
  cases s.src.request s.par.readAhead <;> rfl

theorem readU8_decInto (s r : State) : readU8 (s.decInto r) = ((readU8 s).1, (readU8 s).2.decInto r) := by
  unfold readU8
  rw [decInto_dec]
  split_ifs
  · exact fillAndRead_decInto s r
  all_goals rfl

/-- A fetch with the state it ends in changed. -/
def Fetched.mapState (f : State → State) : Fetched → Fetched
  | .instr i s => .instr i (f s)
  | .error e s => .error e (f s)
  | .waiting s => .waiting (f s)

theorem fetchFrom_decInto (k : Record) (fuel : Nat) (bs : List Byte) (s r : State) :
    fetchFrom k fuel bs (s.decInto r) = (fetchFrom k fuel bs s).mapState (·.decInto r) := by
  induction fuel generalizing bs s with
  | zero =>
    unfold fetchFrom
    split
    · cases decodeRead k bs <;> rfl
    · rfl
  | succ fuel ih =>
    simp only [fetchFrom, readU8_decInto]
    split
    · cases decodeRead k bs <;> rfl
    · obtain ⟨o, t⟩ := readU8 s
      cases o with
      | byte b => exact ih (bs ++ [b]) t
      | ended | failed | waiting => rfl

theorem fetch_decInto (k : Record) (s r : State) : fetch k (s.decInto r) = (fetch k s).mapState (·.decInto r) :=
  fetchFrom_decInto _ _ _ _ _

/-- The pixels out look at `DEC.WCUR`, `OCH` and `PIXOUT` only. -/
theorem afterToken_decInto (p : Pixel) (store : Bool) (k : Nat) (s r : State) :
    afterToken p store k (s.decInto r) = (afterToken p store k s).decInto r := by
  have hp := outPixels_pixout_congr (alphaPolicy s p) (min k (s.dec.npix - s.dec.wcur)) (s := s.decInto r) (t := s)
    rfl rfl rfl
  exact congrArg (fun m => ({ (afterToken p store k s).decInto r with pixout := m } : State)) hp

theorem tokenStep_decInto (p : Pixel) (store : Bool) (k : Nat) (s r : State) :
    tokenStep p store k (s.decInto r) = mapNext (·.decInto r) (tokenStep p store k s) := by
  rw [tokenStep_eq, tokenStep_eq, afterToken_decInto]
  by_cases hr : s.tokenReady
  · rw [if_pos hr, if_pos (show (s.decInto r).tokenReady from hr)]
    rfl
  · rw [if_neg hr, if_neg (show ¬ (s.decInto r).tokenReady from hr)]
    rfl

theorem exec_decInto (i : Instr) (s r : State) : exec i (s.decInto r) = mapNext (·.decInto r) (exec i s) := by
  cases i with
  | header magic w h c cs =>
    by_cases hp : s.dec.phase = .header <;> simp only [exec, execHeader, decInto_dec, decInto_par, hp, ↓reduceIte]
    · cases headerError s.par.pixbufMax s.dec.req magic w h c cs <;> rfl
    · rfl
  | trailer b =>
    by_cases hp : s.dec.phase = .trailer <;> simp only [exec, execTrailer, decInto_dec, hp, ↓reduceIte]
    · split <;> rfl
    · rfl
  | _ =>
    rw [exec_token rfl, exec_token rfl]
    exact tokenStep_decInto _ _ _ s r

/-- A step of DEC looks at DEC's own part only, and changes that part only. -/
theorem decStep_decInto (s r : State) : decStep (s.decInto r) = mapNext (·.decInto r) (decStep s) := by
  unfold decStep
  rw [decInto_dec]
  cases s.dec.phase.record? with
  | none => rfl
  | some k =>
    simp only [fetch_decInto]
    cases fetch k s with
    | instr i t => exact exec_decInto i t r
    | error | waiting => rfl

/-! ## ENC: the same of its operations -/

/-- `r` with the parameters, ENC, the sink and `PIXIN` of `s`. -/
def State.encInto (s r : State) : State := { r with par := s.par, enc := s.enc, sink := s.sink, pixin := s.pixin }

@[simp] theorem encInto_par (s r : State) : (s.encInto r).par = s.par := rfl
@[simp] theorem encInto_enc (s r : State) : (s.encInto r).enc = s.enc := rfl
@[simp] theorem encInto_sink (s r : State) : (s.encInto r).sink = s.sink := rfl
@[simp] theorem encInto_pixin (s r : State) : (s.encInto r).pixin = s.pixin := rfl

/-- A state that agrees on ENC's part is the one with that part put in. -/
theorem encInto_eq_self {s r : State} (hpar : s.par = r.par) (henc : s.enc = r.enc) (hsink : s.sink = r.sink)
    (hpixin : s.pixin = r.pixin) : s.encInto r = r := by
  unfold State.encInto
  rw [hpar, henc, hsink, hpixin]

theorem drain_encInto (s r : State) : drain (s.encInto r) = ((drain s).1, (drain s).2.encInto r) := by
  unfold drain
  rw [encInto_enc, encInto_sink]
  split_ifs
  · rfl
  · rfl
  · rcases s.sink.grants with _ | _ | n
    · rfl
    · cases s.sink.tail <;> rfl
    · rfl

theorem drainIfFull_encInto (s r : State) :
    drainIfFull (s.encInto r) = ((drainIfFull s).1, (drainIfFull s).2.encInto r) := by
  unfold drainIfFull
  rw [encInto_enc, encInto_par]
  split
  · exact drain_encInto s r
  · rfl

theorem writeU8_encInto (b : Byte) (s r : State) :
    writeU8 b (s.encInto r) = ((writeU8 b s).1, (writeU8 b s).2.encInto r) := by
  unfold writeU8
  rw [encInto_enc]
  split
  · rfl
  · exact drainIfFull_encInto (s.putByte b) r

theorem writeBytes_encInto (bs : List Byte) (s r : State) :
    writeBytes bs (s.encInto r) = ((writeBytes bs s).1, (writeBytes bs s).2.encInto r) := by
  induction bs generalizing s with
  | nil => rfl
  | cons b bs ih =>
    simp only [writeBytes, writeU8_encInto]
    obtain ⟨o, t⟩ := writeU8 b s
    cases o with
    | ok => exact ih t
    | failed | waiting => rfl

theorem flush_encInto (s r : State) : flush (s.encInto r) = ((flush s).1, (flush s).2.encInto r) := by
  unfold flush
  rw [encInto_enc]
  split
  · rfl
  · exact drain_encInto s r

theorem handOver_encInto (bytes : List Byte) (s r : State) :
    handOver bytes (s.encInto r) = ((handOver bytes s).1, (handOver bytes s).2.encInto r) := by
  unfold handOver
  rw [drainIfFull_encInto]
  obtain ⟨o, t⟩ := drainIfFull s
  cases o with
  | ok => exact writeBytes_encInto _ t r
  | failed | waiting => rfl

/-- Handing bytes over, where what follows the last byte looks at ENC's own part only. -/
theorem emitThen_encInto (bytes : List Byte) {k : State → Result} {r : State}
    (hk : ∀ u, k (u.encInto r) = mapNext (·.encInto r) (k u)) (s : State) :
    emitThen bytes k (s.encInto r) = mapNext (·.encInto r) (emitThen bytes k s) := by
  unfold emitThen
  rw [handOver_encInto]
  obtain ⟨o, t⟩ := handOver bytes s
  cases o with
  | ok => exact hk t
  | failed | waiting => rfl

theorem encPixelStep_encInto (s r : State) : encPixelStep (s.encInto r) = mapNext (·.encInto r) (encPixelStep s) := by
  have hfetch : fetchPixel (s.encInto r) = fetchPixel s := rfl
  unfold encPixelStep
  rw [hfetch, encInto_enc]
  split
  · cases fetchPixel s with
    | pixel cur => exact emitThen_encInto _ (fun _ => rfl) s
    | noAddress | notSupplied | noChannels => rfl
  · rfl

theorem flushThenFinish_encInto (s r : State) :
    flushThenFinish (s.encInto r) = mapNext (·.encInto r) (flushThenFinish s) := by
  unfold flushThenFinish
  rw [flush_encInto]
  obtain ⟨o, t⟩ := flush s
  cases o <;> rfl

/-- A step of ENC looks at ENC's own part only, and changes that part only. -/
theorem encStep_encInto (s r : State) : encStep (s.encInto r) = mapNext (·.encInto r) (encStep s) := by
  unfold encStep
  rw [encInto_enc]
  cases s.enc.phase with
  | header => exact emitThen_encInto _ (fun _ => rfl) s
  | body => exact encPixelStep_encInto s r
  | trailer => exact emitThen_encInto _ (flushThenFinish_encInto · r) s
  | idle | done | failed => rfl

/-- Settles O57: the second state is the first one's own part put into it, so its step is the first one's. -/
theorem enginesDoNotInterfere : Obligations.EnginesDoNotInterfere := by
  unfold Obligations.EnginesDoNotInterfere
  refine ⟨fun s1 s2 t1 hpar hdec hsrc hpixout ht => ?_, fun s1 s2 t1 hpar henc hsink hpixin ht => ?_⟩
  · have hstep := decStep_decInto s1 s2
    rw [decInto_eq_self hpar hdec hsrc hpixout, show decStep s1 = .next t1 from ht] at hstep
    exact ⟨t1.decInto s2, hstep, rfl, rfl, rfl⟩
  · have hstep := encStep_encInto s1 s2
    rw [encInto_eq_self hpar henc hsink hpixin, show encStep s1 = .next t1 from ht] at hstep
    exact ⟨t1.encInto s2, hstep, rfl, rfl⟩

end Sys2Proof.Machine
end

section
/-! SUPPORT. The decoder and the encoder are inverse to each other, and what the decoder rejects is cut short
(30_encoding.md rules R91 to R104). -/

namespace Sys2Proof.Machine

/-! ## Decoding what was encoded -/

/-- A first byte that is no full-byte tag goes by its top two bits (rule R101). -/
theorem decode_token_of_ne {t : Byte} (hfe : t ≠ 0xFE#8) (hff : t ≠ 0xFF#8) (rest : List Byte) :
    decode .token (t :: rest) = decodeTagged t rest := by
  simp [decode, decodeToken, hfe, hff]

/-- Decoding an encoding gives the instruction back. Only a token has to be well-formed for it: the magic and the
sentinel are operands the decoder does not look at. -/
theorem decode_encode {i : Instr} (hw : i.record = .token → i.wellFormed = true) (rest : List Byte) :
    decode i.record (encode i ++ rest) = .ok (i, rest) := by
  cases i with
  | rgb | rgba => rfl
  | index x =>
    obtain ⟨hfe, hff, htag, hx⟩ := index_byte x
    exact (decode_token_of_ne hfe hff rest).trans (by simp [decodeTagged, htag, hx])
  | diff x y z =>
    obtain ⟨hfe, hff, htag, hx, hy, hz⟩ := diff_byte x y z
    exact (decode_token_of_ne hfe hff rest).trans (by simp [decodeTagged, htag, hx, hy, hz])
  | luma x y z =>
    obtain ⟨hfe, hff, htag, hx⟩ := luma_byte x
    obtain ⟨hy, hz⟩ := rel_byte y z
    exact (decode_token_of_ne hfe hff _).trans (by simp [decodeTagged, htag, hx, hy, hz])
  | run x =>
    obtain ⟨hfe, hff, htag, hx⟩ := run_byte x (of_decide_eq_true (hw rfl))
    exact (decode_token_of_ne hfe hff rest).trans (by simp [decodeTagged, htag, hx])
  | header m w h c cs => simp [Instr.record, encode, bytesOfWord, decode, decodeHeader, wordOfBytes_bytesOfWord]
  | trailer t => simp [Instr.record, encode, bytesOfTrailer, decode, decodeTrailer, trailerOfBytes_bytesOfTrailer]

/-- Settles O2: a well-formed token, or any record. -/
theorem decodeOfEncode : Obligations.DecodeOfEncode := by
  unfold Obligations.DecodeOfEncode
  exact fun i rest hw => decode_encode (fun _ => hw) rest

/-! ## Encoding what was decoded -/

/-- A byte is its tag and its low six bits. -/
theorem append_low_of_tagBits {t : Byte} {c : BitVec 2} (h : tagBits t = c) : (c ++ t.extractLsb' 0 6 : Byte) = t :=
  h ▸ byte_split2 t

/-- The fourth tag is what the first three leave. -/
theorem tagBits_eq_run {t : Byte} (h0 : tagBits t ≠ 0b00#2) (h1 : tagBits t ≠ 0b01#2) (h2 : tagBits t ≠ 0b10#2) :
    tagBits t = 0b11#2 := by
  generalize tagBits t = c at *
  revert c
  decide

/-- The RUN fields 62 and 63 make the two full-byte tags (rule R99). -/
theorem run_field_le : ∀ x : BitVec 6, (0b11#2 ++ x : Byte) ≠ 0xFE#8 → (0b11#2 ++ x : Byte) ≠ 0xFF#8 →
    x.toNat ≤ 61 := by decide

/-- A token without a full-byte tag that decodes is the encoding of a well-formed token (rules R96 to R99). -/
theorem encode_of_decodeTagged {t : Byte} {rest rest' : List Byte} {i : Instr} (hfe : t ≠ 0xFE#8) (hff : t ≠ 0xFF#8)
    (h : decodeTagged t rest = .ok (i, rest')) :
    t :: rest = encode i ++ rest' ∧ i.record = .token ∧ i.wellFormed = true := by
  unfold decodeTagged at h
  split_ifs at h with h0 h1 h2
  · cases h
    exact ⟨by simp [encode, append_low_of_tagBits h0], rfl, rfl⟩
  · cases h
    exact ⟨by simp [encode, ← h1, tagBits, byte_split4], rfl, rfl⟩
  · cases rest with
    | nil => cases h
    | cons u rest =>
      cases h
      exact ⟨by simp [encode, append_low_of_tagBits h2, byte_splitN], rfl, rfl⟩
  · cases h
    have ht := append_low_of_tagBits (tagBits_eq_run h0 h1 h2)
    exact ⟨by simp [encode, ht], rfl, decide_eq_true (run_field_le _ (by rwa [ht]) (by rwa [ht]))⟩

/-- A token that decodes is the encoding of a well-formed token. -/
theorem encode_of_decodeToken {bs rest : List Byte} {i : Instr} (h : decodeToken bs = .ok (i, rest)) :
    bs = encode i ++ rest ∧ i.record = .token ∧ i.wellFormed = true := by
  unfold decodeToken at h
  split at h
  · cases h
  · split_ifs at h with hfe hff
    · split at h
      · cases h
        exact ⟨by rw [hfe]; rfl, rfl, rfl⟩
      · cases h
    · split at h
      · cases h
        exact ⟨by rw [hff]; rfl, rfl, rfl⟩
      · cases h
    · exact encode_of_decodeTagged hfe hff h

/-- A header that decodes is the encoding of a header (rule R91). -/
theorem encode_of_decodeHeader {bs rest : List Byte} {i : Instr} (h : decodeHeader bs = .ok (i, rest)) :
    bs = encode i ++ rest ∧ i.record = .header := by
  unfold decodeHeader at h
  split at h
  · cases h
    exact ⟨by simp [encode, bytesOfWord_wordOfBytes], rfl⟩
  · cases h

/-- A trailer that decodes is the encoding of a trailer (rule R92). -/
theorem encode_of_decodeTrailer {bs rest : List Byte} {i : Instr} (h : decodeTrailer bs = .ok (i, rest)) :
    bs = encode i ++ rest ∧ i.record = .trailer := by
  unfold decodeTrailer at h
  split at h
  · cases h
    exact ⟨by simp [encode, bytesOfTrailer_trailerOfBytes], rfl⟩
  · cases h

/-- Settles O3: unit by unit. -/
theorem encodeOfDecode : Obligations.EncodeOfDecode := by
  unfold Obligations.EncodeOfDecode
  intro k bs rest i h
  cases k with
  | header =>
    obtain ⟨hbs, hk⟩ := encode_of_decodeHeader h
    exact ⟨hbs, hk, nofun⟩
  | token =>
    obtain ⟨hbs, hk, hw⟩ := encode_of_decodeToken h
    exact ⟨hbs, hk, fun _ => hw⟩
  | trailer =>
    obtain ⟨hbs, hk⟩ := encode_of_decodeTrailer h
    exact ⟨hbs, hk, nofun⟩

/-! ## What is rejected -/

/-- A header is rejected exactly when it is cut short (rule R91). -/
theorem decode_header_error_iff (bs : List Byte) : (∃ e, decode .header bs = .error e) ↔ bs.length < 14 := by
  rcases bs with _ | ⟨_, _ | ⟨_, _ | ⟨_, _ | ⟨_, _ | ⟨_, _ | ⟨_, _ | ⟨_, _ | ⟨_, _ | ⟨_, _ | ⟨_, _ | ⟨_, _ | ⟨_,
    _ | ⟨_, _ | ⟨_, bs⟩⟩⟩⟩⟩⟩⟩⟩⟩⟩⟩⟩⟩⟩ <;> simp [decode, decodeHeader]

/-- A trailer is rejected exactly when it is cut short (rule R92). -/
theorem decode_trailer_error_iff (bs : List Byte) : (∃ e, decode .trailer bs = .error e) ↔ bs.length < 8 := by
  rcases bs with _ | ⟨_, _ | ⟨_, _ | ⟨_, _ | ⟨_, _ | ⟨_, _ | ⟨_, _ | ⟨_, _ | ⟨_, bs⟩⟩⟩⟩⟩⟩⟩⟩ <;>
    simp [decode, decodeTrailer]

/-- A token is rejected exactly when it is cut short: one that decodes is an encoding, and so as long as its first byte
says (rules R102 and R104). -/
theorem decode_token_error_iff (t : Byte) (rest : List Byte) :
    (∃ e, decode .token (t :: rest) = .error e) ↔ (t :: rest).length < tokenLength t := by
  refine ⟨fun h => (decode_error_short (k := .token) nofun h).2, fun hs => ?_⟩
  cases hd : decode .token (t :: rest) with
  | error e => exact ⟨e, rfl⟩
  | ok p =>
    obtain ⟨i, rest'⟩ := p
    obtain ⟨hbs, hk, hw⟩ := encode_of_decodeToken (bs := t :: rest) hd
    obtain ⟨t', us, he, hl⟩ := tokenLength_encode i hk hw
    rw [he, List.cons_append, List.cons.injEq] at hbs
    obtain ⟨rfl, rfl⟩ := hbs
    simp only [List.length_cons, List.length_append] at hs hl
    omega

/-- Settles O5: unit by unit. -/
theorem onlyShortUnitsRejected : Obligations.OnlyShortUnitsRejected := by
  unfold Obligations.OnlyShortUnitsRejected
  exact ⟨decode_header_error_iff, decode_trailer_error_iff, ⟨_, rfl⟩, decode_token_error_iff⟩

/-! ## What a first byte selects -/

/-- No token is longer than RGBA (rule R95). -/
theorem tokenLength_le (t : Byte) : tokenLength t ≤ 5 := by
  unfold tokenLength
  split_ifs <;> omega

/-- With four bytes after it, every first byte begins the encoding of a well-formed token. -/
theorem token_of_first_byte (t : Byte) {rest : List Byte} (h : 4 ≤ rest.length) :
    ∃ i rest', decode .token (t :: rest) = .ok (i, rest') ∧ t :: rest = encode i ++ rest' ∧ i.record = .token ∧
      i.wellFormed = true := by
  cases hd : decode .token (t :: rest) with
  | error e =>
    have hs := (decode_token_error_iff t rest).mp ⟨e, hd⟩
    have hl := tokenLength_le t
    simp only [List.length_cons] at hs
    omega
  | ok p =>
    obtain ⟨i, rest'⟩ := p
    exact ⟨i, rest', rfl, encode_of_decodeToken hd⟩

/-- Bits below other bits, as a number. -/
theorem append_toNat {n m : Nat} (x : BitVec n) (y : BitVec m) : (x ++ y).toNat = x.toNat * 2 ^ m + y.toNat := by
  rw [BitVec.toNat_append, ← Nat.shiftLeft_add_eq_or_of_lt y.isLt, Nat.shiftLeft_eq]

/-- Settles O1: the first byte of each token's encoding, as a number, is in the token's range. -/
theorem firstByteSelectsToken : Obligations.FirstByteSelectsToken := by
  unfold Obligations.FirstByteSelectsToken
  intro t rest h
  obtain ⟨i, rest', hd, hbs, hk, hw⟩ := token_of_first_byte t h
  refine ⟨i, rest', hd, hw, ?_⟩
  cases i with
  | header | trailer => cases hk
  | rgb r g b =>
    cases hbs
    exact ⟨nofun, nofun, nofun, nofun, fun _ => ⟨rfl, rfl⟩, nofun⟩
  | rgba r g b a =>
    cases hbs
    exact ⟨nofun, nofun, nofun, nofun, nofun, fun _ => ⟨rfl, rfl⟩⟩
  | index x =>
    cases hbs
    have ht : (0b00#2 ++ x : Byte).toNat = x.toNat := (append_toNat 0b00#2 x).trans (Nat.zero_add _)
    have hx := x.isLt
    rw [ht]
    exact ⟨fun _ => ⟨by simp, rfl⟩, by omega, by omega, by omega, by omega, by omega⟩
  | diff x y z =>
    cases hbs
    have ht : (0b01#2 ++ x ++ y ++ z : Byte).toNat = 64 + 16 * x.toNat + 4 * y.toNat + z.toNat := by
      simp only [append_toNat, BitVec.toNat_ofNat]
      omega
    have hx := x.isLt
    have hy := y.isLt
    have hz := z.isLt
    rw [ht]
    exact ⟨by omega, fun _ => ⟨rfl, rfl⟩, by omega, by omega, by omega, by omega⟩
  | luma x y z =>
    cases hbs
    have ht : (0b10#2 ++ x : Byte).toNat = 128 + x.toNat := append_toNat 0b10#2 x
    have hx := x.isLt
    rw [ht]
    exact ⟨by omega, by omega, fun _ => ⟨rfl, rfl⟩, by omega, by omega, by omega⟩
  | run x =>
    cases hbs
    have ht : (0b11#2 ++ x : Byte).toNat = 192 + x.toNat := append_toNat 0b11#2 x
    have hx := of_decide_eq_true hw
    rw [ht]
    exact ⟨by omega, by omega, by omega, fun _ => ⟨by simp, by simp [tokenPixels], rfl⟩, by omega, by omega⟩

/-! ## Words of the spec's tables -/

/-- Settles O4: each of the eight words is decoded. -/
theorem specWordsDecode : Obligations.SpecWordsDecode := by
  unfold Obligations.SpecWordsDecode
  decide

end Sys2Proof.Machine
end

section
/-! SUPPORT. The byte stream (40_byte_stream.md): what a fetch reads is told by the unread bytes, what follows them and
`DEC.SPOS` alone, so that neither `CHUNK` nor a wait changes it; and what a step does that meets a failing or a silent
port. -/

namespace Sys2Proof.Machine

/-! ## What a fetch reads (rules R130, R144 and R145) -/

/-- Two open readers on the same stream: the same bytes unread, the same answer after them, the same `DEC.SPOS`. RD's
buffer, `CHUNK` and the sizes of the source's answers may differ. -/
structure SameStream (s t : State) : Prop where
  openL : s.readerOpen
  openR : t.readerOpen
  unread : s.unread = t.unread
  tail : s.src.tail = t.src.tail
  spos : s.dec.spos = t.dec.spos

@[simp] theorem withPend_unread (s : State) (bs : List Byte) : (s.withPend bs).unread = s.unread := rfl

/-- Bytes fed to the source stand behind the unread ones. -/
@[simp] theorem feedSource_unread (s : State) (bytes : List Byte) (tail : SrcTail) :
    (s.feedSource bytes tail).unread = s.unread ++ bytes :=
  (List.append_assoc _ _ _).symm

/-- A read on the same stream (rule R133): the same byte is taken off both, or both come to their end alike. -/
theorem SameStream.readU8_cases {s t : State} (h : SameStream s t) :
    (∃ b s' t', readU8 s = (.byte b, s') ∧ readU8 t = (.byte b, t') ∧ SameStream s' t') ∨
    ∃ o s' t', (∀ b, o ≠ .byte b) ∧ readU8 s = (o, s') ∧ readU8 t = (o, t') ∧ s'.unread = t'.unread ∧
      s'.dec.spos = t'.dec.spos := by
  obtain ⟨hs, ht, hu, htl, hsp⟩ := h
  cases hb : s.unread with
  | cons b us =>
    obtain ⟨s', e1, u1, o1, p1, q1⟩ := readU8_byte hs hb
    obtain ⟨t', e2, u2, o2, p2, q2⟩ := readU8_byte ht (hu ▸ hb)
    exact .inl ⟨b, s', t', e1, e2, o1, o2, u1.trans u2.symm, by rw [q1, q2, htl], by rw [p1, p2, hsp]⟩
  | nil =>
    have hb' : t.unread = [] := hu ▸ hb
    have hsrc : s.src.bytes = t.src.bytes :=
      (List.append_eq_nil_iff.mp hb).2.trans (List.append_eq_nil_iff.mp hb').2.symm
    rw [readU8_end hs hb, readU8_end ht hb', ← htl]
    refine .inr ?_
    cases s.src.tail with
    | silent => exact ⟨_, _, _, by simp, rfl, rfl, hu, hsp⟩
    | ended => exact ⟨_, _, _, by simp, rfl, rfl, by simpa [State.unread] using hsrc, hsp⟩
    | failed => exact ⟨_, _, _, by simp, rfl, rfl, hu, hsp⟩

/-- A fetch on the same stream reads the same (rule R144). -/
theorem SameStream.fetchView_eq (k : Record) (fuel : Nat) (bs : List Byte) {s t : State} (h : SameStream s t) :
    fetchView (fetchFrom k fuel bs s) = fetchView (fetchFrom k fuel bs t) := by
  induction fuel generalizing bs s t with
  | zero =>
    unfold fetchFrom
    split
    · cases decodeRead k bs <;> simp [fetchView, h.unread, h.spos]
    · simp [fetchView, h.unread, h.spos]
  | succ fuel ih =>
    simp only [fetchFrom]
    split
    · cases decodeRead k bs <;> simp [fetchView, h.unread, h.spos]
    · rcases h.readU8_cases with ⟨b, s', t', e1, e2, h'⟩ | ⟨o, s', t', ho, e1, e2, hu, hsp⟩ <;> rw [e1, e2]
      · exact ih _ h'
      · cases o with
        | byte b => exact absurd rfl (ho b)
        | ended => simp [fetchView, hu, hsp]
        | failed => simp [fetchView, hu, hsp]
        | waiting => simp [fetchView, hu, hsp]

/-- A fetch that waits has not read its unit to the end. -/
theorem fetchFrom_waiting_more {k : Record} {fuel : Nat} {bs : List Byte} {s t : State}
    (hw : fetchFrom k fuel bs s = .waiting t) : bs.length < bytesNeeded k bs := by
  by_contra hn
  unfold fetchFrom at hw
  rw [if_pos (Nat.le_of_not_lt hn)] at hw
  cases hd : decodeRead k bs <;> rw [hd] at hw <;> cases hw

/-- A fetch that waited keeps in `pend` what it took, so that after a feed it reads what a fetch with all the bytes
at once reads (rule R130, assumption log 8). -/
theorem fetchFrom_resume (k : Record) (fuel : Nat) (bs : List Byte) {s t : State} (bytes : List Byte) (tail : SrcTail)
    (ho : s.readerOpen) (hfuel : longestInstr ≤ bs.length + fuel) (hw : fetchFrom k fuel bs s = .waiting t) :
    fetchView (fetch k (t.feedSource bytes tail)) = fetchView (fetchFrom k fuel bs (s.feedSource bytes tail)) := by
  induction fuel generalizing bs s with
  | zero => exact absurd hfuel (Nat.not_le.mpr ((fetchFrom_waiting_more hw).trans_le (bytesNeeded_le k bs)))
  | succ fuel ih =>
    have hmore := Nat.not_le.mpr (fetchFrom_waiting_more hw)
    simp only [fetchFrom, if_neg hmore] at hw
    cases hu : s.unread with
    | cons b us =>
      obtain ⟨s', e1, u1, o1, p1, q1⟩ := readU8_byte ho hu
      have hfed : (s.feedSource bytes tail).unread = b :: (us ++ bytes) := by
        rw [feedSource_unread, hu, List.cons_append]
      obtain ⟨v, e2, u2, o2, p2, q2⟩ := readU8_byte (s := s.feedSource bytes tail) ho hfed
      rw [e1] at hw
      have hsame : SameStream (s'.feedSource bytes tail) v :=
        ⟨o1, o2, by rw [feedSource_unread, u1, u2], q2.symm, p1.trans p2.symm⟩
      have hlen : longestInstr ≤ (bs ++ [b]).length + fuel := by
        simp only [List.length_append, List.length_singleton]
        omega
      simp only [fetchFrom, if_neg hmore, e2]
      exact (ih _ o1 hlen hw).trans (hsame.fetchView_eq k fuel _)
    | nil =>
      rw [readU8_end ho hu] at hw
      cases htl : s.src.tail <;> rw [htl] at hw <;> cases hw
      have hsame : SameStream ((s.withPend bs).feedSource bytes tail) (s.feedSource bytes tail) :=
        ⟨ho, ho, by simp, rfl, rfl⟩
      exact (congrArg fetchView (fetchFrom_fuel k _ _ bs _ (Nat.le_add_left _ _) hfuel)).trans
        (hsame.fetchView_eq k (fuel + 1) bs)

/-- Settles O30, by induction on the bytes the waiting fetch took. -/
theorem waitingLosesNothing : Obligations.WaitingLosesNothing := by
  unfold Obligations.WaitingLosesNothing
  intro k s t bytes tail ho _ hw
  unfold fetch at hw
  rw [fetchFrom_resume k longestInstr s.dec.pend bytes tail ho (Nat.le_add_left _ _) hw]
  rfl

/-- Settles O31: the two states are on the same stream, and the bytes in progress are the same. -/
theorem chunkIndependentFetch : Obligations.ChunkIndependentFetch := by
  unfold Obligations.ChunkIndependentFetch
  intro k s t hs ht hu htl hp hsp
  unfold fetch
  rw [hp]
  exact SameStream.fetchView_eq k longestInstr t.dec.pend ⟨hs, ht, hu, htl, hsp⟩

/-! ## A step that meets a failing or a silent port (rules R130, R133, R138 and R140) -/

/-- Reading leaves the registers of 60_exceptions.md rule R310 alone. -/
theorem ReadFrame.sameRegisters {s t : State} (h : ReadFrame s t) : s.sameRegisters t := by
  obtain ⟨-, henc, -, -, -, -, -, -, -, -, -, hwcur, hprev, hcache⟩ := h.same
  exact ⟨by rw [henc], by rw [henc], by rw [henc], by rw [henc], hprev, hcache, hwcur⟩

/-- So does handing bytes over. -/
theorem Sent.sameRegisters {bytes : List Byte} {o : WriteOutcome} {s u : State} (h : Sent bytes o s u) :
    s.sameRegisters u := by
  obtain ⟨-, hdec, -, -, -, -, hpix, -, hcache, hrun, hprev, -⟩ := h.same
  exact ⟨hprev, hcache, hrun, hpix, by rw [hdec], by rw [hdec], by rw [hdec]⟩

/-- Settles O28: the bytes cut short are read to their end, and there the failure of the source is raised. -/
theorem failingSource : Obligations.FailingSource := by
  unfold Obligations.FailingSource
  intro s k hn htl hcut
  obtain ⟨hu, hd⟩ := cutShort_unit hcut
  obtain ⟨t, hf, hspos, -, hstep⟩ := step_short hn hu hd
  rw [htl] at hstep
  obtain ⟨-, -, -, hpixout, -⟩ := hf.same
  exact ⟨_, hstep, rfl, rfl, hf.sameRegisters, hspos, hpixout⟩

/-- A source that does not answer: DEC keeps its registers, and in `pend` the bytes it took. -/
theorem step_silentSource {s : State} {k : Record} (hn : s.readsNext k) (htl : s.src.tail = .silent)
    (hcut : cutShort k s.unread) :
    ∃ t, step s = .next t ∧ t.dec.phase = s.dec.phase ∧ t.dec.status = s.dec.status ∧ s.sameRegisters t ∧
      t.pixout = s.pixout ∧ t.dec.pend = s.unread ∧ t.unread = [] := by
  obtain ⟨hu, hd⟩ := cutShort_unit hcut
  obtain ⟨t, hf, -, hnil, hstep⟩ := step_short hn hu hd
  rw [htl] at hstep
  obtain ⟨-, -, -, hpixout, -, hph, hst, -⟩ := hf.same
  exact ⟨_, hstep, hph, hst, hf.sameRegisters, hpixout, rfl, hnil⟩

/-- The machine's step, on ENC's turn, that makes the offer after the last grant. -/
theorem step_stop {s : State} {bytes : List Byte} {n : Nat} (hn : s.encTurn) (hb : s.stepBytes? = some bytes)
    (he : s.enc.wr.err = false) (hroom : s.enc.wr.buf.length ≤ s.par.chunk) (hg : s.sink.grants = some n)
    (hm : s.offersMore (bytes.drop s.enc.sent) n) :
    ∃ u, Sent bytes s.sink.tail.outcome { s with turn := .dec } u ∧
      step s = (match s.sink.tail with
        | .failed _ => .next (raiseEnc .ioSink u)
        | .silent => .next u) ∧
      u.sink.bytes = s.sink.bytes ++
        (s.enc.wr.buf ++ bytes.drop s.enc.sent).take (n * s.par.chunk + min s.sink.tail.kept s.par.chunk) ∧
      u.enc.sent = s.enc.sent +
        ((bytes.drop s.enc.sent).take ((n + 1) * s.par.chunk - s.enc.wr.buf.length)).length := by
  rw [step_enc hn (stepBytes_inCall hb)]
  exact encStep_stop (s := { s with turn := .dec }) hb he hroom hg hm

/-- Settles O40: ENC's step stops at the offer that fails. -/
theorem failingSink : Obligations.FailingSink := by
  unfold Obligations.FailingSink
  intro s bytes n kept hn hb he hroom hg htl hm
  obtain ⟨u, hs, hstep, hsink, -⟩ := step_stop hn hb he hroom hg hm
  rw [htl] at hstep hsink
  exact ⟨_, hstep, rfl, rfl, hs.sameRegisters, hsink⟩

/-- Bytes handed over without a failure are told by their number. -/
theorem Sent.emitted_take {bytes gone : List Byte} {o : WriteOutcome} {s u : State} (h : Sent bytes o s u)
    (ho : o ≠ .failed) (hp : gone <+: bytes.drop s.enc.sent) (hg : u.enc.sent = s.enc.sent + gone.length) :
    u.emitted = s.emitted ++ gone := by
  obtain ⟨pre, hpre, hemit, -, -, hsent, -⟩ := h.taken
  have hlen : pre.length = gone.length := by omega
  have heq : pre = gone := by
    rw [List.prefix_iff_eq_take.mp hpre, List.prefix_iff_eq_take.mp hp, hlen]
  rw [hemit ho, heq]

/-- Settles O29: DEC waits where its unread bytes end, and ENC at the offer that is not answered. -/
theorem waitingStepKeepsRegisters : Obligations.WaitingStepKeepsRegisters := by
  unfold Obligations.WaitingStepKeepsRegisters
  refine ⟨fun s k hn htl hcut => step_silentSource hn htl hcut, ?_⟩
  intro s bytes n hn hb he hroom hg htl hm
  obtain ⟨u, hs, hstep, hsink, hsent⟩ := step_stop hn hb he hroom hg hm
  rw [htl] at hs hstep hsink
  obtain ⟨-, -, -, -, -, hph, -, -, -, -, -, hst⟩ := hs.same
  have hemit := hs.emitted_take (by simp [SinkTail.outcome]) (List.take_prefix _ _) hsent
  have hbytes : u.stepBytes? = some bytes := hs.stepBytes.trans hb
  refine ⟨u, hstep, hph, hst, hs.sameRegisters, hbytes, ⟨hemit, hsent⟩, ?_⟩
  simpa [SinkTail.kept] using hsink

end Sys2Proof.Machine
end

section
/-! SUPPORT. The header and the trailer (41_header_trailer.md): the checks of DEC and how far it reads the header for each
of them, and the two steps of ENC that write the records. -/

namespace Sys2Proof.Machine

/-! ## The header checks of DEC (rules R162 and R163) -/

section
variable {pixbufMax : Nat} {req : Byte} {m w h : Word} {c cs : Byte}

theorem headerError_magic (hm : m ≠ magicWord) : headerError pixbufMax req m w h c cs = some .formatMagic := by
  simp [headerError, hm]

theorem headerError_width : headerError pixbufMax req magicWord 0#32 h c cs = some .formatWidth := by
  simp [headerError]

theorem headerError_height (hw : w ≠ 0#32) :
    headerError pixbufMax req magicWord w 0#32 c cs = some .formatHeight := by
  simp [headerError, hw]

theorem headerError_channels (hw : w ≠ 0#32) (hh : h ≠ 0#32) (hc : c ≠ 3#8 ∧ c ≠ 4#8) :
    headerError pixbufMax req magicWord w h c cs = some .formatChannels := by
  simp [headerError, hw, hh, hc]

theorem headerError_colorspace (hw : w ≠ 0#32) (hh : h ≠ 0#32) (hc : c = 3#8 ∨ c = 4#8) (hcs : cs ≠ 0#8 ∧ cs ≠ 1#8) :
    headerError pixbufMax req magicWord w h c cs = some .formatColorspace := by
  simp [headerError, hw, hh, or_iff_not_and_not.mp hc, hcs]

/-- A header whose five fields are accepted is left to the size check (rule R164). -/
theorem headerError_size (hw : w ≠ 0#32) (hh : h ≠ 0#32) (hc : c = 3#8 ∨ c = 4#8) (hcs : cs = 0#8 ∨ cs = 1#8) :
    headerError pixbufMax req magicWord w h c cs =
      if w.toNat * h.toNat * max c.toNat (outputChannels req c).toNat > pixbufMax then some .formatSize else none := by
  simp [headerError, hw, hh, or_iff_not_and_not.mp hc, or_iff_not_and_not.mp hcs]

/-- A header with a defect is refused with the error of its first one. -/
theorem exec_header_refused {s : State} {e : Err} (hp : s.dec.phase = .header)
    (he : headerError s.par.pixbufMax s.dec.req m w h c cs = some e) :
    exec (.header m w h c cs) s = .next (raiseDec e s) := by
  simp only [exec, execHeader, if_pos hp, he]

/-- A header without a defect is accepted. -/
theorem exec_header_accepted {s : State} (hp : s.dec.phase = .header)
    (he : headerError s.par.pixbufMax s.dec.req m w h c cs = none) :
    exec (.header m w h c cs) s = .next (acceptHeader w h c cs s) := by
  simp only [exec, execHeader, if_pos hp, he]

end

/-- Row 0 of rule R163: a `start` with an illegal `REQ` is refused after the call reset (44_decoder.md rule R261). -/
theorem startDec_badReq {s : State} (hb : s.dec.status.busy = false) (h0 : s.dec.req ≠ 0#8) (h3 : s.dec.req ≠ 3#8)
    (h4 : s.dec.req ≠ 4#8) : startDec s = raiseDec .usageReq (callResetDec s) := by
  have hreq : (callResetDec s).dec.req = s.dec.req := rfl
  simp [startDec, hb, hreq, h0, h3, h4]

/-- The host's turn at the head of the agenda is the next step. -/
theorem step_host {s : State} {a : HostAct} {rest : List Turn} (ha : s.agenda = .host a :: rest) :
    step s = hostStep a { s with agenda := rest } := by
  simp only [step, ha]

/-- Settles O20: row 0 is the check of `start`; each further row is the error `headerError` answers for it. -/
theorem headerChecksInOrder : Obligations.HeaderChecksInOrder := by
  unfold Obligations.HeaderChecksInOrder
  refine ⟨fun s rest ha hb h0 h3 h4 => ?_, fun m w h c cs s hp => ⟨fun hm => ?_, ?_, ?_, ?_, ?_, ?_⟩⟩
  · have hstart := startDec_badReq (s := { s with agenda := rest }) hb h0 h3 h4
    exact ⟨_, (step_host ha).trans (congrArg Host.Outcome.next hstart), rfl, rfl, rfl, rfl⟩
  · exact exec_header_refused hp (headerError_magic hm)
  · rintro rfl rfl
    exact exec_header_refused hp headerError_width
  · rintro rfl hw rfl
    exact exec_header_refused hp (headerError_height hw)
  · rintro rfl hw hh hc
    exact exec_header_refused hp (headerError_channels hw hh hc)
  · rintro rfl hw hh hc hcs
    exact exec_header_refused hp (headerError_colorspace hw hh hc hcs)
  · rintro rfl hw hh hc hcs hsize
    exact exec_header_refused hp ((headerError_size hw hh hc hcs).trans (if_pos hsize))

/-- Settles O19: no check of a header without a defect fails. -/
theorem headerAccepted : Obligations.HeaderAccepted := by
  unfold Obligations.HeaderAccepted
  intro w h c cs s hp hw hh hc hcs hsize
  exact exec_header_accepted hp ((headerError_size hw hh hc hcs).trans (if_neg (Nat.not_lt.mpr hsize)))

/-! ## How far a header is read (rule R162: each field is checked "as soon as it is read") -/

/-- Two words with the same bytes are the same. -/
theorem bytesOfWord_injective : Function.Injective bytesOfWord := by
  intro v w h
  simp only [bytesOfWord, List.cons.injEq, and_true] at h
  obtain ⟨h3, h2, h1, h0⟩ := h
  rw [← wordOfBytes_bytesOfWord v, h3, h2, h1, h0, wordOfBytes_bytesOfWord]

section
variable {bs : List Byte}

/-- A wrong magic ends the reading. -/
theorem headerNeed_le_of_magic (h : bs.take 4 ≠ bytesOfWord magicWord) : headerNeed bs ≤ 4 := by
  unfold headerNeed
  split_ifs <;> simp

/-- A width of zero ends the reading. -/
theorem headerNeed_le_of_width (h : (bs.drop 4).take 4 = [0#8, 0#8, 0#8, 0#8]) : headerNeed bs ≤ 8 := by
  unfold headerNeed
  split_ifs <;> simp

/-- A height of zero ends the reading. -/
theorem headerNeed_le_of_height (h : (bs.drop 8).take 4 = [0#8, 0#8, 0#8, 0#8]) : headerNeed bs ≤ 12 := by
  unfold headerNeed
  split_ifs <;> simp

/-- An illegal channel count ends the reading. -/
theorem headerNeed_le_of_channels {c : Byte} (h : bs[12]? = some c) (hc : c ≠ 3#8 ∧ c ≠ 4#8) :
    headerNeed bs ≤ 13 := by
  have hbad : bs[12]? ≠ some 3#8 ∧ bs[12]? ≠ some 4#8 := by simpa [h] using hc
  unfold headerNeed
  split_ifs <;> simp

end

/-- The first four bytes are read before any check. -/
theorem magic_unit (m : Word) : UnitBytes .header (bytesOfWord m) := by
  refine ⟨fun j hj => ?_, by simp [bytesOfWord]⟩
  have hlen : (bytesOfWord m).length = 4 := rfl
  have hneed : bytesNeeded .header ((bytesOfWord m).take j) = 4 := if_pos (by rw [List.length_take]; omega)
  omega

/-- Bytes read that zeros complete to the encoding of an instruction are taken as that instruction. -/
theorem decodeRead_of_zeros {i : Instr} {bs : List Byte} {n : Nat} (hw : i.record = .token → i.wellFormed = true)
    (hn : n ≤ longestInstr) (h : bs ++ List.replicate n 0#8 = encode i) : decodeRead i.record bs = some i := by
  have hpad : padded bs = encode i ++ List.replicate (longestInstr - n) 0#8 := by
    rw [padded, ← h, List.append_assoc, List.replicate_append_replicate, Nat.add_sub_cancel' hn]
  rw [decodeRead, hpad, decode_encode hw]

/-- A step of DEC whose unit is whole, or refused, in the unread bytes reads it to its end and runs the instruction it
is. -/
theorem step_whole {s : State} {k : Record} {got rest : List Byte} (hn : s.readsNext k) (hu : UnitBytes k got)
    (hend : bytesNeeded k got ≤ got.length) (hs : s.unread = got ++ rest) :
    ∃ i t, decodeRead k got = some i ∧ step s = exec i t ∧ ReadFrame { s with turn := .enc } t ∧ t.unread = rest ∧
      t.readerOpen ∧ t.dec.spos = s.dec.spos + got.length ∧ t.dec.pend = [] := by
  obtain ⟨ht, hph, hpend, ho⟩ := hn
  have hscan : scan k longestInstr [] s.unread = (got, rest, true) := hs ▸ scan_unit hu hend rest
  obtain ⟨i, t, hf, hi, hframe, hrest, hto, hspos, htp, -⟩ :=
    fetchFrom_whole (s := { s with turn := .enc }) (bs := []) ho hscan
  refine ⟨i, t, hi, ?_, hframe, hrest, hto, hspos, htp⟩
  rw [step_dec ht (hph ▸ recordPhase_inCall k)]
  simp only [decStep, hph, recordPhase_record?, fetch, hpend, hf]

/-- A step of DEC on a header of which `got` is read, up to a field with a defect: the error, and what follows `got`
unread. The zeros are the fields not read. -/
theorem step_header_refused {s : State} {m w h : Word} {c cs : Byte} {got us : List Byte} (n : Nat) {e : Err}
    (hn : s.readsNext .header) (hs : s.unread = got ++ us) (hu : UnitBytes .header got)
    (hend : bytesNeeded .header got ≤ got.length)
    (hpad : got ++ List.replicate n 0#8 = encode (.header m w h c cs))
    (he : headerError s.par.pixbufMax s.dec.req m w h c cs = some e) :
    ∃ t, step s = .next t ∧ t.dec.phase = .failed ∧ t.dec.status = e.status ∧
      t.dec.spos = s.dec.spos + got.length ∧ t.unread = us := by
  obtain ⟨i, t, hi, hstep, hframe, hrest, -, hspos, -⟩ := step_whole hn hu hend hs
  have hlen : n ≤ longestInstr := by
    have := congrArg List.length hpad
    simp [encode, bytesOfWord] at this
    unfold longestInstr
    omega
  have hdec := decodeRead_of_zeros (i := .header m w h c cs) nofun hlen hpad
  obtain rfl : i = .header m w h c cs := Option.some.inj (hi.symm.trans hdec)
  obtain ⟨hpar, -, -, -, -, hph, -, hreq, -⟩ := hframe.same
  rw [exec_header_refused (hph.trans hn.2.1) (by rw [hpar, hreq]; exact he)] at hstep
  exact ⟨_, hstep, rfl, rfl, hspos, hrest⟩

/-- Settles O21: field by field, how far the header is read and which check then fails. -/
theorem headerRefusedAsRead : Obligations.HeaderRefusedAsRead := by
  unfold Obligations.HeaderRefusedAsRead
  intro s us hn
  refine ⟨fun m0 m1 m2 m3 hm hs => ?_, fun hs => ?_, fun w hw hs => ?_, fun w h c hw hh hc hs => ?_,
    fun w h c cs hw hh hc hcs hs => ?_⟩
  · rw [← bytesOfWord_wordOfBytes] at hs
    exact step_header_refused (w := 0#32) (h := 0#32) (c := 0#8) (cs := 0#8) 10 hn hs (magic_unit _)
      (headerNeed_le_of_magic (bytesOfWord_injective.ne hm)) rfl (headerError_magic hm)
  · exact step_header_refused (h := 0#32) (c := 0#8) (cs := 0#8) 6 hn hs
      (header_unit 0#32 0#32 0#8 0#8 _ (by decide) (by decide) (by decide) (by decide))
      (headerNeed_le_of_width rfl) rfl headerError_width
  · exact step_header_refused (c := 0#8) (cs := 0#8) 2 hn hs
      (header_unit w 0#32 0#8 0#8 _ (fun _ => hw) nofun nofun ⟨_, rfl⟩)
      (headerNeed_le_of_height rfl) rfl (headerError_height hw)
  · exact step_header_refused (cs := 0#8) 1 hn hs
      (header_unit w h c 0#8 _ (fun _ => hw) (fun _ => hh) nofun ⟨_, rfl⟩)
      (headerNeed_le_of_channels rfl hc) rfl (headerError_channels hw hh hc)
  · exact step_header_refused 0 hn hs
      (header_unit w h c cs _ (fun _ => hw) (fun _ => hh) (fun _ => hc) (List.prefix_refl _))
      (bytesNeeded_le .header _) rfl (headerError_colorspace hw hh hc hcs)

/-! ## The trailer (rule R166) -/

/-- In the trailer phase a TRAILER ends the call, well or with a corruption. -/
theorem exec_trailer {s : State} (hp : s.dec.phase = .trailer) (b : BitVec 64) :
    exec (.trailer b) s = .next (if b = trailerWord then finishDec s else raiseDec .corruptionTrailer s) := by
  simp only [exec, execTrailer, if_pos hp]
  split <;> rfl

/-- A decode that failed has no Image (60_exceptions.md rule R311). -/
theorem raiseDec_image? (e : Err) (s : State) : (raiseDec e s).image? = none := by
  simp [State.image?]

/-- Settles O22: the comparison with the sentinel. -/
theorem trailerIsCompared : Obligations.TrailerIsCompared := by
  unfold Obligations.TrailerIsCompared
  intro b s hp
  refine ⟨fun hb => ?_, fun hb => ⟨_, ?_, rfl, raiseDec_image? .corruptionTrailer s⟩⟩
  · rw [exec_trailer hp, if_pos (show b = trailerWord from hb)]
    rfl
  · rw [exec_trailer hp, if_neg (show b ≠ trailerWord from hb)]
    rfl

/-! ## The records ENC writes (rules R161 and R165) -/

/-- On ENC's turn in the header phase a step is `write_header`. -/
theorem step_writesHeader {s : State} (hn : s.writesNext .header) :
    step s = encHeaderStep { s with turn := .dec } := by
  obtain ⟨hturn, hp⟩ := hn
  rw [step_enc hturn (by rw [hp]; rfl)]
  simp only [encStep, hp]

/-- On ENC's turn in the trailer phase a step is `write_trailer` and `finish`. -/
theorem step_writesTrailer {s : State} (hn : s.writesNext .trailer) :
    step s = encTrailerStep { s with turn := .dec } := by
  obtain ⟨hturn, hp⟩ := hn
  rw [step_enc hturn (by rw [hp]; rfl)]
  simp only [encStep, hp]

/-- Settles O37: with an open sink the header's bytes are all taken, and nothing but WR and the sink moves by that. -/
theorem encoderHeaderStep : Obligations.EncoderHeaderStep := by
  unfold Obligations.EncoderHeaderStep
  intro s hn ho
  obtain ⟨u, hu, hsent, hopen⟩ := emitThen_open (encode (headerInstr s.enc.cfg))
    (fun t => .next (t.withEnc { t.enc with phase := .body, sent := 0 })) (s := { s with turn := .dec }) ho
  obtain ⟨hemit, hepos⟩ := hsent.full
  refine ⟨_, (step_writesHeader hn).trans hu, hemit, hopen, ?_⟩
  have hlen : u.enc.epos = s.enc.epos + (14 - s.enc.sent) := by rw [hepos, List.length_drop]; rfl
  rw [← hlen]
  exact congrArg (fun v : State => v.withEnc { v.enc with phase := .body, sent := 0 }) hsent.frame

/-- With an open sink the flush empties WR, and the call is done (43_encoder.md rule R226). -/
theorem flushThenFinish_open {s : State} (h : s.sinkOpen) :
    ∃ v, flushThenFinish s = .next (finishEnc v) ∧ Written [] .ok s v ∧ v.sinkOpen ∧ v.enc.wr.buf = [] := by
  obtain ⟨hw, ho, hb⟩ := flush_written s
  obtain ⟨hok, hopen⟩ := ho h
  refine ⟨(flush s).2, ?_, hok ▸ hw, hopen, hb hok⟩
  rw [flushThenFinish, show flush s = (.ok, (flush s).2) from Prod.ext hok rfl]

/-- Settles O38: the trailer's bytes are all taken, and after the flush the sink has every byte handed over. -/
theorem encoderFinish : Obligations.EncoderFinish := by
  unfold Obligations.EncoderFinish
  intro s hn ho
  obtain ⟨u, hu, hsent, hopen⟩ := emitThen_open (encode (.trailer trailerWord)) flushThenFinish
    (s := { s with turn := .dec }) ho
  obtain ⟨v, hv, hw, hvopen, hempty⟩ := flushThenFinish_open hopen
  have hall := hsent.flushed hw fun _ => hvopen
  obtain ⟨hemit, hepos⟩ := hall.full
  obtain ⟨-, -, -, -, -, -, -, -, -, -, -, hstatus⟩ := hall.same
  have hsink : v.emitted = v.sink.bytes := by rw [State.emitted, hempty, List.append_nil]
  refine ⟨_, ((step_writesTrailer hn).trans hu).trans hv, hsink.symm.trans hemit, hempty, rfl, ?_, ?_⟩
  · rw [finishEnc_enc_status, hstatus]
  · rw [finishEnc_enc_epos, hepos, List.length_drop]
    rfl

end Sys2Proof.Machine
end

section
/-! The pixel cache (42_pixel_cache.md rules R191, R193 and R194): two more spellings of the slot number, and stores at
one slot. Settles O7 and O8. -/

namespace Sys2Proof.Machine

/-! ## The slot number (rule R191) -/

/-- The sum may be taken on the low six bits of each channel: a weight times a channel has its remainder. -/
theorem slotNumber_lowSixBits (p : Pixel) :
    slotNumber p =
      (3 * (p.r.toNat % 64) + 5 * (p.g.toNat % 64) + 7 * (p.b.toNat % 64) + 11 * (p.a.toNat % 64)) % 64 := by
  have weighted (k n : Nat) : k * n ≡ k * (n % 64) [MOD 64] := (Nat.mod_modEq n 64).symm.mul_left k
  exact (((weighted 3 _).add (weighted 5 _)).add (weighted 7 _)).add (weighted 11 _)

/-- The alpha term of an opaque pixel is 11 * 255 = 43 * 64 + 53. -/
theorem slotNumber_opaque {p : Pixel} (ha : p.a = 255#8) :
    slotNumber p = (3 * p.r.toNat + 5 * p.g.toNat + 7 * p.b.toNat + 53) % 64 := by
  have alphaTerm : 11 * p.a.toNat ≡ 53 [MOD 64] := by rw [ha]; decide
  exact alphaTerm.add_left _

/-- Settles O7: the hash is the slot number, in each of its three spellings. -/
theorem hashIsWeightedSum : Obligations.HashIsWeightedSum := by
  unfold Obligations.HashIsWeightedSum
  intro p
  have hslot := hash_toNat p
  exact ⟨hslot, hslot.trans (slotNumber_lowSixBits p), fun ha => hslot.trans (slotNumber_opaque ha)⟩

/-! ## Stores (rules R193 and R194) -/

/-- A slot that was not stored to reads as before. -/
theorem cacheLookup_cacheStore_other {i j : Slot} (h : j ≠ i) (cache : Cache) (p : Pixel) :
    cacheLookup (cacheStore cache i p) j = cacheLookup cache j := by
  rw [cacheLookup_cacheStore, if_neg h.symm]

/-- Of two stores at one slot the later leaves nothing of the earlier: the two caches agree on every slot. -/
theorem cacheStore_cacheStore_same (cache : Cache) (i : Slot) (p q : Pixel) :
    cacheStore (cacheStore cache i p) i q = cacheStore cache i q := by
  refine cache_ext fun j => ?_
  by_cases h : j = i
  · subst h
    simp only [cacheLookup_cacheStore_same]
  · simp only [cacheLookup_cacheStore_other h]

/-- Settles O8: the stored slot, another slot, and a second store at the slot. -/
theorem cacheStoreThenLookup : Obligations.CacheStoreThenLookup := by
  unfold Obligations.CacheStoreThenLookup
  intro cache i j p q
  exact ⟨cacheLookup_cacheStore_same cache i p, fun h => cacheLookup_cacheStore_other h cache p,
    cacheStore_cacheStore_same cache i p q⟩

end Sys2Proof.Machine
end

section
/-! SUPPORT. The steps of ENC with a sink that answers (43_encoder.md rules R210 to R212, R226 and R230): the pixel that is
fetched, `enc_start`, one pixel, and a whole encode, by induction on the pixels still to come. -/

namespace Sys2Proof.Machine

/-! ## The fetched pixel (rule R212) -/

/-- The bytes of a pixel give the pixel back, where a buffer of three channels holds an opaque one (20_memory.md
rule R63). -/
theorem pixelOfBytes_pixelBytes {p : Pixel} {n : Nat} (hn : n = 3 ∧ p.a = 255#8 ∨ n = 4) :
    (pixelBytes p n).length = n ∧ pixelOfBytes (pixelBytes p n) = some p := by
  rcases hn with ⟨rfl, ha⟩ | rfl
  · exact ⟨rfl, congrArg (fun a => some (⟨p.r, p.g, p.b, a⟩ : Pixel)) ha.symm⟩
  · exact ⟨rfl, rfl⟩

/-- A fetch within `CFG.LEN` gives the pixel whose bytes stand at `ENC.PIX * CFG.CH`. -/
theorem fetchPixel_of_bytes {s : State} {p : Pixel} {n : Nat} (hch : s.enc.cfg.ch.toNat = n)
    (hn : n = 3 ∧ p.a = 255#8 ∨ n = 4) (hlen : s.enc.pix * n + n ≤ s.enc.cfg.len)
    (hbytes : ∀ c < n, memReadByte s.pixin (s.enc.pix * n + c) = (pixelBytes p n)[c]?) : fetchPixel s = .pixel p := by
  obtain ⟨hlength, hpixel⟩ := pixelOfBytes_pixelBytes hn
  have hread : memRead s.pixin (s.enc.pix * n) n = some (pixelBytes p n) := memRead_eq_some.mpr ⟨hlength, hbytes⟩
  simp only [fetchPixel, hch, if_neg (Nat.not_lt.mpr hlen), hread, hpixel]

/-- Settles O32: the bytes read are those of the pixel named, channel by channel. -/
theorem fetchedPixel : Obligations.FetchedPixel := by
  unfold Obligations.FetchedPixel
  refine fun s hlen => ⟨fun r g b a hch hr hg hb ha => ?_, fun r g b hch hr hg hb => ?_⟩
  · have hn : s.enc.cfg.ch.toNat = 4 := by rw [hch]; rfl
    refine fetchPixel_of_bytes hn (.inr rfl) (hn ▸ hlen) fun c hc => ?_
    match c, hc with
    | 0, _ => exact hr
    | 1, _ => exact hg
    | 2, _ => exact hb
    | 3, _ => exact ha
  · have hn : s.enc.cfg.ch.toNat = 3 := by rw [hch]; rfl
    refine fetchPixel_of_bytes hn (.inl ⟨rfl, rfl⟩) (hn ▸ hlen) fun c hc => ?_
    match c, hc with
    | 0, _ => exact hr
    | 1, _ => exact hg
    | 2, _ => exact hb

/-! ## `enc_start` (rule R211) -/

/-- A start whose checks fail ends the call with the error they report (rule R211). -/
theorem startEnc_refused {s : State} {e : Err} (h : s.enc.status.busy = false)
    (he : encUsageError s.enc.cfg s.par.pixbufMax = some e) : startEnc s = raiseEnc e (callResetEnc s) := by
  have he' : encUsageError (callResetEnc s).enc.cfg (callResetEnc s).par.pixbufMax = some e := he
  simp [startEnc, h, he']

/-- A start whose checks pass computes `ENC.NPIX` and enters the header phase (rule R211). -/
theorem startEnc_accepted {s : State} (h : s.enc.status.busy = false)
    (he : encUsageError s.enc.cfg s.par.pixbufMax = none) : startEnc s = (callResetEnc s).withEnc
      { (callResetEnc s).enc with npix := s.enc.cfg.width.toNat * s.enc.cfg.height.toNat, phase := .header } := by
  have he' : encUsageError (callResetEnc s).enc.cfg (callResetEnc s).par.pixbufMax = none := he
  simp only [startEnc, h, he']
  rfl

/-- Whatever the checks say, a start that is not ignored leaves the registers of the call reset; only `ENC.NPIX`, `PHASE`
and `STATUS` depend on them. -/
theorem startEnc_callReset {s : State} (h : s.enc.status.busy = false) :
    ∃ npix phase status, startEnc s =
      (callResetEnc s).withEnc { (callResetEnc s).enc with npix := npix, phase := phase, status := status } := by
  cases he : encUsageError s.enc.cfg s.par.pixbufMax with
  | some e => exact ⟨_, _, _, startEnc_refused h he⟩
  | none => exact ⟨_, _, _, startEnc_accepted h he⟩

/-- Settles O50: the registers are those of the call reset, and the checks are taken row by row. -/
theorem encStartChecks : Obligations.EncStartChecks := by
  unfold Obligations.EncStartChecks
  intro s rest hagenda hbusy
  have hstep : step s = .next (startEnc { s with agenda := rest }) := by rw [step, hagenda]; rfl
  obtain ⟨npix, phase, status, hregs⟩ := startEnc_callReset (s := { s with agenda := rest }) hbusy
  refine ⟨_, hstep, ?_, ?_, ?_, ?_, ?_, ?_, ?_, ?_, ?_⟩
  case refine_9 =>
    have fail {e : Err} (he : encUsageError s.enc.cfg s.par.pixbufMax = some e) :
        (startEnc { s with agenda := rest }).enc.phase = .failed ∧
          (startEnc { s with agenda := rest }).enc.status = e.status := by
      rw [startEnc_refused (s := { s with agenda := rest }) hbusy he]
      exact ⟨rfl, rfl⟩
    intro c size fails
    split_ifs with hdims hch hcs hsize hlen
    · exact fail (by rw [encUsageError, if_pos hdims])
    · exact fail (by rw [encUsageError, if_neg hdims, if_pos hch])
    · exact fail (by rw [encUsageError, if_neg hdims, if_neg hch, if_pos hcs])
    · exact fail (by rw [encUsageError, if_neg hdims, if_neg hch, if_neg hcs]; exact if_pos hsize)
    · exact fail (by rw [encUsageError, if_neg hdims, if_neg hch, if_neg hcs]; exact (if_neg hsize).trans (if_pos hlen))
    · rw [startEnc_accepted (s := { s with agenda := rest }) hbusy
        (by rw [encUsageError, if_neg hdims, if_neg hch, if_neg hcs]; exact (if_neg hsize).trans (if_neg hlen))]
      exact ⟨rfl, rfl, rfl⟩
  all_goals rw [hregs]
  case refine_8 => exact cacheLookup_cacheReset
  all_goals rfl

/-! ## One step with an open sink -/

/-- A step that has handed nothing over yet hands all its bytes over. -/
theorem Sent.full_of_start {bytes : List Byte} {s u : State} (h : Sent bytes .ok s u) (h0 : s.enc.sent = 0) :
    u.emitted = s.emitted ++ bytes := by
  have hemit := h.full.1
  rwa [h0] at hemit

/-- A pixel step hands over the bytes of the pixel's tokens and commits (rule R230). -/
theorem encStep_pixel {s : State} {cur : Pixel} {last : Bool} (hlast : s.enc.atLast = last)
    (hp : s.enc.phase = .body) (ho : s.sinkOpen) (hlt : s.enc.pix < s.enc.npix) (hf : fetchPixel s = .pixel cur) :
    let f := pixelEffectAt last s.enc.prev s.enc.run s.enc.cache cur
    ∃ u, encStep s = .next (commitPixel f last u) ∧ Sent (encodeAll f.tokens) .ok s u ∧ u.sinkOpen := by
  intro f
  simp only [encStep, hp, encPixelStep, if_pos hlt, hf, hlast]
  exact emitThen_open _ _ ho

/-- The header step hands over the header and the pixel phase begins (41_header_trailer.md rule R161). -/
theorem encStep_header {s : State} (hp : s.enc.phase = .header) (ho : s.sinkOpen) :
    ∃ u, encStep s = .next (u.withEnc { u.enc with phase := .body, sent := 0 }) ∧
      Sent (encode (headerInstr s.enc.cfg)) .ok s u ∧ u.sinkOpen := by
  simp only [encStep, hp]
  exact emitThen_open _ _ ho

/-- The trailer step hands over the trailer, flushes and ends the call (rule R226). -/
theorem encStep_trailer {s : State} (hp : s.enc.phase = .trailer) (ho : s.sinkOpen) :
    ∃ v, encStep s = .next (finishEnc v) ∧ Sent (encode (.trailer trailerWord)) .ok s v ∧ v.enc.wr.buf = [] := by
  obtain ⟨u, hu, hsent, hopen⟩ := emitThen_open (encode (.trailer trailerWord)) flushThenFinish ho
  obtain ⟨v, hv, hw, hvopen, hempty⟩ := flushThenFinish_open hopen
  refine ⟨v, ?_, hsent.flushed hw fun _ => hvopen, hempty⟩
  simp only [encStep, hp]
  exact hu.trans hv

/-- The pixel's effect at the place it has in the buffer, with the flush of rule R225 written out. -/
theorem pixelEffectAt_atLast_tokens (e : Enc) (cur : Pixel) :
    let f := pixelEffect e.prev e.run e.cache cur
    (pixelEffectAt e.atLast e.prev e.run e.cache cur).tokens =
        (if e.pix + 1 = e.npix ∧ f.run ≠ 0#6 then f.tokens ++ [.run (f.run - 1#6)] else f.tokens) ∧
      (pixelEffectAt e.atLast e.prev e.run e.cache cur).run = if e.pix + 1 = e.npix then 0#6 else f.run := by
  intro f
  by_cases hlast : e.pix + 1 = e.npix
  · by_cases hrun : f.run = 0#6
    · simp [pixelEffectAt, endEffect, Enc.atLast, hlast, flushRun, f, hrun]
    · simp [pixelEffectAt, endEffect, Enc.atLast, hlast, flushRun, runToken, f, hrun]
  · simp [pixelEffectAt, Enc.atLast, hlast, f]

/-- A commit after bytes were handed over, field by field: nothing but ENC and the sink has moved. -/
theorem WriteFrame.commit {s u : State} (h : WriteFrame s u) (f : PixelEffect) (last : Bool) :
    commitPixel f last u = { s with
      enc := { s.enc with
        prev := f.prev, run := f.run, cache := f.cache, pix := s.enc.pix + 1,
        phase := if last then .trailer else s.enc.phase, epos := u.enc.epos, wr := u.enc.wr, sent := 0 }
      sink := u.sink } :=
  congrArg (commitPixel f last) h

/-- Settles O36: the tokens' bytes are handed over, and the effect of the pixel is committed. -/
theorem encoderPixelStep : Obligations.EncoderPixelStep := by
  unfold Obligations.EncoderPixelStep
  rintro s cur ⟨hturn, hp⟩ ho hlt hf
  obtain ⟨u, hu, hsent, hopen⟩ := encStep_pixel (s := { s with turn := .dec }) rfl hp ho hlt hf
  obtain ⟨htokens, hrun⟩ := pixelEffectAt_atLast_tokens s.enc cur
  obtain ⟨hemit, hepos⟩ := hsent.full
  rw [List.length_drop] at hepos
  rw [hsent.frame.commit] at hu
  refine ⟨_, (step_enc hturn (by rw [hp]; rfl)).trans hu, ?_⟩
  intro f last tokens
  refine ⟨?_, ?_, pixelEffectAt_prev .., hrun, ?_, rfl, ?_, hopen, rfl⟩
  · exact hemit.trans (congrArg (fun is => s.emitted ++ (encodeAll is).drop s.enc.sent) htokens)
  · exact hepos.trans (congrArg (fun is => s.enc.epos + ((encodeAll is).length - s.enc.sent)) htokens)
  · exact (pixelEffectAt_cache ..).trans (pixelEffect_cache ..)
  · simp only [Enc.atLast, decide_eq_true_eq, hp, last]

/-! ## A whole encode (rule R210) -/

/-- ENC is alone in a call, its header written, its sink open, and the pixels it has still to encode are `ps`: after the
last one it is in the trailer phase. -/
structure State.PixelsLeft (s : State) (ps : List Pixel) : Prop where
  silent : s.agenda = []
  alone : s.dec.phase.inCall = false
  sink : s.sinkOpen
  phase : s.enc.phase = if ps.isEmpty then .trailer else .body
  sent : s.enc.sent = 0
  count : s.enc.pix + ps.length = s.enc.npix
  pixels : ∀ (j : Nat) (p : Pixel), ps[j]? = some p →
    fetchPixel (s.withEnc { s.enc with pix := s.enc.pix + j }) = .pixel p

/-- A fetch depends on `PIXIN`, the configuration and `ENC.PIX` only (rule R212). -/
theorem fetchPixel_congr {s t : State} (hm : t.pixin = s.pixin) (hc : t.enc.cfg = s.enc.cfg)
    (hp : t.enc.pix = s.enc.pix) : fetchPixel t = fetchPixel s := by
  simp only [fetchPixel, hm, hc, hp]

/-- With pixels left a step of the machine encodes the first of them. -/
theorem State.PixelsLeft.encodes_first {s : State} {cur : Pixel} {rest : List Pixel} (h : s.PixelsLeft (cur :: rest)) :
    let f := pixelEffectAt rest.isEmpty s.enc.prev s.enc.run s.enc.cache cur
    ∃ t, step s = .next t ∧ t.PixelsLeft rest ∧ t.emitted = s.emitted ++ encodeAll f.tokens ∧
      t.enc.prev = f.prev ∧ t.enc.run = f.run ∧ t.enc.cache = f.cache := by
  have hp : s.enc.phase = .body := h.phase
  have hcount : s.enc.pix + (rest.length + 1) = s.enc.npix := h.count
  have hlast : s.enc.atLast = rest.isEmpty := by
    rw [Bool.eq_iff_iff]
    simp only [Enc.atLast, decide_eq_true_eq, List.isEmpty_iff, ← List.length_eq_zero_iff]
    omega
  obtain ⟨_, hstep, rfl⟩ := step_enc_alone h.silent h.alone (by rw [hp]; rfl)
  obtain ⟨u, hu, hsent, hopen⟩ := encStep_pixel (s := { s with turn := .dec }) (cur := cur) hlast hp h.sink
    (show s.enc.pix < s.enc.npix by omega) (h.pixels 0 cur rfl)
  rw [hsent.frame.commit] at hu
  refine ⟨_, hstep.trans hu, ⟨h.silent, h.alone, hopen, ?_, rfl, ?_, fun j p hj => ?_⟩,
    hsent.full_of_start h.sent, rfl, rfl, rfl⟩
  · show (if rest.isEmpty = true then Phase.trailer else s.enc.phase) = _
    rw [hp]
  · show s.enc.pix + 1 + rest.length = s.enc.npix
    omega
  · rw [← h.pixels (j + 1) p hj]
    exact fetchPixel_congr rfl rfl (Nat.add_right_comm s.enc.pix 1 j)

/-- All the pixels that are left are encoded, one after another, to the trailer phase. -/
theorem State.PixelsLeft.encodes_all {s : State} {ps : List Pixel} (h : s.PixelsLeft ps) :
    ∃ n t, Sys2Proof.core.run n s = .next t ∧ t.PixelsLeft [] ∧
      t.emitted = s.emitted ++ encodeAll (tokensFrom s.enc.prev s.enc.run s.enc.cache ps) := by
  induction ps generalizing s with
  | nil => exact ⟨0, s, rfl, h, (List.append_nil _).symm⟩
  | cons cur rest ih =>
    obtain ⟨u, hstep, hleft, hemit, hprev, hrun, hcache⟩ := h.encodes_first
    obtain ⟨n, t, hrest, hdone, hall⟩ := ih hleft
    refine ⟨n + 1, t, (run_succ hstep).trans hrest, hdone, ?_⟩
    rw [hall, hemit, hprev, hrun, hcache, List.append_assoc, ← encodeAll_append]
    rfl

/-- The header step of an encode whose image stands in `PIXIN` leaves all its pixels to encode. -/
theorem step_startsPixels {s : State} {ps : List Pixel} (hsilent : s.agenda = []) (halone : s.dec.phase.inCall = false)
    (hp : s.enc.phase = .header) (hsent : s.enc.sent = 0) (ho : s.sinkOpen) (hne : ps ≠ [])
    (hcount : s.enc.pix + ps.length = s.enc.npix)
    (hpixels : ∀ (j : Nat) (p : Pixel), ps[j]? = some p →
      fetchPixel (s.withEnc { s.enc with pix := s.enc.pix + j }) = .pixel p) :
    ∃ t, step s = .next t ∧ t.PixelsLeft ps ∧ t.emitted = s.emitted ++ encode (headerInstr s.enc.cfg) ∧
      t.enc.prev = s.enc.prev ∧ t.enc.run = s.enc.run ∧ t.enc.cache = s.enc.cache := by
  obtain ⟨_, hstep, rfl⟩ := step_enc_alone hsilent halone (by rw [hp]; rfl)
  obtain ⟨u, hu, hw, hopen⟩ := encStep_header (s := { s with turn := .dec }) hp ho
  have hframe : u.withEnc { u.enc with phase := .body, sent := 0 } = { s with
      turn := .dec
      enc := { s.enc with phase := .body, epos := u.enc.epos, wr := u.enc.wr, sent := 0 }
      sink := u.sink } :=
    congrArg (fun v : State => v.withEnc { v.enc with phase := .body, sent := 0 }) hw.frame
  rw [hframe] at hu
  refine ⟨_, hstep.trans hu, ⟨hsilent, halone, hopen, ?_, rfl, hcount, hpixels⟩, hw.full_of_start hsent,
    rfl, rfl, rfl⟩
  rw [if_neg (by simpa using hne)]

/-- With no pixel left the next step writes the trailer, flushes and ends the call. -/
theorem State.PixelsLeft.finishes {s : State} (h : s.PixelsLeft []) :
    ∃ t, step s = .next t ∧ t.enc.phase = .done ∧ t.sink.bytes = s.emitted ++ encode (.trailer trailerWord) := by
  have hp : s.enc.phase = .trailer := h.phase
  obtain ⟨_, hstep, rfl⟩ := step_enc_alone h.silent h.alone (by rw [hp]; rfl)
  obtain ⟨v, hv, hsent, hempty⟩ := encStep_trailer (s := { s with turn := .dec }) hp h.sink
  have hsink : v.emitted = v.sink.bytes := by rw [State.emitted, hempty, List.append_nil]
  exact ⟨_, hstep.trans hv, rfl, hsink.symm.trans (hsent.full_of_start h.sent)⟩

/-- Settles O48: the header step, the pixels one by one, and the trailer step. -/
theorem encodeWritesTheStream : Obligations.EncodeWritesTheStream := by
  unfold Obligations.EncodeWritesTheStream
  intro s ps hsilent halone hp hsent ho hnone hprev hrun hcache hpix hnpix hne hlen hch hopaque hbytes
  have hpixels (j : Nat) (p : Pixel) (hj : ps[j]? = some p) :
      fetchPixel (s.withEnc { s.enc with pix := s.enc.pix + j }) = .pixel p := by
    obtain ⟨hlt, hget⟩ := List.getElem?_eq_some_iff.mp hj
    have hkind : s.enc.cfg.ch.toNat = 3 ∧ p.a = 255#8 ∨ s.enc.cfg.ch.toNat = 4 := by
      rcases hch with h3 | h4
      · exact .inl ⟨by rw [h3]; rfl, hopaque h3 p (List.mem_of_getElem? hj)⟩
      · exact .inr (by rw [h4]; rfl)
    refine fetchPixel_of_bytes rfl hkind ?_ ?_
    · show (s.enc.pix + j) * s.enc.cfg.ch.toNat + s.enc.cfg.ch.toNat ≤ s.enc.cfg.len
      rw [hlen, hpix, Nat.zero_add, ← Nat.succ_mul]
      exact Nat.mul_le_mul_right _ hlt
    · simpa [hpix] using hbytes j p hj
  obtain ⟨s1, hheader, hleft, hemit1, hprev1, hrun1, hcache1⟩ := step_startsPixels hsilent halone hp hsent ho hne
    (by rw [hpix, hnpix, Nat.zero_add]) hpixels
  obtain ⟨n, s2, hrun2, hdone, hemit2⟩ := hleft.encodes_all
  obtain ⟨t, htrailer, hphase, hsink⟩ := hdone.finishes
  refine ⟨n + 1 + 1, t, ?_, hphase, ?_⟩
  · calc Sys2Proof.core.run (n + 1 + 1) s = Sys2Proof.core.run (n + 1) s1 := run_succ hheader
      _ = Sys2Proof.core.run 1 s2 := run_add hrun2
      _ = .next t := run_succ htrailer
  · rw [hsink, hemit2, hemit1, hnone, hprev1, hrun1, hcache1, hprev, hrun, hcache]
    rfl

end Sys2Proof.Machine
end

section
/-! SUPPORT. The tokens of one pixel (43_encoder.md rules R213, R214 and R227): the range tests on wrapped differences, the
rows of the priority table, and what no pixel gives. -/

namespace Sys2Proof.Machine

/-! ## The range tests (rule R213) -/

/-- A byte's two readings: the signed one is the unsigned one, or 256 less. -/
theorem byte_toInt (d : Byte) : d.toNat < 256 ∧
    (d.toNat < 128 ∧ d.toInt = d.toNat ∨ 128 ≤ d.toNat ∧ d.toInt = d.toNat - 256) := by
  have hlt : d.toNat < 256 := d.isLt
  rw [BitVec.toInt_eq_toNat_cond]
  split <;> omega

/-- The bias moves the signed range `-b ≤ d ≤ m - b` onto the unsigned range `0 ≤ d ≤ m`. -/
theorem add_bias_le_iff {b m : Nat} (hb : b ≤ 128) (hm : m < b + 128) (d : Byte) :
    (d + BitVec.ofNat 8 b).toNat ≤ m ↔ -(b : Int) ≤ d.toInt ∧ d.toInt ≤ (m : Int) - b := by
  have hd := byte_toInt d
  rw [BitVec.toNat_add, BitVec.toNat_ofNat]
  omega

/-- In that range the biased difference, read unsigned, is the signed difference plus the bias. -/
theorem add_bias_toNat {b m : Nat} (hb : b ≤ 128) (hm : m < b + 128) {d : Byte}
    (h : (d + BitVec.ofNat 8 b).toNat ≤ m) : ((d + BitVec.ofNat 8 b).toNat : Int) = d.toInt + b := by
  have hd := byte_toInt d
  rw [BitVec.toNat_add, BitVec.toNat_ofNat] at h ⊢
  omega

/-- The small range, signed. -/
theorem inDiffRange_iff (d : Byte) : inDiffRange d = true ↔ -2 ≤ d.toInt ∧ d.toInt ≤ 1 :=
  decide_eq_true_iff.trans (add_bias_le_iff (b := 2) (m := 3) (by decide) (by decide) d)

/-- The green range, signed. -/
theorem inLumaGreenRange_iff (d : Byte) : inLumaGreenRange d = true ↔ -32 ≤ d.toInt ∧ d.toInt ≤ 31 :=
  decide_eq_true_iff.trans (add_bias_le_iff (b := 32) (m := 63) (by decide) (by decide) d)

/-- The relative range, signed. -/
theorem inLumaRelRange_iff (d : Byte) : inLumaRelRange d = true ↔ -8 ≤ d.toInt ∧ d.toInt ≤ 7 :=
  decide_eq_true_iff.trans (add_bias_le_iff (b := 8) (m := 15) (by decide) (by decide) d)

/-- Less a green difference in its range, a byte does not wrap back into the relative range. -/
theorem toInt_sub_in_relRange {dr dg : Byte} (h : -32 ≤ dg.toInt ∧ dg.toInt ≤ 31) :
    (-8 ≤ (dr - dg).toInt ∧ (dr - dg).toInt ≤ 7) ↔ -8 ≤ dr.toInt - dg.toInt ∧ dr.toInt - dg.toInt ≤ 7 := by
  have hr := byte_toInt dr
  rw [BitVec.toInt_sub, Int.bmod_def]
  split <;> omega

/-- Settles O33: each test is a biased comparison. -/
theorem rangeTestsAreSigned : Obligations.RangeTestsAreSigned := by
  unfold Obligations.RangeTestsAreSigned
  refine ⟨inDiffRange_iff, inLumaGreenRange_iff, inLumaRelRange_iff, fun dr dg hg => ?_⟩
  exact (inLumaRelRange_iff (dr - dg)).trans (toInt_sub_in_relRange ((inLumaGreenRange_iff dg).mp hg))

/-! ## The fields of a token (rules R220 and R221) -/

/-- A biased difference that fits its field stands in it unchanged. -/
theorem biasedField_toNat {b w : Nat} (hb : b ≤ 128) (hw : 2 ^ w ≤ b + 128) {d : Byte}
    (h : (d + BitVec.ofNat 8 b).toNat ≤ 2 ^ w - 1) :
    (((d + BitVec.ofNat 8 b).setWidth w).toNat : Int) = d.toInt + b := by
  have hpos : 0 < 2 ^ w := Nat.two_pow_pos w
  rw [BitVec.toNat_setWidth, Nat.mod_eq_of_lt (by omega)]
  exact add_bias_toNat hb (m := 2 ^ w - 1) (by omega) h

/-- A field of DIFF. -/
theorem diffField_toNat {d : Byte} (h : inDiffRange d = true) :
    (((d + diffBias).setWidth 2).toNat : Int) = d.toInt + 2 :=
  biasedField_toNat (b := 2) (by decide) (by decide) (of_decide_eq_true h)

/-- The green field of LUMA. -/
theorem lumaGreenField_toNat {d : Byte} (h : inLumaGreenRange d = true) :
    (((d + lumaGreenBias).setWidth 6).toNat : Int) = d.toInt + 32 :=
  biasedField_toNat (b := 32) (by decide) (by decide) (of_decide_eq_true h)

/-- A relative field of LUMA. -/
theorem lumaRelField_toNat {d : Byte} (h : inLumaRelRange d = true) :
    (((d + lumaRelBias).setWidth 4).toNat : Int) = d.toInt + 8 :=
  biasedField_toNat (b := 8) (by decide) (by decide) (of_decide_eq_true h)

/-! ## The rows of the table (rule R214) -/

section
variable {g : Signals} {cur : Pixel}

/-- The row INDEX. -/
theorem chooseToken_hit (hh : g.hit = true) : chooseToken g cur = .index g.idx := by
  rw [chooseToken, if_pos hh]

/-- The row DIFF. -/
theorem chooseToken_diff (hh : ¬ g.hit = true) (ha : g.aSame = true) (hd : g.diffOk = true) :
    chooseToken g cur =
      .diff ((g.dr + diffBias).setWidth 2) ((g.dg + diffBias).setWidth 2) ((g.db + diffBias).setWidth 2) := by
  simp [chooseToken, hh, ha, hd]

/-- The row LUMA. -/
theorem chooseToken_luma (hh : ¬ g.hit = true) (ha : g.aSame = true) (hd : ¬ g.diffOk = true)
    (hl : g.lumaOk = true) : chooseToken g cur = .luma ((g.dg + lumaGreenBias).setWidth 6)
      ((g.drg + lumaRelBias).setWidth 4) ((g.dbg + lumaRelBias).setWidth 4) := by
  simp [chooseToken, hh, ha, hd, hl]

/-- The row RGB. -/
theorem chooseToken_rgb (hh : ¬ g.hit = true) (ha : g.aSame = true) (hd : ¬ g.diffOk = true)
    (hl : ¬ g.lumaOk = true) : chooseToken g cur = .rgb cur.r cur.g cur.b := by
  simp [chooseToken, hh, ha, hd, hl]

/-- The row RGBA. -/
theorem chooseToken_rgba (hh : ¬ g.hit = true) (ha : ¬ g.aSame = true) :
    chooseToken g cur = .rgba cur.r cur.g cur.b cur.a := by
  simp [chooseToken, hh, ha]

end

/-! ## The signals, signed (rule R213) -/

section
variable (prev cur : Pixel) (cache : Cache)

/-- `hit`. -/
theorem signals_hit : (signals prev cache cur).hit = true ↔ cacheLookup cache (hash cur) = cur := decide_eq_true_iff

/-- `a_same`. -/
theorem signals_aSame : (signals prev cache cur).aSame = true ↔ cur.a = prev.a := decide_eq_true_iff

/-- `diff_ok`. -/
theorem signals_diffOk : (signals prev cache cur).diffOk = true ↔ inDiffRange (cur.r - prev.r) = true ∧
    inDiffRange (cur.g - prev.g) = true ∧ inDiffRange (cur.b - prev.b) = true := by
  simp only [signals, diffOkSignal, Bool.and_eq_true, and_assoc]

/-- `luma_ok`. -/
theorem signals_lumaOk : (signals prev cache cur).lumaOk = true ↔ inLumaGreenRange (cur.g - prev.g) = true ∧
    inLumaRelRange (cur.r - prev.r - (cur.g - prev.g)) = true ∧
    inLumaRelRange (cur.b - prev.b - (cur.g - prev.g)) = true := by
  simp only [signals, lumaOkSignal, Bool.and_eq_true, and_assoc]

end

/-- Settles O34: the run rows, then the rows of the table one after another, each condition read signed. -/
theorem tokenPriority : Obligations.TokenPriority := by
  unfold Obligations.TokenPriority
  intro prev cur run cache tokens flushed dr dg db drg dbg small luma hit after
  have hhit := signals_hit prev cur cache
  have hasame := signals_aSame prev cur cache
  have hsmall : (signals prev cache cur).diffOk = true ↔ small := by
    simp only [signals_diffOk, inDiffRange_iff, and_assoc, small, dr, dg, db]
  have hluma : (signals prev cache cur).lumaOk = true ↔ luma := by
    simp only [signals_lumaOk, inLumaGreenRange_iff, inLumaRelRange_iff, and_assoc, luma, dg, drg, dbg]
  have htokens {i : Instr} (hc : cur ≠ prev) (hi : chooseToken (signals prev cache cur) cur = i) :
      tokens = flushed ++ [i] := by
    rw [← hi]
    exact congrArg PixelEffect.tokens (pixelEffect_other hc)
  refine ⟨fun hc hr => ?_, fun hc hr => ?_, fun hc => ?_, fun hc hh => ?_, fun hc hh ha hs => ?_,
    fun hc hh ha hs hl => ?_, fun hc hh ha hs hl => ?_, fun hc hh ha => ?_⟩
  · have hf := pixelEffect_cap (cache := cache) hc (show run + 1#6 = runMax by rw [hr]; rfl)
    exact ⟨congrArg PixelEffect.tokens hf, congrArg PixelEffect.run hf⟩
  · have hcap : run + 1#6 ≠ runMax := fun h => hr (BitVec.add_left_inj 1#6 |>.mp h)
    have hf := pixelEffect_extend (cache := cache) hc hcap
    exact ⟨congrArg PixelEffect.tokens hf, congrArg PixelEffect.run hf⟩
  · exact congrArg PixelEffect.run (pixelEffect_other hc)
  · exact htokens hc (chooseToken_hit (hhit.mpr hh))
  · have hd := hsmall.mpr hs
    obtain ⟨hdr, hdg, hdb⟩ := (signals_diffOk ..).mp hd
    exact ⟨_, _, _, htokens hc (chooseToken_diff (mt hhit.mp hh) (hasame.mpr ha) hd), diffField_toNat hdr,
      diffField_toNat hdg, diffField_toNat hdb⟩
  · have hlok := hluma.mpr hl
    obtain ⟨hdg, hdrg, hdbg⟩ := (signals_lumaOk ..).mp hlok
    exact ⟨_, _, _, htokens hc (chooseToken_luma (mt hhit.mp hh) (hasame.mpr ha) (mt hsmall.mp hs) hlok),
      lumaGreenField_toNat hdg, lumaRelField_toNat hdrg, lumaRelField_toNat hdbg⟩
  · exact htokens hc
      (chooseToken_rgb (mt hhit.mp hh) (hasame.mpr ha) (mt hsmall.mp hs) (mt hluma.mp hl))
  · exact htokens hc (chooseToken_rgba (mt hhit.mp hh) (mt hasame.mp ha))

/-! ## What no pixel gives (rule R227, items 4 and 5) -/

/-- The tokens of a flush are RUN tokens. -/
theorem mem_flushRun {run : BitVec 6} {i : Instr} (h : i ∈ flushRun run) : i = runToken run := by
  unfold flushRun at h
  split at h
  · cases h
  · exact List.mem_singleton.mp h

/-- The tokens of a pixel are RUN tokens and, of a pixel other than the previous one, its own. -/
theorem mem_pixelEffect_tokens {prev cur : Pixel} {run : BitVec 6} {cache : Cache} {i : Instr}
    (h : i ∈ (pixelEffect prev run cache cur).tokens) :
    (∃ n, i = .run n) ∨ cur ≠ prev ∧ i = chooseToken (signals prev cache cur) cur := by
  by_cases hc : cur = prev
  · by_cases hr : run + 1#6 = runMax
    · rw [pixelEffect_cap hc hr] at h
      exact .inl ⟨_, List.mem_singleton.mp h⟩
    · rw [pixelEffect_extend hc hr] at h
      cases h
  · rw [pixelEffect_other hc] at h
    rcases List.mem_append.mp h with h | h
    · exact .inl ⟨_, mem_flushRun h⟩
    · exact .inr ⟨hc, List.mem_singleton.mp h⟩

/-- The same at the end of the buffer: what is added is a RUN token. -/
theorem mem_pixelEffectAt_tokens {last : Bool} {prev cur : Pixel} {run : BitVec 6} {cache : Cache} {i : Instr}
    (h : i ∈ (pixelEffectAt last prev run cache cur).tokens) :
    (∃ n, i = .run n) ∨ cur ≠ prev ∧ i = chooseToken (signals prev cache cur) cur := by
  cases last with
  | false => exact mem_pixelEffect_tokens h
  | true =>
    rcases List.mem_append.mp h with h | h
    · exact mem_pixelEffect_tokens h
    · exact .inl ⟨_, mem_flushRun h⟩

/-- DIFF 0,0,0 gives the previous pixel (44_decoder.md rule R267). -/
theorem diffPixel_zero (prev : Pixel) : diffPixel prev 2#2 2#2 2#2 = prev := by
  simp [diffPixel, diffDelta, diffBias]

/-- LUMA 0,0,0 gives the previous pixel (44_decoder.md rule R268). -/
theorem lumaPixel_zero (prev : Pixel) : lumaPixel prev 32#6 8#4 8#4 = prev := by
  simp [lumaPixel, lumaGreenDelta, lumaRelDelta, lumaGreenBias, lumaRelBias]

/-- Settles O42: the decoder resolves a pixel's own token to the pixel, and the three tokens ruled out to the previous
one. -/
theorem encoderNeverEmits : Obligations.EncoderNeverEmits := by
  unfold Obligations.EncoderNeverEmits
  intro last prev cur run cache i hi
  rcases mem_pixelEffectAt_tokens hi with ⟨n, rfl⟩ | ⟨hc, rfl⟩
  · exact ⟨nofun, nofun, nofun, nofun⟩
  have resolves {j : Instr} (h : chooseToken (signals prev cache cur) cur = j) :
      resolved j { State.reset.dec with prev := prev, cache := cache } = cur :=
    h ▸ resolved_chooseToken { State.reset.dec with prev := prev, cache := cache } cur
  exact ⟨fun h => hc ((resolves h).symm.trans (diffPixel_zero prev)),
    fun h => hc ((resolves h).symm.trans (lumaPixel_zero prev)), fun h => hc (resolves h).symm, fun _ h => resolves h⟩

end Sys2Proof.Machine
end

section
/-! SUPPORT. The tokens of a whole image (43_encoder.md rules R216, R217, R225 and R227), each fact by induction on the pixels
from any previous pixel, run counter and cache on. -/

namespace Sys2Proof.Machine

/-! ## Runs (rules R216, R217 and R225) -/

/-- A run of `n` pixels as tokens: RUN 62 for every 62 of them, and one RUN for the rest. -/
def runsOf (n : Nat) : List Instr :=
  List.replicate (n / 62) (.run 61#6) ++ (if n % 62 = 0 then [] else [.run (BitVec.ofNat 6 (n % 62 - 1))])

/-- A run longer by 62 has one RUN 62 more. -/
theorem runsOf_add_cap (n : Nat) : runsOf (n + 62) = .run 61#6 :: runsOf n := by
  simp only [runsOf, Nat.add_div_right n (Nat.succ_pos 61), Nat.add_mod_right, List.replicate_succ, List.cons_append]

/-- A run below the cap is flushed as one token, or none. -/
theorem runsOf_below_cap {run : BitVec 6} (h : run.toNat ≤ 61) : runsOf run.toNat = flushRun run := by
  have hdiv : run.toNat / 62 = 0 := by omega
  have hmod : run.toNat % 62 = run.toNat := by omega
  rw [runsOf, flushRun, hdiv, hmod]
  by_cases h0 : run = 0#6
  · rw [if_pos h0, if_pos (by rw [h0]; rfl)]
    rfl
  · have hne : run.toNat ≠ 0 := fun e => h0 (BitVec.eq_of_toNat_eq e)
    have hsub : BitVec.ofNat 6 (run.toNat - 1) = run - 1#6 := by
      apply BitVec.eq_of_toNat_eq
      rw [BitVec.toNat_ofNat, BitVec.toNat_sub, BitVec.toNat_ofNat]
      omega
    rw [if_neg h0, if_neg hne, hsub]
    rfl

/-- A run counter one below `RUN_MAX` is 61 (rule R217). -/
theorem run_at_cap {run : BitVec 6} (h : run.toNat ≤ 61) (hr : run + 1#6 = runMax) : run.toNat = 61 := by
  have hadd := run_add_one h
  rw [hr] at hadd
  exact Nat.succ.inj hadd.symm

/-- Any other counter stays below `RUN_MAX` when it grows (rule R216). -/
theorem run_below_cap {run : BitVec 6} (h : run.toNat ≤ 61) (hr : run + 1#6 ≠ runMax) : (run + 1#6).toNat ≤ 61 := by
  have hne : (run + 1#6).toNat ≠ 62 := fun e => hr (BitVec.eq_of_toNat_eq e)
  have hadd := run_add_one h
  omega

/-- The run counter of a call reset is below the cap (10_state.md rule R38). -/
theorem emptyRun_le : (0#6).toNat ≤ 61 := Nat.zero_le 61

/-- Pixels equal to the previous one, to the end of the buffer, add to the run in progress. -/
theorem tokensFrom_replicate (p : Pixel) (cache : Cache) (n : Nat) {run : BitVec 6} (h : run.toNat ≤ 61) :
    tokensFrom p run cache (List.replicate (n + 1) p) = runsOf (run.toNat + (n + 1)) := by
  induction n generalizing run with
  | zero =>
    by_cases hr : run + 1#6 = runMax
    · rw [run_at_cap h hr]
      simp [tokensFrom, pixelEffectAt, endEffect, pixelEffect_cap rfl hr, flushRun, runsOf]
    · rw [← run_add_one h, runsOf_below_cap (run_below_cap h hr)]
      simp [tokensFrom, pixelEffectAt, endEffect, pixelEffect_extend rfl hr]
  | succ n ih =>
    have hcons : tokensFrom p run cache (List.replicate (n + 1 + 1) p) =
        (pixelEffect p run cache p).tokens ++ tokensFrom (pixelEffect p run cache p).prev
          (pixelEffect p run cache p).run (pixelEffect p run cache p).cache (List.replicate (n + 1) p) := rfl
    rw [hcons]
    by_cases hr : run + 1#6 = runMax
    · rw [pixelEffect_cap rfl hr, ih emptyRun_le, run_at_cap h hr,
        show 61 + (n + 1 + 1) = n + 1 + 62 by omega, runsOf_add_cap, BitVec.toNat_zero, Nat.zero_add]
      rfl
    · rw [pixelEffect_extend rfl hr, ih (run_below_cap h hr), run_add_one h, Nat.add_right_comm run.toNat 1]
      rfl

/-- Settles O35: the run in progress is empty at first, and no pixel gives no token. -/
theorem equalPixelsMakeRuns : Obligations.EqualPixelsMakeRuns := by
  unfold Obligations.EqualPixelsMakeRuns
  intro p cache n
  cases n with
  | zero => rfl
  | succ n => exact (tokensFrom_replicate p cache n emptyRun_le).trans (congrArg runsOf (Nat.zero_add (n + 1)))

/-! ## Every pixel once (rule R227, item 2) -/

/-- The tokens from a run in progress stand for the run and the pixels; with no pixel to come there is no run left. -/
theorem tokenPixels_tokensFrom {ps : List Pixel} {prev : Pixel} {run : BitVec 6} {cache : Cache}
    (h : run.toNat ≤ 61) (h0 : ps = [] → run = 0#6) :
    ((tokensFrom prev run cache ps).map tokenPixels).sum = run.toNat + ps.length := by
  induction ps generalizing prev run cache with
  | nil => rw [h0 rfl]; rfl
  | cons cur rest ih =>
    obtain ⟨-, hpixels, hle, -, -, hlast⟩ := pixelEffectAt_cases rest.isEmpty prev run cache cur h
    have hrest := ih (prev := (pixelEffectAt rest.isEmpty prev run cache cur).prev)
      (cache := (pixelEffectAt rest.isEmpty prev run cache cur).cache) hle fun he => hlast (List.isEmpty_iff.mpr he)
    rw [tokensFrom, List.map_append, List.sum_append, hrest, List.length_cons]
    omega

/-- The tokens of an image are well-formed tokens. -/
theorem tokensFrom_wellFormed {ps : List Pixel} {prev : Pixel} {run : BitVec 6} {cache : Cache}
    (h : run.toNat ≤ 61) : ∀ i ∈ tokensFrom prev run cache ps, i.record = .token ∧ i.wellFormed = true := by
  induction ps generalizing prev run cache with
  | nil => exact nofun
  | cons cur rest ih =>
    obtain ⟨htokens, -, hle, -⟩ := pixelEffectAt_cases rest.isEmpty prev run cache cur h
    intro i hi
    exact (List.mem_append.mp hi).elim (htokens i) (ih hle i)

/-- Settles O43: the counter of a call reset is 0. -/
theorem tokensCoverThePixels : Obligations.TokensCoverThePixels := by
  unfold Obligations.TokensCoverThePixels
  exact fun ps => ⟨(tokenPixels_tokensFrom emptyRun_le fun _ => rfl).trans (Nat.zero_add _),
    tokensFrom_wellFormed emptyRun_le⟩

/-! ## The size of the stream (rule R227, item 6) -/

/-- The bytes a run in progress will take when it is flushed. -/
def flushBytes (run : BitVec 6) : Nat := if run = 0#6 then 0 else 1

/-- A bound for each pixel, the flush of its run counted with it, is a bound for the image. -/
theorem encodeAll_tokensFrom_le {bound : Nat} {ok : Pixel → Prop}
    (hpixel : ∀ last prev run cache cur, run.toNat ≤ 61 → ok prev → ok cur →
      (encodeAll (pixelEffectAt last prev run cache cur).tokens).length +
        flushBytes (pixelEffectAt last prev run cache cur).run ≤ bound + flushBytes run)
    {ps : List Pixel} {prev : Pixel} {run : BitVec 6} {cache : Cache} (h : run.toNat ≤ 61) (hprev : ok prev)
    (hps : ∀ p ∈ ps, ok p) :
    (encodeAll (tokensFrom prev run cache ps)).length ≤ bound * ps.length + flushBytes run := by
  induction ps generalizing prev run cache with
  | nil => exact Nat.zero_le _
  | cons cur rest ih =>
    obtain ⟨hcur, hrest⟩ := List.forall_mem_cons.mp hps
    have hfirst := hpixel rest.isEmpty prev run cache cur h hprev hcur
    obtain ⟨-, -, hle, -⟩ := pixelEffectAt_cases rest.isEmpty prev run cache cur h
    have hothers := ih (cache := (pixelEffectAt rest.isEmpty prev run cache cur).cache) hle
      ((pixelEffectAt_prev rest.isEmpty prev cur run cache).symm ▸ hcur) hrest
    rw [tokensFrom, encodeAll_append, List.length_append, List.length_cons, Nat.mul_succ]
    omega

/-- Settles O44: 5 bytes a pixel, and 4 where the alpha stays the same. -/
theorem streamSizeBound : Obligations.StreamSizeBound := by
  unfold Obligations.StreamSizeBound
  refine fun ps => ⟨?_, fun hopaque => ?_⟩
  · refine encodeAll_tokensFrom_le (ok := fun _ => True) ?_ emptyRun_le trivial fun _ _ => trivial
    intro last prev run cache cur h _ _
    obtain ⟨-, -, -, hfive, -⟩ := pixelEffectAt_cases last prev run cache cur h
    exact hfive
  · refine encodeAll_tokensFrom_le (ok := opaquePixel) ?_ emptyRun_le rfl hopaque
    intro last prev run cache cur h hp hc
    obtain ⟨-, -, -, -, hfour, -⟩ := pixelEffectAt_cases last prev run cache cur h
    exact hfour hp hc

/-! ## Adjacent RUN tokens (rule R227, item 3) -/

/-- A token that is RUN 62 where the token after it is a RUN. -/
def cappedBefore (i j : Instr) : Prop := ∀ a b, i = .run a → j = .run b → a = 61#6

/-- A token that is RUN 62 or no RUN: any token may follow it. -/
def CappedRun (i : Instr) : Prop := ∀ a, i = .run a → a = 61#6

/-- A flushed run is at most one token. -/
theorem isChain_flushRun (run : BitVec 6) : (flushRun run).IsChain cappedBefore := by
  unfold flushRun
  split
  · exact .nil
  · exact .singleton _

/-- The tokens of a pixel, the end of the buffer aside: a RUN 62, or a flushed run before a token that is no RUN. -/
theorem isChain_pixelEffect (prev cur : Pixel) (run : BitVec 6) (cache : Cache) :
    (pixelEffect prev run cache cur).tokens.IsChain cappedBefore ∧
      ∀ i ∈ (pixelEffect prev run cache cur).tokens.getLast?, CappedRun i := by
  by_cases hc : cur = prev
  · by_cases hr : run + 1#6 = runMax
    · rw [pixelEffect_cap hc hr]
      refine ⟨.singleton _, ?_⟩
      rintro i ⟨rfl⟩ a ⟨rfl⟩
      rfl
    · rw [pixelEffect_extend hc hr]
      exact ⟨.nil, nofun⟩
  · rw [pixelEffect_other hc]
    obtain ⟨-, -, -, hnorun, -⟩ := chooseToken_cases (signals prev cache cur) cur
    refine ⟨(isChain_flushRun run).append (.singleton _) ?_, ?_⟩
    · rintro i - j ⟨rfl⟩ a b - hb
      exact absurd hb (hnorun b)
    · rw [List.getLast?_concat]
      rintro i ⟨rfl⟩ a ha
      exact absurd ha (hnorun a)

/-- The tokens of a pixel at the end of the buffer: a run is left to flush there only where nothing was emitted. -/
theorem isChain_pixelEffectAt (last : Bool) (prev cur : Pixel) (run : BitVec 6) (cache : Cache) :
    (pixelEffectAt last prev run cache cur).tokens.IsChain cappedBefore := by
  obtain ⟨hchain, hcapped⟩ := isChain_pixelEffect prev cur run cache
  cases last with
  | false => exact hchain
  | true =>
    exact hchain.append (isChain_flushRun _) fun i hi _ _ a _ ha _ => hcapped i hi a ha

/-- In the tokens of an image only RUN 62 stands before a RUN. -/
theorem isChain_tokensFrom (ps : List Pixel) (prev : Pixel) (run : BitVec 6) (cache : Cache) :
    (tokensFrom prev run cache ps).IsChain cappedBefore := by
  induction ps generalizing prev run cache with
  | nil => exact .nil
  | cons cur rest ih =>
    refine (isChain_pixelEffectAt rest.isEmpty prev cur run cache).append (ih _ _ _) ?_
    cases rest with
    | nil => exact fun _ _ _ => nofun
    | cons next rest =>
      exact fun i hi _ _ a _ ha _ => (isChain_pixelEffect prev cur run cache).2 i hi a ha

/-- Settles O45: two adjacent positions of the chain. -/
theorem adjacentRunsAreCapped : Obligations.AdjacentRunsAreCapped := by
  unfold Obligations.AdjacentRunsAreCapped
  intro ps n a b ha hb
  obtain ⟨_, ha⟩ := List.getElem?_eq_some_iff.mp ha
  obtain ⟨hn, hb⟩ := List.getElem?_eq_some_iff.mp hb
  exact List.isChain_iff_getElem.mp (isChain_tokensFrom ps _ _ _) n hn a b ha hb

end Sys2Proof.Machine
end

section
/-! SUPPORT. The six tokens of DEC (44_decoder.md rules R262 to R280): what each resolves to, what it changes and what
it leaves alone, and where an instruction has no meaning. -/

namespace Sys2Proof.Machine

/-! ## What a token changes (rules R271 to R276 and R280) -/

/-- Two states that differ at most in what a token writes: `PREV`, DEC's cache, the write cursor, the phase and
`PIXOUT`. -/
def TokenWrites (s t : State) : Prop :=
  t = { s with
    dec := { s.dec with prev := t.dec.prev, cache := t.dec.cache, wcur := t.dec.wcur, phase := t.dec.phase }
    pixout := t.pixout }

theorem TokenWrites.refl (s : State) : TokenWrites s s := rfl

theorem TokenWrites.trans {s t u : State} (h1 : TokenWrites s t) (h2 : TokenWrites t u) : TokenWrites s u := by
  unfold TokenWrites at *
  rw [h2, h1]

/-- What tokens leave alone, field by field. -/
theorem TokenWrites.same {s t : State} (h : TokenWrites s t) : t.par = s.par ∧ t.dec.hdr = s.dec.hdr ∧
    t.dec.och = s.dec.och ∧ t.dec.npix = s.dec.npix ∧ t.dec.status = s.dec.status := by
  refine ⟨?_, ?_, ?_, ?_, ?_⟩ <;> rw [h]

theorem afterToken_writes (p : Pixel) (store : Bool) (k : Nat) (s : State) : TokenWrites s (afterToken p store k s) :=
  rfl

/-- The token phase of DEC: it has ended exactly when no pixel is left (rule R273). -/
def State.InTokens (s : State) : Prop := s.dec.phase = if s.dec.wcur = s.dec.npix then .trailer else .body

theorem afterToken_inTokens (p : Pixel) (store : Bool) (k : Nat) (s : State) : (afterToken p store k s).InTokens := rfl

/-- With a pixel left a token can run. -/
theorem State.InTokens.ready {s : State} (h : s.InTokens) (hlt : s.dec.wcur < s.dec.npix) : s.tokenReady :=
  ⟨h.trans (if_neg hlt.ne), hlt⟩

/-- The token phase is BODY or, at its end, TRAILER. -/
theorem State.InTokens.phase_cases {s : State} (h : s.InTokens) : s.dec.phase = .body ∨ s.dec.phase = .trailer := by
  unfold State.InTokens at h
  split at h
  · exact .inr h
  · exact .inl h

/-- Settles O15: the closed form of a token, field by field and byte by byte. -/
theorem tokenFrame : Obligations.TokenFrame := by
  unfold Obligations.TokenFrame
  intro i s t hi ht
  obtain ⟨-, rfl⟩ := exec_token_next hi ht
  refine ⟨afterToken_writes .., fun hs => ?_, fun j hj => ?_, fun a ha => ?_⟩
  · show storeIf (tokenStores i) _ s.dec.cache = s.dec.cache
    rw [hs]
    rfl
  · refine (cacheLookup_storeIf ..).trans (if_neg ?_)
    rintro ⟨-, rfl⟩
    exact hj (hash_toNat _)
  · rw [memReadByte_afterToken]
    refine if_neg fun h => ?_
    rcases ha with ha | ha
    · exact absurd h.1 (Nat.not_le.mpr ha)
    · exact absurd h.2 (Nat.not_lt.mpr ha)

/-- Settles O16: `storeIf` is the table of rule R271. -/
theorem tokensThatStore : Obligations.TokensThatStore := by
  unfold Obligations.TokensThatStore
  refine ⟨fun i s t hi ht => ?_, fun _ _ _ => rfl, fun _ _ _ _ => rfl, fun _ _ _ => rfl, fun _ _ _ => rfl,
    fun _ => rfl, fun _ => rfl⟩
  obtain ⟨-, rfl⟩ := exec_token_next hi ht
  rfl

/-- A token other than RUN stands for one pixel. -/
theorem tokenPixels_eq_one {i : Instr} (hi : i.record = .token) (hr : ∀ n, i ≠ .run n) : tokenPixels i = 1 := by
  cases i with
  | rgb | rgba | index | diff | luma => rfl
  | run n => exact absurd rfl (hr n)
  | header | trailer => cases hi

/-- Settles O17: the count of the closed form is the clamp of rule R276. -/
theorem tokenPixelCount : Obligations.TokenPixelCount := by
  unfold Obligations.TokenPixelCount
  intro i s t hi ht
  obtain ⟨hr, rfl⟩ := exec_token_next hi ht
  refine ⟨rfl, tokenPixels_eq_one hi, ?_, afterToken_inTokens _ _ _ s, rfl, fun j hj hlt c hc => ?_⟩
  · show s.dec.wcur + min (tokenPixels i) (s.dec.npix - s.dec.wcur) ≤ s.dec.npix
    have := hr.2
    omega
  · obtain ⟨n, rfl⟩ := Nat.exists_eq_add_of_le hj
    exact (tokenResult_of hr _ _ _).pixels n (Nat.lt_of_add_lt_add_left hlt) c hc

/-! ## The alpha of a pixel (rule R270) -/

/-- Where the policy is not in force it changes no pixel. -/
theorem alphaPolicy_kept {s : State} (h : ¬ s.forcesAlpha) (p : Pixel) : alphaPolicy s p = p :=
  alphaPolicy_id fun hf => absurd hf h

/-- The tokens that carry alpha over (rules R264, R267, R268 and R269). -/
theorem resolved_alpha {i : Instr} (hrgba : ∀ r g b a, i ≠ .rgba r g b a) (hindex : ∀ idx, i ≠ .index idx) (d : Dec) :
    (resolved i d).a = d.prev.a := by
  cases i with
  | rgba r g b a => exact absurd rfl (hrgba r g b a)
  | index idx => exact absurd rfl (hindex idx)
  | rgb | diff | luma | run | header | trailer => rfl

/-- Settles O18: the policy is applied to the resolved pixel before it is stored and written. -/
theorem threeChannelAlpha : Obligations.ThreeChannelAlpha := by
  unfold Obligations.ThreeChannelAlpha
  intro i s t hi ht
  obtain ⟨hr, rfl⟩ := exec_token_next hi ht
  have hprev : (afterToken (resolved i s.dec) (tokenStores i) (tokenPixels i) s).dec.prev =
      alphaPolicy s (resolved i s.dec) := rfl
  refine ⟨fun hf => ?_, fun hf => ?_, fun hs => ?_, fun h4 => ?_⟩
  · exact alphaPolicy_forced hf _
  · rw [hprev, alphaPolicy_kept hf]
    refine ⟨?_, ?_, fun hrgba hindex => resolved_alpha hrgba hindex s.dec⟩
    · rintro r g b a rfl
      rfl
    · rintro idx rfl
      rfl
  · exact (cacheLookup_storeIf ..).trans (if_pos ⟨hs, rfl⟩)
  · have hw : outWidth s.dec.och = 4 := if_pos h4
    have hone := tokenPixels_pos hi
    have hlt := hr.2
    have hpix := (tokenResult_of hr (resolved i s.dec) (tokenStores i) (tokenPixels i)).pixels 0 (by omega) 3
      (by omega)
    rw [hw] at hpix
    exact hpix

/-! ## The six tokens (rules R264 to R269) -/

/-- A token other than RUN, in its precondition, produces one pixel. -/
theorem token_result_one {i : Instr} (hi : i.record = .token) (hrun : ∀ n, i ≠ .run n) {s : State}
    (hr : s.tokenReady) : ∃ t, exec i s = .next t ∧
      TokenResult s { resolved i s.dec with a := policedAlpha s (resolved i s.dec).a } (tokenStores i) 1 t := by
  obtain ⟨t, ht, hres⟩ := token_result hi hr
  rw [tokenPixels_eq_one hi hrun, one_min hr, alphaPolicy_eq] at hres
  exact ⟨t, ht, hres⟩

/-- Settles O9: RGB resolves to its colour with the previous alpha. -/
theorem rgbResult : Obligations.RgbResult := by
  unfold Obligations.RgbResult
  exact fun r g b s hr => token_result_one (i := .rgb r g b) rfl nofun hr

/-- Settles O10: RGBA resolves to its four bytes. -/
theorem rgbaResult : Obligations.RgbaResult := by
  unfold Obligations.RgbaResult
  exact fun r g b a s hr => token_result_one (i := .rgba r g b a) rfl nofun hr

/-- Settles O11: INDEX resolves to the slot's pixel. -/
theorem indexResult : Obligations.IndexResult := by
  unfold Obligations.IndexResult
  exact fun idx s hr => token_result_one (i := .index idx) rfl nofun hr

/-- Settles O14: RUN is the token whose count the clamp can cut. -/
theorem runResult : Obligations.RunResult := by
  unfold Obligations.RunResult
  intro n1 s hr
  obtain ⟨t, ht, hres⟩ := token_result (i := .run n1) rfl hr
  rw [alphaPolicy_eq] at hres
  exact ⟨t, ht, hres⟩

/-- A byte moved by a field less its bias, over the integers (30_encoding.md rule R103). -/
theorem add_biased_toNat {w : Nat} (x : Byte) (f : BitVec w) (b : Nat) :
    ((x + (f.setWidth 8 - BitVec.ofNat 8 b)).toNat : Int) = ((x.toNat : Int) + f.toNat - b) % 256 := by
  rw [BitVec.toNat_add, BitVec.toNat_sub, BitVec.toNat_setWidth, BitVec.toNat_ofNat]
  omega

/-- A channel moved by a DIFF field (rule R267). -/
theorem add_diffDelta_toNat (x : Byte) (f : BitVec 2) :
    ((x + diffDelta f).toNat : Int) = ((x.toNat : Int) + f.toNat - 2) % 256 := add_biased_toNat x f 2

/-- A channel moved by the green field of LUMA (rule R268). -/
theorem add_lumaGreenDelta_toNat (x : Byte) (f : BitVec 6) :
    ((x + lumaGreenDelta f).toNat : Int) = ((x.toNat : Int) + ((f.toNat : Int) - 32)) % 256 := by
  rw [← Int.add_sub_assoc]
  exact add_biased_toNat x f 32

/-- A channel moved by the green field of LUMA and its own (rule R268). -/
theorem add_lumaDeltas_toNat (x : Byte) (f : BitVec 6) (g : BitVec 4) :
    ((x + lumaGreenDelta f + lumaRelDelta g).toNat : Int) =
      ((x.toNat : Int) + ((f.toNat : Int) - 32) + g.toNat - 8) % 256 := by
  have hrel := add_biased_toNat (x + lumaGreenDelta f) g 8
  have hgreen := add_lumaGreenDelta_toNat x f
  rw [hgreen] at hrel
  refine Eq.trans hrel ?_
  omega

/-- Settles O12: each channel moves by its own field. -/
theorem diffResult : Obligations.DiffResult := by
  unfold Obligations.DiffResult
  intro dr2 dg2 db2 s hr
  obtain ⟨t, ht, hres⟩ := token_result_one (i := .diff dr2 dg2 db2) rfl nofun hr
  exact ⟨t, _, ht, hres, add_diffDelta_toNat _ _, add_diffDelta_toNat _ _, add_diffDelta_toNat _ _, rfl⟩

/-- Settles O13: green moves by its field, red and blue by that field and their own. -/
theorem lumaResult : Obligations.LumaResult := by
  unfold Obligations.LumaResult
  intro dg32 drg8 dbg8 s hr
  obtain ⟨t, ht, hres⟩ := token_result_one (i := .luma dg32 drg8 dbg8) rfl nofun hr
  exact ⟨t, _, ht, hres, add_lumaGreenDelta_toNat _ _, add_lumaDeltas_toNat _ _ _, add_lumaDeltas_toNat _ _ _, rfl⟩

/-! ## Outside its phase (assumption log 14) -/

/-- Settles O23: each instruction checks its phase first. -/
theorem outOfPhaseStops : Obligations.OutOfPhaseStops := by
  unfold Obligations.OutOfPhaseStops
  refine fun i s => ⟨fun hi hr => ?_, fun hi hp => ?_, fun hi hp => ?_⟩
  · rw [exec_token hi, tokenStep_eq, if_neg hr]
  · cases i with
    | header => exact if_neg hp
    | rgb | rgba | index | diff | luma | run | trailer => cases hi
  · cases i with
    | trailer => exact if_neg hp
    | rgb | rgba | index | diff | luma | run | header => cases hi

end Sys2Proof.Machine
end

section
/-! SUPPORT. A step of DEC (44_decoder.md rules R261 to R263 and R277): the call reset of `start`, the unit that is
read, and what the token phase can come to. -/

namespace Sys2Proof.Machine

/-! ## `dec_start` (rule R261) -/

/-- A `start` with a legal `REQ`: the call reset. -/
theorem startDec_accepted {s : State} (hb : s.dec.status.busy = false)
    (hreq : s.dec.req = 0#8 ∨ s.dec.req = 3#8 ∨ s.dec.req = 4#8) : startDec s = callResetDec s := by
  have hlegal : ¬ (s.dec.req ≠ 0#8 ∧ s.dec.req ≠ 3#8 ∧ s.dec.req ≠ 4#8) := by tauto
  unfold startDec
  rw [if_neg (by simp [hb])]
  exact if_neg hlegal

/-- Settles O51: both ends of `dec_start` leave the values of the call reset. -/
theorem decStartChecks : Obligations.DecStartChecks := by
  unfold Obligations.DecStartChecks
  intro s rest ha hb
  have hstep : step s = .next (startDec { s with agenda := rest }) := step_host ha
  by_cases hreq : s.dec.req = 0#8 ∨ s.dec.req = 3#8 ∨ s.dec.req = 4#8
  · rw [startDec_accepted (s := { s with agenda := rest }) hb hreq] at hstep
    exact ⟨_, hstep, rfl, rfl, rfl, rfl, rfl, rfl, cacheLookup_cacheReset, (if_pos hreq).mpr ⟨rfl, rfl⟩⟩
  · obtain ⟨h0, h3, h4⟩ : s.dec.req ≠ 0#8 ∧ s.dec.req ≠ 3#8 ∧ s.dec.req ≠ 4#8 := by tauto
    rw [startDec_badReq (s := { s with agenda := rest }) hb h0 h3 h4] at hstep
    exact ⟨_, hstep, rfl, rfl, rfl, rfl, rfl, rfl, cacheLookup_cacheReset, (if_neg hreq).mpr ⟨rfl, rfl⟩⟩

/-! ## The unit a step reads (rules R263 and R277) -/

/-- A step of DEC whose unread bytes begin with the encoding of an instruction of the unit that stands next runs it,
with those bytes consumed. -/
theorem step_encoded {s : State} {i : Instr} {rest : List Byte} (hn : s.readsNext i.record)
    (hw : i.record = .token → i.wellFormed = true) (hr : readToTheEnd i) (hu : s.unread = encode i ++ rest) :
    ∃ t, step s = exec i t ∧ t.unread = rest ∧ t.readerOpen ∧ t.src.tail = s.src.tail ∧
      t.dec.spos = s.dec.spos + (encode i).length ∧ t.dec.pend = [] ∧ ReadFrame { s with turn := .enc } t := by
  obtain ⟨hturn, hph, hpend, ho⟩ := hn
  have hscan : scan i.record longestInstr [] s.unread = (encode i, rest, true) := hu ▸ scan_encode i rest hw hr
  obtain ⟨j, t, hf, hj, hframe, hrest, hto, hspos, htp, htl⟩ :=
    fetchFrom_whole (s := { s with turn := .enc }) (bs := []) ho hscan
  obtain rfl : j = i := Option.some.inj
    (hj.symm.trans (decodeRead_of_zeros hw (Nat.zero_le _) (List.append_nil (encode i))))
  refine ⟨t, ?_, hrest, hto, htl, hspos, htp, hframe⟩
  rw [step_dec hturn (hph ▸ recordPhase_inCall _)]
  simp only [decStep, hph, recordPhase_record?, fetch, hpend, hf]

/-- Settles O24: bytes that decode begin with the encoding of what they decode to. -/
theorem stepRunsDecodedInstruction : Obligations.StepRunsDecodedInstruction := by
  unfold Obligations.StepRunsDecodedInstruction
  intro s k i rest hn hd hr
  obtain ⟨hu, rfl, hw⟩ := encodeOfDecode k s.unread rest i hd
  obtain ⟨t, hstep, hrest, hto, htl, hspos, htp, hframe⟩ := step_encoded hn hw hr hu
  obtain ⟨-, -, hpend, -⟩ := hn
  refine ⟨t, hstep, hrest, hto, htl, ?_⟩
  have hcount : s.dec.spos + (s.unread.length - rest.length) = t.dec.spos := by
    rw [hspos, hu, List.length_append, Nat.add_sub_cancel]
  rw [hcount]
  unfold ReadFrame at hframe
  rw [htp.trans hpend.symm] at hframe
  exact hframe

/-- Settles O26: the unread bytes are read to their end, and there the truncation is raised. -/
theorem truncatedToken : Obligations.TruncatedToken := by
  unfold Obligations.TruncatedToken
  intro s hn htl hcut
  obtain ⟨hu, hd⟩ := cutShort_unit (k := .token) hcut
  obtain ⟨t, hf, hspos, -, hstep⟩ := step_short hn hu hd
  rw [htl] at hstep
  obtain ⟨-, -, -, -, -, -, -, -, -, -, -, hwcur, hprev, hcache⟩ := hf.same
  exact ⟨_, hstep, rfl, rfl, hprev, hcache, hwcur, hspos⟩

/-! ## The token phase is total (rule R262) -/

/-- What decodes is of the unit asked for. -/
theorem decodeRead_record {k : Record} {bs : List Byte} {i : Instr} (h : decodeRead k bs = some i) : i.record = k := by
  unfold decodeRead at h
  split at h
  · next j rest hd =>
    cases h
    exact (encodeOfDecode k _ rest _ hd).2.1
  · cases h

/-- A unit read to its end gives an instruction of the unit asked for. -/
theorem fetchFrom_whole_record {k : Record} {fuel : Nat} {bs : List Byte} {s t : State} {i : Instr}
    (hn : bytesNeeded k bs ≤ bs.length) (h : fetchFrom k fuel bs s = .instr i t) : i.record = k := by
  unfold fetchFrom at h
  rw [if_pos hn] at h
  split at h
  · next hd =>
    cases h
    exact decodeRead_record hd
  · cases h

/-- A fetch gives instructions of the unit asked for only. -/
theorem fetchFrom_record {k : Record} {fuel : Nat} {bs : List Byte} {s t : State} {i : Instr}
    (h : fetchFrom k fuel bs s = .instr i t) : i.record = k := by
  induction fuel generalizing bs s with
  | zero =>
    by_cases hn : bytesNeeded k bs ≤ bs.length
    · exact fetchFrom_whole_record hn h
    · unfold fetchFrom at h
      rw [if_neg hn] at h
      cases h
  | succ fuel ih =>
    by_cases hn : bytesNeeded k bs ≤ bs.length
    · exact fetchFrom_whole_record hn h
    · simp only [fetchFrom, if_neg hn] at h
      split at h
      · exact ih h
      all_goals cases h

/-- A token in its precondition leaves DEC in the token phase or after it, with the same status. -/
theorem exec_token_stays {i : Instr} (hi : i.record = .token) {s : State} (hr : s.tokenReady) :
    ∃ t, exec i s = .next t ∧ (t.dec.phase = .body ∨ t.dec.phase = .trailer) ∧ t.dec.status = s.dec.status :=
  ⟨_, exec_token_ready hi hr, (afterToken_inTokens _ _ _ s).phase_cases, rfl⟩

/-- Settles O25: a fetch of a token gives a token, one of two errors, or a wait. -/
theorem tokenPhaseIsTotal : Obligations.TokenPhaseIsTotal := by
  unfold Obligations.TokenPhaseIsTotal
  rintro s hturn ⟨hp, hlt⟩
  have hstep := step_dec hturn (by rw [hp]; rfl)
  have hframe := fetch_frame .token { s with turn := .enc }
  simp only [decStep, hp, Phase.record?] at hstep
  rw [hstep]
  cases hf : fetch .token { s with turn := .enc } with
  | instr i u =>
    rw [hf] at hframe
    obtain ⟨-, -, -, -, -, hph, hst, -, -, -, hnpix, hwcur, -⟩ := hframe.same
    obtain ⟨t, ht, hphase, hstatus⟩ := exec_token_stays (fetchFrom_record hf)
      (show u.tokenReady from ⟨hph.trans hp, hwcur.trans_lt (hlt.trans_eq hnpix.symm)⟩)
    exact ⟨t, ht, .inl ⟨hphase, hstatus.trans hst⟩⟩
  | error e u =>
    refine ⟨_, rfl, .inr ⟨rfl, ?_⟩⟩
    rcases fetchFrom_error _ _ _ _ _ _ hf with rfl | rfl
    · exact .inl rfl
    · exact .inr rfl
  | waiting u =>
    rw [hf] at hframe
    obtain ⟨-, -, -, -, -, hph, hst, -⟩ := hframe.same
    exact ⟨u, rfl, .inl ⟨.inl (hph.trans hp), hst⟩⟩

end Sys2Proof.Machine
end

section
/-! SUPPORT. Lock-step (44_decoder.md rules R283 and R284), on tokens: DEC running the tokens of ENC holds ENC's `PREV`
and `CACHE` after every pixel, and behind it produces the pixels ENC has taken less those of the run in progress. -/

namespace Sys2Proof.Machine

/-! ## Sequences of tokens -/

/-- Running one sequence after another. -/
theorem runTokens_append {is js : List Instr} {s t : State} (h : runTokens is s = .next t) :
    runTokens (is ++ js) s = runTokens js t := by
  induction is generalizing s with
  | nil => rw [← next_inj h, List.nil_append]
  | cons i is ih =>
    rw [runTokens] at h
    split at h
    · next u hu => exact (runTokens_cons hu).trans (ih h)
    all_goals cases h

/-- Running one token. -/
theorem runTokens_singleton {i : Instr} {s t : State} (h : exec i s = .next t) : runTokens [i] s = .next t :=
  runTokens_cons h

/-- Running the tokens `is` in `s` ends in `t` and has produced the pixels `ps`, whose bytes stand in `PIXOUT` from the
write cursor on. -/
structure Produces (is : List Instr) (s : State) (ps : List Pixel) (t : State) : Prop where
  runs : runTokens is s = .next t
  writes : TokenWrites s t
  inTokens : t.InTokens
  wcur : t.dec.wcur = s.dec.wcur + ps.length
  before : ∀ a < s.dec.wcur * outWidth s.dec.och, memReadByte t.pixout a = memReadByte s.pixout a
  pixels : ∀ (j : Nat) (p : Pixel), ps[j]? = some p → ∀ c < outWidth s.dec.och,
    memReadByte t.pixout ((s.dec.wcur + j) * outWidth s.dec.och + c) = (pixelBytes p (outWidth s.dec.och))[c]?

/-- No token, no pixel. -/
theorem Produces.nil {s : State} (h : s.InTokens) : Produces [] s [] s :=
  ⟨rfl, .refl s, h, rfl, fun _ _ => rfl, nofun⟩

/-- A byte of a pixel stands below the pixels after it. -/
theorem pixel_byte_lt {w j n c : Nat} (hj : j < n) (hc : c < w) : j * w + c < n * w := by
  have hmul : (j + 1) * w ≤ n * w := Nat.mul_le_mul_right w hj
  rw [Nat.succ_mul] at hmul
  omega

/-- Pixels after pixels: the later ones leave the bytes of the earlier ones alone. -/
theorem Produces.append {is js : List Instr} {s t u : State} {ps qs : List Pixel} (h1 : Produces is s ps t)
    (h2 : Produces js t qs u) : Produces (is ++ js) s (ps ++ qs) u := by
  obtain ⟨-, -, hoch, -⟩ := h1.writes.same
  have hbefore := h2.before
  have hpixels := h2.pixels
  rw [hoch, h1.wcur] at hbefore hpixels
  refine ⟨(runTokens_append h1.runs).trans h2.runs, h1.writes.trans h2.writes, h2.inTokens, ?_, fun a ha => ?_,
    fun j p hj c hc => ?_⟩
  · rw [h2.wcur, h1.wcur, List.length_append, Nat.add_assoc]
  · exact (hbefore a (ha.trans_le (Nat.mul_le_mul_right _ (Nat.le_add_right _ _)))).trans (h1.before a ha)
  · by_cases hlt : j < ps.length
    · rw [List.getElem?_append_left hlt] at hj
      rw [hbefore _ (pixel_byte_lt (Nat.add_lt_add_left hlt _) hc)]
      exact h1.pixels j p hj c hc
    · obtain ⟨k, rfl⟩ := Nat.exists_eq_add_of_le (Nat.le_of_not_lt hlt)
      rw [List.getElem?_append_right (Nat.le_add_right _ _), Nat.add_sub_cancel_left] at hj
      rw [← Nat.add_assoc]
      exact hpixels k p hj c hc

/-- A token whose pixels fit produces them, all equal to the pixel it resolves to (rules R276 and R280). -/
theorem exec_produces {i : Instr} (hi : i.record = .token) {s : State} {p : Pixel} (hr : s.tokenReady)
    (hp : alphaPolicy s (resolved i s.dec) = p) (hfit : s.dec.wcur + tokenPixels i ≤ s.dec.npix) :
    ∃ t, exec i s = .next t ∧ t.dec.prev = p ∧ t.dec.cache = storeIf (tokenStores i) p s.dec.cache ∧
      Produces [i] s (List.replicate (tokenPixels i) p) t := by
  obtain ⟨t, ht, hprev, hcache, hwcur, hphase, -, -, -, -, hbefore, hpixels⟩ := one_token hi hr hp hfit
  obtain ⟨-, htok⟩ := exec_token_next hi ht
  refine ⟨t, ht, hprev, hcache, runTokens_singleton ht, htok ▸ afterToken_writes _ _ _ s, hphase,
    by rw [hwcur, List.length_replicate], hbefore, fun j q hj c hc => ?_⟩
  obtain ⟨hlt, rfl⟩ : j < tokenPixels i ∧ p = q := by simpa [List.getElem?_replicate] using hj
  exact hpixels j hlt c hc

/-! ## One pixel in lock-step (rule R283) -/

/-- The token of a pixel gives the pixel, and the cache ENC has after it. -/
theorem chooseToken_produces {s : State} (cur : Pixel) (hr : s.tokenReady) (ha : s.forcesAlpha → cur.a = 255#8) :
    ∃ t, exec (chooseToken (signals s.dec.prev s.dec.cache cur) cur) s = .next t ∧ t.dec.prev = cur ∧
      t.dec.cache = cacheStore s.dec.cache (hash cur) cur ∧
      Produces [chooseToken (signals s.dec.prev s.dec.cache cur) cur] s [cur] t := by
  obtain ⟨hi, -, hone, -⟩ := chooseToken_cases (signals s.dec.prev s.dec.cache cur) cur
  have hp : alphaPolicy s (resolved (chooseToken (signals s.dec.prev s.dec.cache cur) cur) s.dec) = cur := by
    rw [resolved_chooseToken]
    exact alphaPolicy_id ha
  obtain ⟨t, ht, hprev, hcache, hprod⟩ := exec_produces hi hr hp (by rw [hone]; exact hr.2)
  rw [storeIf_chooseToken] at hcache
  rw [hone] at hprod
  exact ⟨t, ht, hprev, hcache, hprod⟩

/-- A RUN token leaves `PREV` and the cache as they are. -/
theorem exec_run_keeps (n : BitVec 6) {s : State} (hr : s.tokenReady) (ha : s.forcesAlpha → s.dec.prev.a = 255#8) :
    ∃ t, exec (.run n) s = .next t ∧ t.dec.prev = s.dec.prev ∧ t.dec.cache = s.dec.cache :=
  ⟨_, exec_token_ready rfl hr, alphaPolicy_id ha, rfl⟩

/-- Settles O46: the token of a pixel resolves to it, and both engines store it in the same slot. -/
theorem lockStepPixel : Obligations.LockStepPixel := by
  unfold Obligations.LockStepPixel
  intro s cur run hr ha
  refine ⟨fun hne => ?_, exec_run_keeps _ hr fun hf => (ha hf).2⟩
  obtain ⟨t, ht, hprev, hcache, hprod⟩ := chooseToken_produces cur hr fun hf => (ha hf).1
  refine ⟨t, ht, by rw [hprev, pixelEffect_prev], hprev, ?_, hprod.wcur, hprod.pixels 0 cur rfl⟩
  rw [hcache, pixelEffect_cache, if_neg hne]

/-! ## A whole image in lock-step (rule R284) -/

/-- A flushed run produces its pixels, all equal to the previous one, and leaves `PREV` and the cache as they are. -/
theorem flushRun_produces {s : State} {run : BitVec 6} (hs : s.InTokens)
    (ha : s.forcesAlpha → s.dec.prev.a = 255#8) (hfit : s.dec.wcur + run.toNat ≤ s.dec.npix) :
    ∃ t, t.dec.prev = s.dec.prev ∧ t.dec.cache = s.dec.cache ∧
      Produces (flushRun run) s (List.replicate run.toNat s.dec.prev) t := by
  unfold flushRun
  split
  · next h0 =>
    subst h0
    exact ⟨s, rfl, rfl, .nil hs⟩
  · next h0 =>
    have hpos : run.toNat ≠ 0 := fun e => h0 (BitVec.eq_of_toNat_eq e)
    have hcount : tokenPixels (runToken run) = run.toNat := by
      show (run - 1#6).toNat + 1 = run.toNat
      rw [BitVec.toNat_sub, BitVec.toNat_ofNat]
      omega
    obtain ⟨t, -, hprev, hcache, hprod⟩ := exec_produces (i := runToken run) rfl (hs.ready (by omega))
      (alphaPolicy_id ha) (by rw [hcount]; exact hfit)
    rw [hcount] at hprod
    exact ⟨t, hprev, hcache, hprod⟩

/-- DEC behind ENC: it holds ENC's `PREV` and cache, and the pixels still to be produced are those of ENC's run in
progress and those ENC has still to take. -/
structure LockStep (s : State) (prev : Pixel) (run : BitVec 6) (cache : Cache) (ps : List Pixel) : Prop where
  prevEq : s.dec.prev = prev
  cacheEq : s.dec.cache = cache
  inTokens : s.InTokens
  count : s.dec.wcur + (run.toNat + ps.length) = s.dec.npix
  cap : run.toNat ≤ 61
  alpha : s.forcesAlpha → prev.a = 255#8 ∧ ∀ p ∈ ps, p.a = 255#8

/-- Lock-step after tokens that produced `qs`, where `qs` and the new run are the old run and the pixel taken. -/
theorem LockStep.advance {s t : State} {is : List Instr} {prev cur : Pixel} {run run' : BitVec 6}
    {cache cache' : Cache} {qs rest : List Pixel} (h : LockStep s prev run cache (cur :: rest))
    (hp : Produces is s qs t) (hprev : t.dec.prev = cur) (hcache : t.dec.cache = cache') (hcap : run'.toNat ≤ 61)
    (hqs : qs ++ List.replicate run'.toNat cur = List.replicate run.toNat prev ++ [cur]) :
    LockStep t cur run' cache' rest := by
  obtain ⟨hpar, hhdr, -, hnpix, -⟩ := hp.writes.same
  have hlen := congrArg List.length hqs
  have hcount := h.count
  simp only [List.length_append, List.length_replicate, List.length_cons, List.length_nil] at hlen hcount
  refine ⟨hprev, hcache, hp.inTokens, ?_, hcap, fun hf => ?_⟩
  · rw [hp.wcur, hnpix]
    omega
  · unfold State.forcesAlpha at hf
    rw [hpar, hhdr] at hf
    obtain ⟨-, hps⟩ := h.alpha hf
    exact List.forall_mem_cons.mp hps

/-- ENC's token of a run it flushes can run in lock-step. -/
theorem LockStep.flush {s : State} {prev : Pixel} {run n : BitVec 6} {cache : Cache} {ps : List Pixel}
    (h : LockStep s prev run cache ps) (hn : n.toNat ≤ run.toNat + ps.length) :
    ∃ t, t.dec.prev = prev ∧ t.dec.cache = cache ∧ Produces (flushRun n) s (List.replicate n.toNat prev) t := by
  obtain ⟨rfl, rfl, hs, hcount, -, ha⟩ := h
  exact flushRun_produces hs (fun hf => (ha hf).1) (hcount ▸ Nat.add_le_add_left hn _)

/-- The tokens of a pixel, the end of the buffer aside, keep lock-step. -/
theorem LockStep.takes_pixel {s : State} {prev cur : Pixel} {run : BitVec 6} {cache : Cache} {rest : List Pixel}
    (h : LockStep s prev run cache (cur :: rest)) :
    let f := pixelEffect prev run cache cur
    ∃ qs t, Produces f.tokens s qs t ∧ LockStep t cur f.run f.cache rest ∧
      qs ++ List.replicate f.run.toNat cur = List.replicate run.toNat prev ++ [cur] := by
  dsimp only
  by_cases hc : cur = prev
  · subst hc
    by_cases hr : run + 1#6 = runMax
    · rw [pixelEffect_cap rfl hr]
      have hcap := run_at_cap h.cap hr
      obtain ⟨t, hprev, hcache, hprod⟩ := h.flush (n := runMax) (by
        have h62 : runMax.toNat = 62 := rfl
        rw [hcap, List.length_cons]
        omega)
      have hqs : List.replicate runMax.toNat cur ++ List.replicate (0#6).toNat cur =
          List.replicate run.toNat cur ++ [cur] := by
        rw [hcap, ← List.replicate_succ', BitVec.toNat_zero, List.replicate_zero, List.append_nil]
        rfl
      exact ⟨_, t, hprod, h.advance hprod hprev hcache emptyRun_le hqs, hqs⟩
    · rw [pixelEffect_extend rfl hr]
      have hprod := Produces.nil h.inTokens
      have hqs : [] ++ List.replicate (run + 1#6).toNat cur = List.replicate run.toNat cur ++ [cur] := by
        rw [run_add_one h.cap, List.nil_append, List.replicate_succ']
      exact ⟨[], s, hprod, h.advance hprod h.prevEq h.cacheEq (run_below_cap h.cap hr) hqs, hqs⟩
  · rw [pixelEffect_other hc]
    obtain ⟨u, rfl, rfl, hrun⟩ := h.flush (Nat.le_add_right _ _)
    obtain ⟨hpar, hhdr, -, hnpix, -⟩ := hrun.writes.same
    have hready : u.tokenReady := hrun.inTokens.ready (by
      have hcount := h.count
      rw [hrun.wcur, hnpix, List.length_replicate]
      simp only [List.length_cons] at hcount
      omega)
    obtain ⟨t, -, hprev, hcache, htok⟩ := chooseToken_produces cur hready fun hf => (h.alpha (by
      unfold State.forcesAlpha at hf
      rwa [hpar, hhdr] at hf)).2 cur List.mem_cons_self
    have hprod := hrun.append htok
    have hqs : List.replicate run.toNat u.dec.prev ++ [cur] ++ List.replicate (0#6).toNat cur =
        List.replicate run.toNat u.dec.prev ++ [cur] := List.append_nil _
    exact ⟨_, t, hprod, h.advance hprod hprev hcache emptyRun_le hqs, hqs⟩

/-- The tokens of a pixel keep lock-step, also those of the last one, which flush the run. -/
theorem LockStep.takes_pixelAt {s : State} {prev cur : Pixel} {run : BitVec 6} {cache : Cache} {rest : List Pixel}
    (h : LockStep s prev run cache (cur :: rest)) :
    let f := pixelEffectAt rest.isEmpty prev run cache cur
    ∃ qs t, Produces f.tokens s qs t ∧ LockStep t cur f.run f.cache rest ∧
      qs ++ List.replicate f.run.toNat cur = List.replicate run.toNat prev ++ [cur] := by
  obtain ⟨qs, u, hprod, hu, hqs⟩ := h.takes_pixel
  cases rest with
  | cons next rest => exact ⟨qs, u, hprod, hu, hqs⟩
  | nil =>
    obtain ⟨t, hprev, hcache, hrun⟩ := hu.flush (Nat.le_add_right _ _)
    have hall := hprod.append hrun
    have hqs' := (List.append_nil _).trans hqs
    exact ⟨_, t, hall, h.advance hall hprev hcache emptyRun_le hqs', hqs'⟩

/-- The tokens of all the pixels to come produce the run in progress and those pixels. -/
theorem LockStep.takes_all {ps : List Pixel} {s : State} {prev : Pixel} {run : BitVec 6} {cache : Cache}
    (h : LockStep s prev run cache ps) (h0 : ps = [] → run = 0#6) :
    ∃ t, Produces (tokensFrom prev run cache ps) s (List.replicate run.toNat prev ++ ps) t := by
  induction ps generalizing s prev run cache with
  | nil =>
    rw [h0 rfl]
    exact ⟨s, .nil h.inTokens⟩
  | cons cur rest ih =>
    obtain ⟨qs, u, hfirst, hu, hqs⟩ := h.takes_pixelAt
    obtain ⟨-, hlast⟩ := pixelEffectAt_run_le (last := rest.isEmpty) (prev := prev) (cur := cur) (cache := cache) h.cap
    obtain ⟨t, hrest⟩ := ih hu fun he => hlast (List.isEmpty_iff.mpr he)
    have hall := hfirst.append hrest
    rw [← List.append_assoc, hqs, List.append_assoc] at hall
    refine ⟨t, ?_⟩
    rw [tokensFrom, pixelEffectAt_prev]
    exact hall

/-- From a call reset on, with no run in progress, the tokens of an image produce its pixels. -/
theorem LockStep.takes_image {s : State} {ps : List Pixel} (h : LockStep s prevInit 0#6 cacheReset ps) :
    ∃ t, Produces (tokensOf ps) s ps t :=
  h.takes_all fun _ => rfl

/-- The values of a call reset are in lock-step with ENC's (10_state.md rule R38). -/
theorem lockStep_start {s : State} {ps : List Pixel} (hphase : s.dec.phase = .body) (hprev : s.dec.prev = prevInit)
    (hcache : s.dec.cache = cacheReset) (hwcur : s.dec.wcur = 0) (hnpix : s.dec.npix = ps.length) (hne : ps ≠ [])
    (halpha : s.forcesAlpha → ∀ p ∈ ps, p.a = 255#8) : LockStep s prevInit 0#6 cacheReset ps := by
  have hlt : s.dec.wcur ≠ s.dec.npix := by
    rw [hwcur, hnpix]
    exact (List.length_pos_of_ne_nil hne).ne
  refine ⟨hprev, hcache, hphase.trans (if_neg hlt).symm, ?_, emptyRun_le, fun hf => ⟨rfl, halpha hf⟩⟩
  rw [hwcur, hnpix, BitVec.toNat_zero, Nat.zero_add, Nat.zero_add]

/-- All the pixels of an image produced end the token phase (rule R273). -/
theorem Produces.ends {is : List Instr} {s t : State} {ps : List Pixel} (h : Produces is s ps t)
    (hall : s.dec.wcur + ps.length = s.dec.npix) : t.dec.phase = .trailer := by
  obtain ⟨-, -, -, hnpix, -⟩ := h.writes.same
  exact h.inTokens.trans (if_pos (by rw [h.wcur, hall, hnpix]))

/-- Settles O47: a call reset is in lock-step, and so the tokens produce the pixels. -/
theorem tokensRoundTrip : Obligations.TokensRoundTrip := by
  unfold Obligations.TokensRoundTrip
  intro s ps hphase hprev hcache hwcur hnpix hne halpha
  obtain ⟨t, hprod⟩ := (lockStep_start hphase hprev hcache hwcur hnpix hne halpha).takes_image
  obtain ⟨-, -, -, -, hstatus⟩ := hprod.writes.same
  refine ⟨t, hprod.runs, hprod.ends ?_, hstatus, fun j p hj c hc => ?_⟩
  · rw [hwcur, hnpix]
    exact Nat.zero_add _
  · have hbyte := hprod.pixels j p hj c hc
    rwa [hwcur, Nat.zero_add] at hbyte

end Sys2Proof.Machine
end

section
/-! SUPPORT. The round trip on the stream (44_decoder.md rules R279 and R284): with no encode beside it DEC reads the
tokens of its unread bytes one after another, and what it does is what the tokens alone do, RD and the source aside. -/

namespace Sys2Proof.Machine

/-! ## The state but for the reader -/

/-- `s` with RD, `DEC.SPOS`, the bytes of the unit in progress, the source and the turn of `r`. -/
def State.readInto (s r : State) : State :=
  { s with
    dec := { s.dec with rd := r.dec.rd, spos := r.dec.spos, pend := r.dec.pend }
    src := r.src
    turn := r.turn }

/-- What reading leaves alone, field by field. -/
theorem readInto_same {s t : State} (h : t = s.readInto t) : t.par = s.par ∧ t.pixout = s.pixout ∧
    t.dec.phase = s.dec.phase ∧ t.dec.req = s.dec.req ∧ t.dec.hdr = s.dec.hdr ∧ t.dec.och = s.dec.och ∧
    t.dec.npix = s.dec.npix ∧ t.dec.wcur = s.dec.wcur ∧ t.dec.prev = s.dec.prev ∧ t.dec.cache = s.dec.cache := by
  refine ⟨?_, ?_, ?_, ?_, ?_, ?_, ?_, ?_, ?_, ?_⟩ <;> (rw [h]; rfl)

theorem readInto_trans {s t u : State} (h1 : t = s.readInto t) (h2 : u = t.readInto u) : u = s.readInto u :=
  h2.trans (by rw [h1]; rfl)

/-- A token does not look at the reader and leaves it alone. -/
theorem exec_token_readInto {i : Instr} (hi : i.record = .token) {s t : State} (ht : exec i s = .next t) (r : State) :
    exec i (s.readInto r) = .next (t.readInto r) := by
  obtain ⟨hr, rfl⟩ := exec_token_next hi ht
  rw [exec_token_ready hi (s := s.readInto r) hr]
  have hpix := outPixels_pixout_congr (alphaPolicy s (resolved i s.dec))
    (min (tokenPixels i) (s.dec.npix - s.dec.wcur)) (s := s.readInto r) (t := s) rfl rfl rfl
  exact congrArg (fun m => Host.Outcome.next
    { (afterToken (resolved i s.dec) (tokenStores i) (tokenPixels i) s).readInto r with pixout := m }) hpix

/-! ## DEC alone -/

/-- No host and no encode come between the steps of DEC, which stands between two units of a stream of `len` bytes,
with `rest` still to be read. -/
structure State.ReadsAlone (s : State) (len : Nat) (rest : List Byte) : Prop where
  silent : s.agenda = []
  alone : s.enc.phase.inCall = false
  between : s.dec.pend = []
  opened : s.readerOpen
  unread : s.unread = rest
  spos : s.dec.spos + rest.length = len

/-- An instruction leaves the reader alone, and what is beside DEC. -/
theorem State.ReadsAlone.after_exec {s t : State} {len : Nat} {rest : List Byte} {i : Instr}
    (h : s.ReadsAlone len rest) (ht : exec i s = .next t) : t.ReadsAlone len rest := by
  obtain ⟨hsilent, halone, hpend, ho, hu, hspos⟩ := h
  cases i with
  | header =>
    obtain ⟨-, ⟨e, rfl⟩ | ⟨-, rfl⟩⟩ := execHeader_next ht <;> exact ⟨hsilent, halone, hpend, ho, hu, hspos⟩
  | trailer =>
    obtain ⟨-, rfl | rfl⟩ := execTrailer_next ht <;> exact ⟨hsilent, halone, hpend, ho, hu, hspos⟩
  | _ =>
    obtain ⟨-, rfl⟩ := exec_token_next rfl ht
    exact ⟨hsilent, halone, hpend, ho, hu, hspos⟩

/-- A step of DEC alone reads the instruction its unread bytes begin with and runs it. -/
theorem State.ReadsAlone.reads_unit {s : State} {len : Nat} {rest : List Byte} {i : Instr}
    (h : s.ReadsAlone len (encode i ++ rest)) (hph : s.dec.phase = recordPhase i.record)
    (hw : i.record = .token → i.wellFormed = true) (hr : readToTheEnd i) :
    ∃ t, step s = exec i t ∧ t = s.readInto t ∧ t.ReadsAlone len rest := by
  obtain ⟨hsilent, halone, hpend, ho, hu, hspos⟩ := h
  have hcall : s.dec.phase.inCall = true := hph ▸ recordPhase_inCall _
  obtain ⟨_, hstep, rfl⟩ := step_dec_alone hsilent halone hcall
  obtain ⟨_, hturn, rfl⟩ := step_dec_alone (s := { s with turn := .dec }) hsilent halone hcall
  obtain ⟨t, hexec, hrest, hto, -, hpos, htp, hframe⟩ :=
    step_encoded (s := { s with turn := .dec }) ⟨⟨hsilent, rfl⟩, hph, hpend, ho⟩ hw hr hu
  have hread : t = s.readInto t := by
    have hte : t.turn = .enc := by rw [hframe]
    rw [State.readInto, hte]
    exact hframe
  refine ⟨t, hstep.trans (hturn.symm.trans hexec), hread, by rw [hread]; exact hsilent,
    by rw [hread]; exact halone, htp, hto, hrest, ?_⟩
  rw [List.length_append] at hspos
  rw [hpos]
  exact (Nat.add_assoc _ _ _).trans hspos

/-- A token is read to its end. -/
theorem token_readToTheEnd {i : Instr} (hi : i.record = .token) : readToTheEnd i := by
  cases i with
  | header => cases hi
  | rgb | rgba | index | diff | luma | run | trailer => trivial

/-- Where the tokens run one after another, DEC alone reads and runs them step by step. -/
theorem State.ReadsAlone.reads_tokens {is : List Instr} {s s0 t0 : State} {len : Nat} {rest : List Byte}
    (h : s.ReadsAlone len (encodeAll is ++ rest)) (hs : s = s0.readInto s) (hrun : runTokens is s0 = .next t0)
    (htok : ∀ i ∈ is, i.record = .token ∧ i.wellFormed = true) :
    ∃ n t, Sys2Proof.core.run n s = .next t ∧ t = t0.readInto t ∧ t.ReadsAlone len rest := by
  induction is generalizing s s0 with
  | nil => exact ⟨0, s, rfl, next_inj hrun ▸ hs, h⟩
  | cons i is ih =>
    obtain ⟨⟨hi, hw⟩, htok⟩ := List.forall_mem_cons.mp htok
    rw [runTokens] at hrun
    split at hrun
    · next u0 hexec =>
      obtain ⟨-, -, hph, -⟩ := readInto_same hs
      have hready := (exec_token_next hi hexec).1
      have hbytes : encodeAll (i :: is) ++ rest = encode i ++ (encodeAll is ++ rest) := List.append_assoc _ _ _
      rw [hbytes] at h
      obtain ⟨v, hstep, hv, hvr⟩ := h.reads_unit (by rw [hph, hready.1, hi]; rfl) (fun _ => hw)
        (token_readToTheEnd hi)
      have hvexec : exec i v = .next (u0.readInto v) := by
        rw [readInto_trans hs hv]
        exact exec_token_readInto hi hexec v
      obtain ⟨n, t, hn, ht, htr⟩ := ih (hvr.after_exec hvexec) rfl hrun htok
      exact ⟨n + 1, t, (run_succ (hstep.trans hvexec)).trans hn, ht, htr⟩
    all_goals cases hrun

/-! ## The Image (rule R279) -/

/-- Two stretches of memory that adjoin are read as one. -/
theorem memRead_append {m : Memory} {addr : Nat} {a b : List Byte} (ha : memRead m addr a.length = some a)
    (hb : memRead m (addr + a.length) b.length = some b) : memRead m addr (a ++ b).length = some (a ++ b) := by
  refine memRead_eq_some.mpr ⟨rfl, fun j hj => ?_⟩
  by_cases hlt : j < a.length
  · rw [List.getElem?_append_left hlt]
    exact (memRead_eq_some.mp ha).2 j hlt
  · obtain ⟨k, rfl⟩ := Nat.exists_eq_add_of_le (Nat.le_of_not_lt hlt)
    rw [List.getElem?_append_right (Nat.le_add_right _ _), Nat.add_sub_cancel_left, ← Nat.add_assoc]
    refine (memRead_eq_some.mp hb).2 k ?_
    rw [List.length_append] at hj
    omega

/-- Pixels that stand one after another in memory are read as their bytes one after another (20_memory.md rule R63). -/
theorem memRead_pixels {m : Memory} {och : Byte} {ps : List Pixel} {addr : Nat}
    (h : ∀ (j : Nat) (p : Pixel), ps[j]? = some p → ∀ c < outWidth och,
      memReadByte m (addr + j * outWidth och + c) = (pixelBytes p (outWidth och))[c]?) :
    memRead m addr (ps.length * outWidth och) = some (ps.flatMap fun p => pixelBytes p (outWidth och)) := by
  have hlen (qs : List Pixel) :
      (qs.flatMap fun p => pixelBytes p (outWidth och)).length = qs.length * outWidth och := by
    simp [List.length_flatMap]
  induction ps generalizing addr with
  | nil => rw [List.length_nil, Nat.zero_mul]; rfl
  | cons p ps ih =>
    have hfirst : memRead m addr (pixelBytes p (outWidth och)).length = some (pixelBytes p (outWidth och)) :=
      memRead_eq_some.mpr ⟨rfl, fun c hc => by simpa using h 0 p rfl c (by simpa using hc)⟩
    have hrest := ih (addr := addr + outWidth och) fun j q hj c hc => by
      rw [← h (j + 1) q hj c hc, Nat.succ_mul, Nat.add_comm (j * _), ← Nat.add_assoc addr]
    rw [← hlen] at hrest ⊢
    exact memRead_append hfirst (by rwa [pixelBytes_length])

/-- The pixels of a whole image stand in `PIXOUT` from address 0 on. -/
theorem Produces.read_pixels {is : List Instr} {s t : State} {ps : List Pixel} (h : Produces is s ps t)
    (hwcur : s.dec.wcur = 0) (hnpix : s.dec.npix = ps.length) :
    memRead t.pixout 0 (t.dec.npix * outWidth t.dec.och) =
      some (ps.flatMap fun p => pixelBytes p (outWidth t.dec.och)) := by
  obtain ⟨-, -, hoch, hnpix', -⟩ := h.writes.same
  rw [hnpix', hnpix, hoch]
  refine memRead_pixels fun j p hj c hc => ?_
  have hbyte := h.pixels j p hj c hc
  rw [hwcur] at hbyte
  rwa [Nat.zero_add] at hbyte ⊢

/-- A legal channel count is the number of bytes of a pixel (rule R275). -/
theorem outWidth_legal {och : Byte} (h : och = 3#8 ∨ och = 4#8) : outWidth och = och.toNat := by
  rcases h with rfl | rfl <;> rfl

/-- A call that ends well has the Image that stands in `PIXOUT`. -/
theorem finishDec_image? {s : State} {v : List Byte}
    (h : memRead s.pixout 0 (s.dec.npix * outWidth s.dec.och) = some v) :
    (finishDec s).image? = some ⟨s.dec.hdr.width, s.dec.hdr.height, s.dec.och, s.dec.hdr.cs, v⟩ := by
  simp [State.image?, h]

/-! ## A whole decode (rule R284) -/

/-- The header step of a decode from the values of a call reset: the header is accepted, and DEC is in lock-step with
an encode of the pixels at its start. -/
theorem State.ReadsAlone.reads_header {s : State} {ps : List Pixel} {w h : Word} {c cs : Byte} {len : Nat}
    {rest : List Byte} (ha : s.ReadsAlone len (encode (.header magicWord w h c cs) ++ rest))
    (hph : s.dec.phase = .header) (hprev : s.dec.prev = prevInit) (hcache : s.dec.cache = cacheReset)
    (hwcur : s.dec.wcur = 0) (he : headerError s.par.pixbufMax s.dec.req magicWord w h c cs = none)
    (hcount : w.toNat * h.toNat = ps.length) (halpha : c = 3#8 → ∀ p ∈ ps, p.a = 255#8) :
    ∃ t, step s = .next t ∧ t.ReadsAlone len rest ∧ LockStep t prevInit 0#6 cacheReset ps ∧
      t.dec.wcur = 0 ∧ t.dec.npix = ps.length ∧ t.dec.hdr = ⟨w, h, c, cs⟩ ∧
      t.dec.och = outputChannels s.dec.req c := by
  obtain ⟨-, hpos, hch⟩ := headerError_none he
  have hfields : readToTheEnd (.header magicWord w h c cs) := by
    refine ⟨rfl, ?_, ?_, hch⟩ <;> rintro rfl <;> simp at hpos
  obtain ⟨v, hstep, hv, hvr⟩ := ha.reads_unit hph nofun hfields
  obtain ⟨hpar, -, hvph, hreq, -, -, -, hvwcur, hvprev, hvcache⟩ := readInto_same hv
  have hexec := exec_header_accepted (s := v) (hvph.trans hph) (by rw [hpar, hreq]; exact he)
  have hne : ps ≠ [] := by
    rintro rfl
    exact hpos.ne' hcount
  exact ⟨_, hstep.trans hexec, hvr.after_exec hexec, lockStep_start rfl (hvprev.trans hprev) (hvcache.trans hcache)
    (hvwcur.trans hwcur) hcount hne fun hf => halpha hf.1, hvwcur.trans hwcur, hcount, rfl,
    congrArg (outputChannels · c) hreq⟩

/-- The trailer step of a decode whose trailer is the sentinel ends the call. -/
theorem State.ReadsAlone.reads_trailer {s : State} {len : Nat} {rest : List Byte}
    (h : s.ReadsAlone len (encode (.trailer trailerWord) ++ rest)) (hph : s.dec.phase = .trailer) :
    ∃ t, step s = .next (finishDec t) ∧ t = s.readInto t ∧ t.ReadsAlone len rest := by
  obtain ⟨t, hstep, ht, htr⟩ := h.reads_unit hph nofun trivial
  obtain ⟨-, -, htph, -⟩ := readInto_same ht
  exact ⟨t, hstep.trans (exec_trailer (htph.trans hph) trailerWord), ht, htr⟩

/-- Settles O49: the header step, the tokens step by step, and the trailer step. -/
theorem decodeReadsTheStream : Obligations.DecodeReadsTheStream := by
  unfold Obligations.DecodeReadsTheStream
  intro s ps w h c cs extra hsilent halone hph hpend ho hspos hprev hcache hwcur hreq he hcount halpha hu
  simp only [List.append_assoc] at hu
  have hstart : s.ReadsAlone s.unread.length _ :=
    ⟨hsilent, halone, hpend, ho, hu, by rw [hspos, ← hu, Nat.zero_add]⟩
  obtain ⟨s1, hheader, hs1, hlock, hwcur1, hnpix1, hhdr1, hoch1⟩ :=
    hstart.reads_header hph hprev hcache hwcur he hcount halpha
  obtain ⟨t0, hprod⟩ := hlock.takes_image
  obtain ⟨n, s2, hrun, hs2, hs2r⟩ := hs1.reads_tokens rfl hprod.runs (tokensFrom_wellFormed emptyRun_le)
  obtain ⟨-, -, hph2, -⟩ := readInto_same hs2
  have hend : t0.dec.phase = .trailer := hprod.ends (by rw [hwcur1, hnpix1, Nat.zero_add])
  obtain ⟨t, htrailer, ht, htr⟩ := hs2r.reads_trailer (hph2.trans hend)
  obtain ⟨-, hpixout, -, -, hhdr, hoch, hnpix, -⟩ := readInto_same (readInto_trans hs2 ht)
  have himage := finishDec_image? (s := t) (by rw [hpixout, hnpix, hoch]; exact hprod.read_pixels hwcur1 hnpix1)
  obtain ⟨-, hhdr0, hoch0, -⟩ := hprod.writes.same
  obtain ⟨-, -, hch⟩ := headerError_none he
  rw [hhdr, hoch, hhdr0, hoch0, hhdr1, hoch1, outWidth_legal (outputChannels_legal hreq hch)] at himage
  refine ⟨n + 1 + 1, finishDec t, ?_, rfl, himage, htr.spos, htr.unread⟩
  calc Sys2Proof.core.run (n + 1 + 1) s = Sys2Proof.core.run (n + 1) s1 := run_succ hheader
    _ = Sys2Proof.core.run 1 s2 := run_add hrun
    _ = .next (finishDec t) := run_succ htrailer

end Sys2Proof.Machine
end

section
/-! SUPPORT. Errors and how a call ends (60_exceptions.md): a record cut short, what a step that fails leaves alone, the
host's actions on a call, and why an error stays. -/

namespace Sys2Proof.Machine

/-! ## A record cut short (rules R303 and R309) -/

/-- The bytes of a unit end inside it and so does the source: the truncation error of that unit, with those bytes
consumed. -/
theorem step_truncated {s : State} {k : Record} (hn : s.readsNext k) (htl : s.src.tail = .ended)
    (hu : UnitBytes k s.unread) (hd : s.unread.length < bytesNeeded k s.unread) :
    ∃ t, step s = .next t ∧ t.dec.phase = .failed ∧ t.dec.status = (truncation k).status ∧
      t.dec.spos = s.dec.spos + s.unread.length := by
  obtain ⟨t, -, hspos, -, hstep⟩ := step_short hn hu hd
  rw [htl] at hstep
  exact ⟨_, hstep, rfl, rfl, hspos⟩

/-- Settles O27: the bytes of either record are read to their end, and there the truncation is raised. -/
theorem truncatedRecord : Obligations.TruncatedRecord := by
  unfold Obligations.TruncatedRecord
  refine ⟨fun s hn htl hlen => ?_, fun s hn htl hcut => ?_⟩
  · exact step_truncated hn htl (trailer_unit _ hlen.le) hlen
  · obtain ⟨hu, hd⟩ := cutShort_unit (k := .header) hcut
    exact step_truncated hn htl hu hd

/-! ## What a failing step leaves alone (rules R306 and R310) -/

/-- An instruction that ends the call in FAILED does nothing but raise an error. -/
theorem exec_failed {i : Instr} {s t : State} (ht : exec i s = .next t) (hf : t.dec.phase = .failed) :
    ∃ e, t = raiseDec e s := by
  cases i with
  | header =>
    obtain ⟨-, ⟨e, rfl⟩ | ⟨-, rfl⟩⟩ := execHeader_next ht
    · exact ⟨e, rfl⟩
    · cases hf
  | trailer =>
    obtain ⟨-, rfl | rfl⟩ := execTrailer_next ht
    · cases hf
    · exact ⟨_, rfl⟩
  | _ =>
    obtain ⟨-, rfl⟩ := exec_token_next rfl ht
    rcases (afterToken_inTokens _ _ _ s).phase_cases with hp | hp <;> cases hp.symm.trans hf

/-- A step of DEC that ends the call in FAILED reads bytes and raises an error. -/
theorem decStep_failed {s t : State} (ht : decStep s = .next t) (hf : t.dec.phase = .failed)
    (hs : s.dec.phase ≠ .failed) : ∃ e u, ReadFrame s u ∧ t = raiseDec e u := by
  unfold decStep at ht
  split at ht
  · cases next_inj ht
    exact absurd hf hs
  · next k _ =>
    have hframe := fetch_frame k s
    split at ht <;> (rename_i u hu; rw [hu] at hframe)
    · obtain ⟨e, rfl⟩ := exec_failed ht hf
      exact ⟨e, u, hframe, rfl⟩
    · exact ⟨_, u, hframe, (next_inj ht).symm⟩
    · cases next_inj ht
      obtain ⟨-, -, -, -, -, hph, -⟩ := hframe.same
      exact absurd (hph.symm.trans hf) hs

/-- A step of ENC that ends the call in FAILED hands bytes over until the sink fails, and raises `IoError(sink)`. -/
theorem encStep_failed {s t : State} (ht : encStep s = .next t) (hf : t.enc.phase = .failed)
    (hs : s.enc.phase ≠ .failed) :
    ∃ bytes u, s.stepBytes? = some bytes ∧ Sent bytes .failed s u ∧ t = raiseEnc .ioSink u := by
  rcases encStep_cases ht with ⟨-, -, rfl⟩ | ⟨bytes, o, u, hb, hsent, hcase⟩
  · exact absurd hf hs
  obtain ⟨-, -, -, -, -, hph, -⟩ := hsent.same
  rcases hcase with ⟨rfl, rfl⟩ | ⟨-, rfl⟩ | ⟨-, -, rfl⟩ | ⟨-, hbody, f, last, rfl⟩ | ⟨-, -, -, rfl⟩
  · exact ⟨bytes, u, hb, hsent, rfl⟩
  · exact absurd (hph.symm.trans hf) hs
  · cases hf
  · rw [commitPixel_enc_phase, hph, hbody] at hf
    cases last <;> cases hf
  · cases hf

/-- Settles O39: either engine raises its error after reading or handing over, which leave the registers alone. -/
theorem failingStepIsPrecise : Obligations.FailingStepIsPrecise := by
  unfold Obligations.FailingStepIsPrecise
  refine fun s t => ⟨fun ht hf hs => ?_, fun ht hf hs => ?_⟩
  · obtain ⟨bytes, u, hb, hsent, rfl⟩ := encStep_failed ht hf hs
    obtain ⟨taken, hpre, -, hsink, hepos, -⟩ := hsent.taken
    exact ⟨hsent.sameRegisters, rfl, bytes, taken, hb, hpre, hepos, hsent.grows, hsink⟩
  · obtain ⟨e, u, hframe, rfl⟩ := decStep_failed ht hf hs
    obtain ⟨-, -, -, hpixout, -⟩ := hframe.same
    exact ⟨hframe.sameRegisters, rfl, hpixout⟩

/-! ## The host's actions on a call (rule R321) -/

/-- A `start` of a busy encode is ignored. -/
theorem startEnc_busy {s : State} (hb : s.enc.status.busy = true) : startEnc s = s := if_pos hb

/-- A `start` of a busy decode is ignored. -/
theorem startDec_busy {s : State} (hb : s.dec.status.busy = true) : startDec s = s := if_pos hb

/-- An aborted decode has no Image. -/
theorem abortDec_image? (s : State) : (abortDec s).image? = none := if_neg (show Phase.idle ≠ .done by decide)

/-- Settles O53: each of the four actions is the next step when it heads the agenda. -/
theorem abortAndBusyStart : Obligations.AbortAndBusyStart := by
  unfold Obligations.AbortAndBusyStart
  refine fun s rest => ⟨fun ha => ?_, fun ha => ?_, fun ha hb => ?_, fun ha hb => ?_⟩
  · exact ⟨_, step_host ha, rfl, rfl, rfl, abortDec_image? _⟩
  · exact ⟨_, step_host ha, rfl, rfl, rfl, rfl⟩
  · exact (step_host ha).trans (congrArg _ (startEnc_busy (s := { s with agenda := rest }) hb))
  · exact (step_host ha).trans (congrArg _ (startDec_busy (s := { s with agenda := rest }) hb))

/-! ## Errors are final (rules R313 and R314) -/

/-- A `start` of an encode leaves DEC alone. -/
@[simp] theorem startEnc_dec (s : State) : (startEnc s).dec = s.dec := by
  unfold startEnc
  split
  · rfl
  · dsimp only
    split <;> rfl

/-- A `start` of a decode leaves ENC alone. -/
@[simp] theorem startDec_enc (s : State) : (startDec s).enc = s.enc := by
  unfold startDec
  split
  · rfl
  · dsimp only
    split <;> rfl

/-- The host's actions that begin or end calls; the others configure the block and serve its ports. -/
def HostAct.onCall : HostAct → Bool
  | .startEnc | .startDec | .abortEnc | .abortDec | .hardReset => true
  | _ => false

/-- Two states that differ at most in what the host writes between calls: `CFG`, `REQ`, `PIXIN` and the ports. -/
def HostFrame (s t : State) : Prop :=
  t = { s with
    enc := { s.enc with cfg := t.enc.cfg }, dec := { s.dec with req := t.dec.req }, pixin := t.pixin, src := t.src,
    sink := t.sink }

/-- A write of `CFG` touches nothing else. -/
theorem writeCfg_frame {f : Cfg → Cfg} {s t : State} (ht : writeCfg f s = .next t) : HostFrame s t := by
  unfold writeCfg at ht
  split at ht
  · cases ht
  · cases next_inj ht
    rfl

/-- An action that is none on a call stays in the host's frame. -/
theorem hostStep_frame {a : HostAct} {s t : State} (ha : a.onCall = false) (ht : hostStep a s = .next t) :
    HostFrame s t := by
  cases a with
  | startEnc | startDec | abortEnc | abortDec | hardReset => cases ha
  | cfgWidth | cfgHeight | cfgCh | cfgCs | cfgLen =>
    simp only [hostStep] at ht
    exact writeCfg_frame ht
  | req v =>
    simp only [hostStep, writeReq] at ht
    split at ht
    · cases ht
    · cases next_inj ht
      rfl
  | pixin addr bytes =>
    simp only [hostStep, writePixin] at ht
    split at ht
    · cases ht
    · cases next_inj ht
      rfl
  | source | feed | sink =>
    cases next_inj ht
    rfl

/-- The host moves DEC's phase and status only by an action on a call of DEC or by a hardware reset. -/
theorem hostStep_dec {a : HostAct} {s t : State} (ht : hostStep a s = .next t) :
    t.dec.phase = s.dec.phase ∧ t.dec.status = s.dec.status ∨ a = .startDec ∨ a = .abortDec ∨ a = .hardReset := by
  by_cases ha : a.onCall = true
  · cases a with
    | startEnc =>
      cases next_inj ht
      simp
    | abortEnc =>
      cases next_inj ht
      exact .inl ⟨rfl, rfl⟩
    | startDec | abortDec | hardReset => simp
    | _ => cases ha
  · have hf := hostStep_frame (Bool.eq_false_of_not_eq_true ha) ht
    exact .inl (by rw [hf]; exact ⟨rfl, rfl⟩)

/-- The host moves ENC's phase and status only by an action on a call of ENC or by a hardware reset. -/
theorem hostStep_enc {a : HostAct} {s t : State} (ht : hostStep a s = .next t) :
    t.enc.phase = s.enc.phase ∧ t.enc.status = s.enc.status ∨ a = .startEnc ∨ a = .abortEnc ∨ a = .hardReset := by
  by_cases ha : a.onCall = true
  · cases a with
    | startDec =>
      cases next_inj ht
      simp
    | abortDec =>
      cases next_inj ht
      exact .inl ⟨rfl, rfl⟩
    | startEnc | abortEnc | hardReset => simp
    | _ => cases ha
  · have hf := hostStep_frame (Bool.eq_false_of_not_eq_true ha) ht
    exact .inl (by rw [hf]; exact ⟨rfl, rfl⟩)

/-- No step of an engine touches DEC once it has failed (rule R310). -/
theorem engineStep_failedDec {g : Engine} {s t : State} (hp : s.dec.phase = .failed) (ht : engineStep g s = .next t) :
    t.dec = s.dec := by
  cases g with
  | enc => rw [encStep_encFrame ht]
  | dec =>
    simp only [engineStep, decStep, hp, Phase.record?] at ht
    rw [next_inj ht]

/-- No step of an engine touches ENC once it has failed (rule R310). -/
theorem engineStep_failedEnc {g : Engine} {s t : State} (hp : s.enc.phase = .failed) (ht : engineStep g s = .next t) :
    t.enc = s.enc := by
  cases g with
  | enc =>
    simp only [engineStep, encStep, hp] at ht
    rw [next_inj ht]
  | dec => rw [decStep_decFrame ht]

/-- What a step of the machine is: the action of the host that heads the agenda, a step of an engine, or nothing. The
turns of `s` are no matter of the engines. -/
theorem step_cases {s t : State} (ht : step s = .next t) :
    (∃ a rest, s.agenda = .host a :: rest ∧ hostStep a { s with agenda := rest } = .next t) ∨
    (∃ g u, u.enc = s.enc ∧ u.dec = s.dec ∧ engineStep g u = .next t) ∨ t = s := by
  unfold step at ht
  split at ht
  · next a rest ha => exact .inl ⟨a, rest, ha, ht⟩
  · next g rest _ => exact .inr (.inl ⟨g, { s with agenda := rest }, rfl, rfl, ht⟩)
  · split at ht
    · next g _ => exact .inr (.inl ⟨g, { s with turn := g.other }, rfl, rfl, ht⟩)
    · exact .inr (.inr (next_inj ht).symm)

/-- Settles O55: of the three kinds of step, the engines' leave a failed engine alone, and of the host's actions only
those named move its phase or status. -/
theorem errorsAreFinal : Obligations.ErrorsAreFinal := by
  unfold Obligations.ErrorsAreFinal
  intro s t ht
  rcases step_cases ht with ⟨a, rest, ha, hh⟩ | ⟨g, u, henc, hdec, hg⟩ | rfl
  · refine ⟨fun hp => ?_, fun hp => ?_⟩
    · exact (hostStep_dec hh).imp (fun ⟨hph, hst⟩ => ⟨hph.trans hp, hst⟩) fun hact => ⟨a, rest, ha, hact⟩
    · exact (hostStep_enc hh).imp (fun ⟨hph, hst⟩ => ⟨hph.trans hp, hst⟩) fun hact => ⟨a, rest, ha, hact⟩
  · refine ⟨fun hp => .inl ?_, fun hp => .inl ?_⟩
    · rw [engineStep_failedDec (hdec ▸ hp) hg, hdec]
      exact ⟨hp, rfl⟩
    · rw [engineStep_failedEnc (henc ▸ hp) hg, henc]
      exact ⟨hp, rfl⟩
  · exact ⟨fun hp => .inl ⟨hp, rfl⟩, fun hp => .inl ⟨hp, rfl⟩⟩

end Sys2Proof.Machine
end

section
/-! SUPPORT. The resets (70_reset_and_hazards.md): what the call reset sets whatever `start` then checks, what a hardware
reset leaves, and that a machine with no call in progress stays as it is. -/

namespace Sys2Proof.Machine

/-! ## The call reset (rule R351) -/

/-- Whatever the check of `REQ` says, a start that is not ignored leaves the registers of the call reset; only `PHASE`
and `STATUS` depend on it. -/
theorem startDec_callReset {s : State} (hb : s.dec.status.busy = false) :
    ∃ phase status, startDec s =
      (callResetDec s).withDec { (callResetDec s).dec with phase := phase, status := status } := by
  by_cases hreq : s.dec.req = 0#8 ∨ s.dec.req = 3#8 ∨ s.dec.req = 4#8
  · exact ⟨_, _, startDec_accepted hb hreq⟩
  · obtain ⟨h0, h3, h4⟩ : s.dec.req ≠ 0#8 ∧ s.dec.req ≠ 3#8 ∧ s.dec.req ≠ 4#8 := by tauto
    exact ⟨_, _, startDec_badReq hb h0 h3 h4⟩

/-- Settles O52: either start is the call reset of its engine but for what its checks decide, and none of the registers
named is among that. -/
theorem callResetValues : Obligations.CallResetValues := by
  unfold Obligations.CallResetValues
  refine ⟨fun s rest ha hb => ?_, fun s rest ha hb => ?_⟩
  · obtain ⟨npix, phase, status, hstart⟩ := startEnc_callReset (s := { s with agenda := rest }) hb
    exact ⟨_, (step_host ha).trans (congrArg Host.Outcome.next hstart), rfl, rfl, rfl, rfl, cacheLookup_cacheReset, rfl,
      rfl, rfl⟩
  · obtain ⟨phase, status, hstart⟩ := startDec_callReset (s := { s with agenda := rest }) hb
    exact ⟨_, (step_host ha).trans (congrArg Host.Outcome.next hstart), rfl, rfl, rfl, cacheLookup_cacheReset, rfl, rfl⟩

/-! ## Hardware reset and power-on (rule R352) -/

/-- With no call in progress it is no engine's turn. -/
theorem nextEngine_eq_none {s : State} (he : s.enc.phase.inCall = false) (hd : s.dec.phase.inCall = false) :
    s.nextEngine = none := by
  unfold State.nextEngine
  rw [he, hd]
  cases s.turn <;> rfl

/-- With no turn of the host to come and no call in progress a step changes nothing. -/
theorem step_noCall {s : State} (ha : s.agenda = []) (he : s.enc.phase.inCall = false)
    (hd : s.dec.phase.inCall = false) : step s = .next s := by
  simp only [step, ha, nextEngine_eq_none he hd]

/-- Settles O54: a hardware reset sets `PHASE` and `STATUS` of both engines, `State.reset` has the same values, and
without a call it is no engine's turn. -/
theorem resetLeavesIdle : Obligations.ResetLeavesIdle := by
  unfold Obligations.ResetLeavesIdle
  refine ⟨fun s rest ha => ?_, rfl, rfl, rfl, rfl, fun s => step_noCall⟩
  exact ⟨_, step_host ha, rfl, rfl, rfl, rfl⟩

/-- IDLE agrees with a zero `STATUS` (rule R34). -/
theorem statusInv_idle : StatusInv .idle Status.reset := ⟨rfl, fun _ => ⟨rfl, rfl⟩, nofun⟩

/-- Settles O60: outside a call an engine need only agree with its status, and empty memories are in canonical form. -/
theorem resetMeetsInvariant : Obligations.ResetMeetsInvariant := by
  unfold Obligations.ResetMeetsInvariant
  exact ⟨EncInv.out statusInv_idle rfl, DecInv.out statusInv_idle rfl, by decide, by decide⟩

end Sys2Proof.Machine
end
